-- ==== Sys2Proof/Word.lean ====
section
/-! DEFINITION. The bit-vector types of the machine: host words, command words, register indices. -/

namespace Sys2Proof

/-- A 32-bit word: a host transfer, a control register, a PBUF word, an immediate (20_memory.md R46). -/
abbrev Word32 := BitVec 32

/-- A 64-bit command word (30_encoding.md R60). -/
abbrev Command := BitVec 64

/-- A value register index, the 4-bit RD, RA and RB fields (30_encoding.md R63). -/
abbrev RegIx := BitVec 4

end Sys2Proof
end

