-- ==== Sys2Proof/Syntax.lean ====
section
/-! DEFINITION. The commands: one constructor of Instr per row of spec/opcode_table.json, and the raw fields of a
command word (30_encoding.md R60). -/

namespace Sys2Proof

/-- A decoded command. Every operand type holds exactly the values its field of 30_encoding.md R60 can hold, so every
term of this type is a command of the opcode map R65. -/
inductive Instr where
  | nop
  | fmtU (rd : RegIx) (imm : Word32)
  | fmtS (rd : RegIx) (imm : Word32)
  | ldiU (rd : RegIx) (imm : Word32)
  | ldiS (rd : RegIx) (imm : Word32)
  | mov (rd ra : RegIx)
  | castU (rd ra : RegIx)
  | castS (rd ra : RegIx)
  | cvt (rd ra : RegIx)
  | importU (rd : RegIx) (imm : Word32)
  | importS (rd : RegIx) (imm : Word32)
  | exportV (ra : RegIx)
  | add (rd ra rb : RegIx)
  | sub (rd ra rb : RegIx)
  | mul (rd ra rb : RegIx)
  | div (rd ra rb : RegIx)
  | mod (rd ra rb : RegIx)
  | neg (rd ra : RegIx)
  | addi (rd ra : RegIx) (imm : Word32)
  | subi (rd ra : RegIx) (imm : Word32)
  | muli (rd ra : RegIx) (imm : Word32)
  | divi (rd ra : RegIx) (imm : Word32)
  | modi (rd ra : RegIx) (imm : Word32)
  | and (rd ra rb : RegIx)
  | or (rd ra rb : RegIx)
  | xor (rd ra rb : RegIx)
  | not (rd ra : RegIx)
  | shl (rd ra rb : RegIx)
  | shlImm (rd ra : RegIx) (imm : Word32)
  | shr (rd ra rb : RegIx)
  | shrImm (rd ra : RegIx) (imm : Word32)
  | cmpEq (rd ra rb : RegIx)
  | cmpNe (rd ra rb : RegIx)
  | cmpLt (rd ra rb : RegIx)
  | cmpLe (rd ra rb : RegIx)
  | cmpGt (rd ra rb : RegIx)
  | cmpGe (rd ra rb : RegIx)
  | cmpmEq (rd ra rb : RegIx)
  | cmpmNe (rd ra rb : RegIx)
  | cmpmLt (rd ra rb : RegIx)
  | cmpmLe (rd ra rb : RegIx)
  | cmpmGt (rd ra rb : RegIx)
  | cmpmGe (rd ra rb : RegIx)
  | tst (rd ra rb : RegIx)
  | tstImm (rd ra : RegIx) (imm : Word32)
  | bset (rd ra rb : RegIx)
  | bsetImm (rd ra : RegIx) (imm : Word32)
  | bclr (rd ra rb : RegIx)
  | bclrImm (rd ra : RegIx) (imm : Word32)
  | rev (rd ra : RegIx)
  | range (rd ra : RegIx) (l r : BitVec 16)
  | sigd (rd ra : RegIx)
  | clz (rd ra : RegIx)
  deriving DecidableEq, Repr

/-- The fields of a command word, most significant first (30_encoding.md R60). A field that is not given is 0. -/
structure CmdFields where
  op  : BitVec 8 := 0
  rd  : RegIx := 0
  ra  : RegIx := 0
  rb  : RegIx := 0
  i   : BitVec 1 := 0
  v   : BitVec 1 := 0
  x   : BitVec 1 := 0
  m   : BitVec 1 := 0
  res : BitVec 5 := 0
  cc  : BitVec 3 := 0
  imm : Word32 := 0
  deriving DecidableEq, Repr

end Sys2Proof
end

