-- ==== Sys2Proof/WellFormed.lean ====
section
/-! DEFINITION. Which command words are legal, written from 30_encoding.md R64 to R67 without the decoder: an assigned
opcode, zero in every field its row does not use, RES zero, a condition code of at most 5. -/

namespace Sys2Proof

/-- The fields a row of 30_encoding.md R65 lists as used or as fixed by the mnemonic; all others must be 0 (R64). -/
structure FieldUse where
  rd  : Bool := false
  ra  : Bool := false
  rb  : Bool := false
  i   : Bool := false
  v   : Bool := false
  x   : Bool := false
  m   : Bool := false
  cc  : Bool := false
  imm : Bool := false
  deriving DecidableEq, Repr

def FieldUse.threeRegs : FieldUse := { rd := true, ra := true, rb := true }
def FieldUse.twoRegs : FieldUse := { rd := true, ra := true }
def FieldUse.regImm : FieldUse := { rd := true, ra := true, imm := true }

/-- The commands whose second operand is V[RB] (I = 0) or IMM (I = 1). -/
def FieldUse.regOrImm (i : BitVec 1) : FieldUse :=
  if i = 1 then { rd := true, ra := true, i := true, imm := true } else FieldUse.threeRegs

/-- The opcode map of 30_encoding.md R65, by opcode; none where R66 says the opcode is unassigned. -/
def CmdFields.uses (f : CmdFields) : Option FieldUse :=
  match f.op.toNat with
  | 0x00 => some {}
  | 0x01 => some { rd := true, v := true, imm := true }
  | 0x02 => some { rd := true, x := true, imm := true }
  | 0x03 => some FieldUse.twoRegs
  | 0x04 => some { rd := true, ra := true, v := true }
  | 0x05 => some FieldUse.twoRegs
  | 0x06 => some { rd := true, v := true, imm := true }
  | 0x07 => some { ra := true }
  | 0x10 => some FieldUse.threeRegs
  | 0x11 => some FieldUse.threeRegs
  | 0x12 => some FieldUse.threeRegs
  | 0x13 => some FieldUse.threeRegs
  | 0x14 => some FieldUse.threeRegs
  | 0x15 => some FieldUse.twoRegs
  | 0x18 => some FieldUse.regImm
  | 0x19 => some FieldUse.regImm
  | 0x1A => some FieldUse.regImm
  | 0x1B => some FieldUse.regImm
  | 0x1C => some FieldUse.regImm
  | 0x20 => some FieldUse.threeRegs
  | 0x21 => some FieldUse.threeRegs
  | 0x22 => some FieldUse.threeRegs
  | 0x23 => some FieldUse.twoRegs
  | 0x28 => some (FieldUse.regOrImm f.i)
  | 0x29 => some (FieldUse.regOrImm f.i)
  | 0x30 => some { rd := true, ra := true, rb := true, m := true, cc := true }
  | 0x38 => some (FieldUse.regOrImm f.i)
  | 0x39 => some (FieldUse.regOrImm f.i)
  | 0x3A => some (FieldUse.regOrImm f.i)
  | 0x3B => some FieldUse.twoRegs
  | 0x3C => some FieldUse.regImm
  | 0x40 => some FieldUse.twoRegs
  | 0x41 => some FieldUse.twoRegs
  | _ => none

/-- R64: every field outside `u` is 0, and RES is 0. -/
def CmdFields.unusedZero (f : CmdFields) (u : FieldUse) : Bool :=
  (u.rd || f.rd == 0) && (u.ra || f.ra == 0) && (u.rb || f.rb == 0) && (u.i || f.i == 0) &&
  (u.v || f.v == 0) && (u.x || f.x == 0) && (u.m || f.m == 0) && f.res == 0 &&
  (u.cc || f.cc == 0) && (u.imm || f.imm == 0)

/-- R67: a condition code is one of the six relations. -/
def CmdFields.ccLegal (f : CmdFields) : Bool := decide (f.cc.toNat ≤ 5)

/-- A command word that is not E_ILLEGAL (60_exceptions.md R142). -/
def CmdFields.wellFormed (f : CmdFields) : Bool :=
  match f.uses with
  | none => false
  | some u => f.unusedZero u && f.ccLegal

end Sys2Proof
end

