-- ==== Sys2Proof/Decode.lean ====
section
/-! DEFINITION. The decoder (30_encoding.md R60 to R69, R72), the encoder, and the opcode table as masks and patterns. -/

namespace Sys2Proof

/-- The fields of a command word (30_encoding.md R60). -/
def CmdFields.ofBits (c : Command) : CmdFields :=
  { op  := c.extractLsb' 56 8
    rd  := c.extractLsb' 52 4
    ra  := c.extractLsb' 48 4
    rb  := c.extractLsb' 44 4
    i   := c.extractLsb' 43 1
    v   := c.extractLsb' 42 1
    x   := c.extractLsb' 41 1
    m   := c.extractLsb' 40 1
    res := c.extractLsb' 35 5
    cc  := c.extractLsb' 32 3
    imm := c.extractLsb' 0 32 }

/-- The word of given fields, OP most significant (30_encoding.md R60). -/
def CmdFields.toBits (f : CmdFields) : Command :=
  f.op ++ f.rd ++ f.ra ++ f.rb ++ f.i ++ f.v ++ f.x ++ f.m ++ f.res ++ f.cc ++ f.imm

/-- One row of the opcode map (R65): the word must be exactly `row`, the fixed bits and used fields of the row with
0 in every other field (R64). -/
def CmdFields.exactly (f row : CmdFields) (i : Instr) : Option Instr :=
  if f = row then some i else none

/-- Rows of one shape in R65: RD, RA, RB used. -/
def CmdFields.threeRegs (f : CmdFields) : CmdFields := { op := f.op, rd := f.rd, ra := f.ra, rb := f.rb }

/-- RD, RA used. -/
def CmdFields.twoRegs (f : CmdFields) : CmdFields := { op := f.op, rd := f.rd, ra := f.ra }

/-- RD, RA, IMM used. -/
def CmdFields.regImm (f : CmdFields) : CmdFields := { op := f.op, rd := f.rd, ra := f.ra, imm := f.imm }

/-- RD, IMM used. -/
def CmdFields.destImm (f : CmdFields) : CmdFields := { op := f.op, rd := f.rd, imm := f.imm }

/-- A command whose second operand is V[RB] when I = 0 and IMM when I = 1 (SHL, SHR, TST, BSET, BCLR). -/
def CmdFields.regOrImm (f : CmdFields) (reg imm : Instr) : Option Instr :=
  if f.i = 1 then f.exactly { f.regImm with i := 1 } imm else f.exactly f.threeRegs reg

/-- CMP and CMPM (R65, R67): M and CC select the mnemonic; CC = 6 and 7 are illegal. -/
def CmdFields.compare (f : CmdFields) : Option Instr :=
  match f.m.toNat, f.cc.toNat with
  | 0, 0 => f.exactly f.threeRegs (.cmpEq f.rd f.ra f.rb)
  | 0, 1 => f.exactly { f.threeRegs with cc := 1 } (.cmpNe f.rd f.ra f.rb)
  | 0, 2 => f.exactly { f.threeRegs with cc := 2 } (.cmpLt f.rd f.ra f.rb)
  | 0, 3 => f.exactly { f.threeRegs with cc := 3 } (.cmpLe f.rd f.ra f.rb)
  | 0, 4 => f.exactly { f.threeRegs with cc := 4 } (.cmpGt f.rd f.ra f.rb)
  | 0, 5 => f.exactly { f.threeRegs with cc := 5 } (.cmpGe f.rd f.ra f.rb)
  | 1, 0 => f.exactly { f.threeRegs with m := 1 } (.cmpmEq f.rd f.ra f.rb)
  | 1, 1 => f.exactly { f.threeRegs with m := 1, cc := 1 } (.cmpmNe f.rd f.ra f.rb)
  | 1, 2 => f.exactly { f.threeRegs with m := 1, cc := 2 } (.cmpmLt f.rd f.ra f.rb)
  | 1, 3 => f.exactly { f.threeRegs with m := 1, cc := 3 } (.cmpmLe f.rd f.ra f.rb)
  | 1, 4 => f.exactly { f.threeRegs with m := 1, cc := 4 } (.cmpmGt f.rd f.ra f.rb)
  | 1, 5 => f.exactly { f.threeRegs with m := 1, cc := 5 } (.cmpmGe f.rd f.ra f.rb)
  | _, _ => none

/-- The opcode map of 30_encoding.md R65, by OP; an unassigned OP is illegal (R66). -/
def decodeFields (f : CmdFields) : Option Instr :=
  match f.op.toNat with
  | 0x00 => f.exactly {} .nop
  | 0x01 => if f.v = 1 then f.exactly { f.destImm with v := 1 } (.fmtS f.rd f.imm)
            else f.exactly f.destImm (.fmtU f.rd f.imm)
  | 0x02 => if f.x = 1 then f.exactly { f.destImm with x := 1 } (.ldiS f.rd f.imm)
            else f.exactly f.destImm (.ldiU f.rd f.imm)
  | 0x03 => f.exactly f.twoRegs (.mov f.rd f.ra)
  | 0x04 => if f.v = 1 then f.exactly { f.twoRegs with v := 1 } (.castS f.rd f.ra)
            else f.exactly f.twoRegs (.castU f.rd f.ra)
  | 0x05 => f.exactly f.twoRegs (.cvt f.rd f.ra)
  | 0x06 => if f.v = 1 then f.exactly { f.destImm with v := 1 } (.importS f.rd f.imm)
            else f.exactly f.destImm (.importU f.rd f.imm)
  | 0x07 => f.exactly { op := f.op, ra := f.ra } (.exportV f.ra)
  | 0x10 => f.exactly f.threeRegs (.add f.rd f.ra f.rb)
  | 0x11 => f.exactly f.threeRegs (.sub f.rd f.ra f.rb)
  | 0x12 => f.exactly f.threeRegs (.mul f.rd f.ra f.rb)
  | 0x13 => f.exactly f.threeRegs (.div f.rd f.ra f.rb)
  | 0x14 => f.exactly f.threeRegs (.mod f.rd f.ra f.rb)
  | 0x15 => f.exactly f.twoRegs (.neg f.rd f.ra)
  | 0x18 => f.exactly f.regImm (.addi f.rd f.ra f.imm)
  | 0x19 => f.exactly f.regImm (.subi f.rd f.ra f.imm)
  | 0x1A => f.exactly f.regImm (.muli f.rd f.ra f.imm)
  | 0x1B => f.exactly f.regImm (.divi f.rd f.ra f.imm)
  | 0x1C => f.exactly f.regImm (.modi f.rd f.ra f.imm)
  | 0x20 => f.exactly f.threeRegs (.and f.rd f.ra f.rb)
  | 0x21 => f.exactly f.threeRegs (.or f.rd f.ra f.rb)
  | 0x22 => f.exactly f.threeRegs (.xor f.rd f.ra f.rb)
  | 0x23 => f.exactly f.twoRegs (.not f.rd f.ra)
  | 0x28 => f.regOrImm (.shl f.rd f.ra f.rb) (.shlImm f.rd f.ra f.imm)
  | 0x29 => f.regOrImm (.shr f.rd f.ra f.rb) (.shrImm f.rd f.ra f.imm)
  | 0x30 => f.compare
  | 0x38 => f.regOrImm (.tst f.rd f.ra f.rb) (.tstImm f.rd f.ra f.imm)
  | 0x39 => f.regOrImm (.bset f.rd f.ra f.rb) (.bsetImm f.rd f.ra f.imm)
  | 0x3A => f.regOrImm (.bclr f.rd f.ra f.rb) (.bclrImm f.rd f.ra f.imm)
  | 0x3B => f.exactly f.twoRegs (.rev f.rd f.ra)
  | 0x3C => f.exactly f.regImm (.range f.rd f.ra (f.imm.extractLsb' 16 16) (f.imm.extractLsb' 0 16))
  | 0x40 => f.exactly f.twoRegs (.sigd f.rd f.ra)
  | 0x41 => f.exactly f.twoRegs (.clz f.rd f.ra)
  | _ => none

/-- The decoder: total on all 2^64 words; none is E_ILLEGAL (60_exceptions.md R142). -/
def decode (c : Command) : Option Instr := decodeFields (CmdFields.ofBits c)

/-- The fields of a command (30_encoding.md R65 and R70). -/
def Instr.fields : Instr → CmdFields
  | .nop => {}
  | .fmtU rd imm => { op := 0x01, rd := rd, imm := imm }
  | .fmtS rd imm => { op := 0x01, rd := rd, v := 1, imm := imm }
  | .ldiU rd imm => { op := 0x02, rd := rd, imm := imm }
  | .ldiS rd imm => { op := 0x02, rd := rd, x := 1, imm := imm }
  | .mov rd ra => { op := 0x03, rd := rd, ra := ra }
  | .castU rd ra => { op := 0x04, rd := rd, ra := ra }
  | .castS rd ra => { op := 0x04, rd := rd, ra := ra, v := 1 }
  | .cvt rd ra => { op := 0x05, rd := rd, ra := ra }
  | .importU rd imm => { op := 0x06, rd := rd, imm := imm }
  | .importS rd imm => { op := 0x06, rd := rd, v := 1, imm := imm }
  | .exportV ra => { op := 0x07, ra := ra }
  | .add rd ra rb => { op := 0x10, rd := rd, ra := ra, rb := rb }
  | .sub rd ra rb => { op := 0x11, rd := rd, ra := ra, rb := rb }
  | .mul rd ra rb => { op := 0x12, rd := rd, ra := ra, rb := rb }
  | .div rd ra rb => { op := 0x13, rd := rd, ra := ra, rb := rb }
  | .mod rd ra rb => { op := 0x14, rd := rd, ra := ra, rb := rb }
  | .neg rd ra => { op := 0x15, rd := rd, ra := ra }
  | .addi rd ra imm => { op := 0x18, rd := rd, ra := ra, imm := imm }
  | .subi rd ra imm => { op := 0x19, rd := rd, ra := ra, imm := imm }
  | .muli rd ra imm => { op := 0x1A, rd := rd, ra := ra, imm := imm }
  | .divi rd ra imm => { op := 0x1B, rd := rd, ra := ra, imm := imm }
  | .modi rd ra imm => { op := 0x1C, rd := rd, ra := ra, imm := imm }
  | .and rd ra rb => { op := 0x20, rd := rd, ra := ra, rb := rb }
  | .or rd ra rb => { op := 0x21, rd := rd, ra := ra, rb := rb }
  | .xor rd ra rb => { op := 0x22, rd := rd, ra := ra, rb := rb }
  | .not rd ra => { op := 0x23, rd := rd, ra := ra }
  | .shl rd ra rb => { op := 0x28, rd := rd, ra := ra, rb := rb }
  | .shlImm rd ra imm => { op := 0x28, rd := rd, ra := ra, i := 1, imm := imm }
  | .shr rd ra rb => { op := 0x29, rd := rd, ra := ra, rb := rb }
  | .shrImm rd ra imm => { op := 0x29, rd := rd, ra := ra, i := 1, imm := imm }
  | .cmpEq rd ra rb => { op := 0x30, rd := rd, ra := ra, rb := rb }
  | .cmpNe rd ra rb => { op := 0x30, rd := rd, ra := ra, rb := rb, cc := 1 }
  | .cmpLt rd ra rb => { op := 0x30, rd := rd, ra := ra, rb := rb, cc := 2 }
  | .cmpLe rd ra rb => { op := 0x30, rd := rd, ra := ra, rb := rb, cc := 3 }
  | .cmpGt rd ra rb => { op := 0x30, rd := rd, ra := ra, rb := rb, cc := 4 }
  | .cmpGe rd ra rb => { op := 0x30, rd := rd, ra := ra, rb := rb, cc := 5 }
  | .cmpmEq rd ra rb => { op := 0x30, rd := rd, ra := ra, rb := rb, m := 1 }
  | .cmpmNe rd ra rb => { op := 0x30, rd := rd, ra := ra, rb := rb, m := 1, cc := 1 }
  | .cmpmLt rd ra rb => { op := 0x30, rd := rd, ra := ra, rb := rb, m := 1, cc := 2 }
  | .cmpmLe rd ra rb => { op := 0x30, rd := rd, ra := ra, rb := rb, m := 1, cc := 3 }
  | .cmpmGt rd ra rb => { op := 0x30, rd := rd, ra := ra, rb := rb, m := 1, cc := 4 }
  | .cmpmGe rd ra rb => { op := 0x30, rd := rd, ra := ra, rb := rb, m := 1, cc := 5 }
  | .tst rd ra rb => { op := 0x38, rd := rd, ra := ra, rb := rb }
  | .tstImm rd ra imm => { op := 0x38, rd := rd, ra := ra, i := 1, imm := imm }
  | .bset rd ra rb => { op := 0x39, rd := rd, ra := ra, rb := rb }
  | .bsetImm rd ra imm => { op := 0x39, rd := rd, ra := ra, i := 1, imm := imm }
  | .bclr rd ra rb => { op := 0x3A, rd := rd, ra := ra, rb := rb }
  | .bclrImm rd ra imm => { op := 0x3A, rd := rd, ra := ra, i := 1, imm := imm }
  | .rev rd ra => { op := 0x3B, rd := rd, ra := ra }
  | .range rd ra l r => { op := 0x3C, rd := rd, ra := ra, imm := l ++ r }
  | .sigd rd ra => { op := 0x40, rd := rd, ra := ra }
  | .clz rd ra => { op := 0x41, rd := rd, ra := ra }

/-- The encoder: the command word of an instruction (30_encoding.md R60, R70). -/
def encode (i : Instr) : Command := i.fields.toBits

/-- A row of spec/opcode_table.json: a word is the row's command when `word &&& mask = value` (30_encoding.md R72). -/
structure OpcodeRow where
  mnemonic : String
  mask : Command
  value : Command
  deriving DecidableEq, Repr

def opcodeRowsSetup : List OpcodeRow := [
  ⟨"NOP", 0xffffffffffffffff, 0x0000000000000000⟩,
  ⟨"FMT.U", 0xff0fffff00000000, 0x0100000000000000⟩,
  ⟨"FMT.S", 0xff0fffff00000000, 0x0100040000000000⟩,
  ⟨"LDI.U", 0xff0fffff00000000, 0x0200000000000000⟩,
  ⟨"LDI.S", 0xff0fffff00000000, 0x0200020000000000⟩,
  ⟨"MOV", 0xff00ffffffffffff, 0x0300000000000000⟩,
  ⟨"CAST.U", 0xff00ffffffffffff, 0x0400000000000000⟩,
  ⟨"CAST.S", 0xff00ffffffffffff, 0x0400040000000000⟩,
  ⟨"CVT", 0xff00ffffffffffff, 0x0500000000000000⟩,
  ⟨"IMPORT.U", 0xff0fffff00000000, 0x0600000000000000⟩,
  ⟨"IMPORT.S", 0xff0fffff00000000, 0x0600040000000000⟩,
  ⟨"EXPORT", 0xfff0ffffffffffff, 0x0700000000000000⟩]

def opcodeRowsArith : List OpcodeRow := [
  ⟨"ADD", 0xff000fffffffffff, 0x1000000000000000⟩,
  ⟨"SUB", 0xff000fffffffffff, 0x1100000000000000⟩,
  ⟨"MUL", 0xff000fffffffffff, 0x1200000000000000⟩,
  ⟨"DIV", 0xff000fffffffffff, 0x1300000000000000⟩,
  ⟨"MOD", 0xff000fffffffffff, 0x1400000000000000⟩,
  ⟨"NEG", 0xff00ffffffffffff, 0x1500000000000000⟩,
  ⟨"ADDI", 0xff00ffff00000000, 0x1800000000000000⟩,
  ⟨"SUBI", 0xff00ffff00000000, 0x1900000000000000⟩,
  ⟨"MULI", 0xff00ffff00000000, 0x1a00000000000000⟩,
  ⟨"DIVI", 0xff00ffff00000000, 0x1b00000000000000⟩,
  ⟨"MODI", 0xff00ffff00000000, 0x1c00000000000000⟩]

def opcodeRowsBitwise : List OpcodeRow := [
  ⟨"AND", 0xff000fffffffffff, 0x2000000000000000⟩,
  ⟨"OR", 0xff000fffffffffff, 0x2100000000000000⟩,
  ⟨"XOR", 0xff000fffffffffff, 0x2200000000000000⟩,
  ⟨"NOT", 0xff00ffffffffffff, 0x2300000000000000⟩,
  ⟨"SHL", 0xff000fffffffffff, 0x2800000000000000⟩,
  ⟨"SHL__immediate", 0xff00ffff00000000, 0x2800080000000000⟩,
  ⟨"SHR", 0xff000fffffffffff, 0x2900000000000000⟩,
  ⟨"SHR__immediate", 0xff00ffff00000000, 0x2900080000000000⟩]

def opcodeRowsCompare : List OpcodeRow := [
  ⟨"CMP.EQ", 0xff000fffffffffff, 0x3000000000000000⟩,
  ⟨"CMP.NE", 0xff000fffffffffff, 0x3000000100000000⟩,
  ⟨"CMP.LT", 0xff000fffffffffff, 0x3000000200000000⟩,
  ⟨"CMP.LE", 0xff000fffffffffff, 0x3000000300000000⟩,
  ⟨"CMP.GT", 0xff000fffffffffff, 0x3000000400000000⟩,
  ⟨"CMP.GE", 0xff000fffffffffff, 0x3000000500000000⟩,
  ⟨"CMPM.EQ", 0xff000fffffffffff, 0x3000010000000000⟩,
  ⟨"CMPM.NE", 0xff000fffffffffff, 0x3000010100000000⟩,
  ⟨"CMPM.LT", 0xff000fffffffffff, 0x3000010200000000⟩,
  ⟨"CMPM.LE", 0xff000fffffffffff, 0x3000010300000000⟩,
  ⟨"CMPM.GT", 0xff000fffffffffff, 0x3000010400000000⟩,
  ⟨"CMPM.GE", 0xff000fffffffffff, 0x3000010500000000⟩]

def opcodeRowsBits : List OpcodeRow := [
  ⟨"TST", 0xff000fffffffffff, 0x3800000000000000⟩,
  ⟨"TST__immediate", 0xff00ffff00000000, 0x3800080000000000⟩,
  ⟨"BSET", 0xff000fffffffffff, 0x3900000000000000⟩,
  ⟨"BSET__immediate", 0xff00ffff00000000, 0x3900080000000000⟩,
  ⟨"BCLR", 0xff000fffffffffff, 0x3a00000000000000⟩,
  ⟨"BCLR__immediate", 0xff00ffff00000000, 0x3a00080000000000⟩,
  ⟨"REV", 0xff00ffffffffffff, 0x3b00000000000000⟩,
  ⟨"RANGE", 0xff00ffff00000000, 0x3c00000000000000⟩,
  ⟨"SIGD", 0xff00ffffffffffff, 0x4000000000000000⟩,
  ⟨"CLZ", 0xff00ffffffffffff, 0x4100000000000000⟩]

/-- spec/opcode_table.json, row by row (its "match" is `value` here). The decoder does not use it: that the two agree
is a statement. -/
def opcodeTable : List OpcodeRow :=
  opcodeRowsSetup ++ opcodeRowsArith ++ opcodeRowsBitwise ++ opcodeRowsCompare ++ opcodeRowsBits

/-- Does the word match the row (30_encoding.md R72)? -/
def OpcodeRow.holds (r : OpcodeRow) (c : Command) : Bool := c &&& r.mask == r.value

/-- The row's mnemonic in spec/opcode_table.json, letter for letter. -/
def Instr.mnemonic : Instr → String
  | .nop => "NOP"
  | .fmtU _ _ => "FMT.U"
  | .fmtS _ _ => "FMT.S"
  | .ldiU _ _ => "LDI.U"
  | .ldiS _ _ => "LDI.S"
  | .mov _ _ => "MOV"
  | .castU _ _ => "CAST.U"
  | .castS _ _ => "CAST.S"
  | .cvt _ _ => "CVT"
  | .importU _ _ => "IMPORT.U"
  | .importS _ _ => "IMPORT.S"
  | .exportV _ => "EXPORT"
  | .add _ _ _ => "ADD"
  | .sub _ _ _ => "SUB"
  | .mul _ _ _ => "MUL"
  | .div _ _ _ => "DIV"
  | .mod _ _ _ => "MOD"
  | .neg _ _ => "NEG"
  | .addi _ _ _ => "ADDI"
  | .subi _ _ _ => "SUBI"
  | .muli _ _ _ => "MULI"
  | .divi _ _ _ => "DIVI"
  | .modi _ _ _ => "MODI"
  | .and _ _ _ => "AND"
  | .or _ _ _ => "OR"
  | .xor _ _ _ => "XOR"
  | .not _ _ => "NOT"
  | .shl _ _ _ => "SHL"
  | .shlImm _ _ _ => "SHL__immediate"
  | .shr _ _ _ => "SHR"
  | .shrImm _ _ _ => "SHR__immediate"
  | .cmpEq _ _ _ => "CMP.EQ"
  | .cmpNe _ _ _ => "CMP.NE"
  | .cmpLt _ _ _ => "CMP.LT"
  | .cmpLe _ _ _ => "CMP.LE"
  | .cmpGt _ _ _ => "CMP.GT"
  | .cmpGe _ _ _ => "CMP.GE"
  | .cmpmEq _ _ _ => "CMPM.EQ"
  | .cmpmNe _ _ _ => "CMPM.NE"
  | .cmpmLt _ _ _ => "CMPM.LT"
  | .cmpmLe _ _ _ => "CMPM.LE"
  | .cmpmGt _ _ _ => "CMPM.GT"
  | .cmpmGe _ _ _ => "CMPM.GE"
  | .tst _ _ _ => "TST"
  | .tstImm _ _ _ => "TST__immediate"
  | .bset _ _ _ => "BSET"
  | .bsetImm _ _ _ => "BSET__immediate"
  | .bclr _ _ _ => "BCLR"
  | .bclrImm _ _ _ => "BCLR__immediate"
  | .rev _ _ => "REV"
  | .range _ _ _ _ => "RANGE"
  | .sigd _ _ => "SIGD"
  | .clz _ _ => "CLZ"

/-- The instruction the decoder reads from a word whose bits are numbered as spec/opcode_table.json numbers them: a
command is ONE 64-bit word, bit 0 least significant; bits at and above `nbits` are 0 (log 14). -/
def decodeTableWord (nbits w : Nat) : Option Instr := decode (BitVec.ofNat 64 (w % 2 ^ nbits))

end Sys2Proof
end

