-- ==== Sys2Proof/Config.lean ====
section
/-! DEFINITION. What an implementation fixes (00_scope.md R5) and the free values the spec leaves open. -/

namespace Sys2Proof

/-- The parameters of one LAB4-CORE (00_scope.md R5, 92_eei_decisions.md D2 and D18).
State carries a record of them, so that every statement holds for every legal choice (log 1). -/
structure Params where
  /-- WMAX, the largest declared width a register may hold. -/
  wmax : Nat
  /-- BPD, the bits of one magnitude digit, observed only by SIGD (00_scope.md R5; log 19). -/
  bpd  : Nat
  /-- BASE, the bus address of host offset 0. -/
  base : Word32
  deriving DecidableEq, Repr

/-- The defaults of 00_scope.md R5. BASE is OPEN in the spec: DESIGN CHOICE 0 (log 2). -/
def Params.default : Params := { wmax := 4096, bpd := 32, base := 0 }

/-- The constraints of 00_scope.md R5. -/
abbrev Params.valid (p : Params) : Prop :=
  32 ≤ p.wmax ∧ p.wmax ≤ 65535 ∧ 8 ≤ p.bpd ∧ p.bpd ≤ 64

/-- NPW = ceil(WMAX / 32), the number of packed-buffer words (00_scope.md R5). -/
def Params.npw (p : Params) : Nat := (p.wmax + 31) / 32

/-- FREE VALUE (U9, 70_reset_and_hazards.md R170; log 7). `Config.pbufDraw n k` is what PBUF word `k` holds after
the hardware reset numbered `n`, until it is written. It has no body, so nothing can be proved about its value. -/
opaque Config.pbufDraw (draw word : Nat) : Word32

end Sys2Proof
end

