-- ==== Sys2Proof/Machine/State.lean ====
section
/-! DEFINITION. The state of LAB4-CORE as plain data, its fault and refusal types, and the state after reset. -/

namespace Sys2Proof.Machine

/-- The variant of a format (00_scope.md R8): U is `unsigned`, S is `signed`. -/
inductive Variant where
  | unsigned
  | signed
  deriving DecidableEq, Repr

/-- The sign field of a value register (10_state.md R22). -/
inductive Sign where
  | zero
  | pos
  | neg
  | uninit
  deriving DecidableEq, Repr

/-- A format: a variant and a declared width (00_scope.md R8). -/
structure Format where
  variant : Variant
  width   : Nat
  deriving DecidableEq, Repr

/-- A value register (10_state.md R22). `mag` is the number its magnitude digits spell, least significant digit first
(DESIGN CHOICE, log 9: the digits themselves are `Reg.digits`). -/
structure Reg where
  variant : Variant
  sign    : Sign
  width   : Nat
  mag     : Nat
  deriving DecidableEq, Repr

/-- An UNINIT register (10_state.md R26). Its variant, width and magnitude are unspecified and no command reads them;
the values written here are a DESIGN CHOICE (log 6). -/
def Reg.uninit : Reg := { variant := .unsigned, sign := .uninit, width := 0, mag := 0 }

/-- The two run states (10_state.md R28). -/
inductive RunState where
  | ready
  | fault
  deriving DecidableEq, Repr

/-- The fault causes (60_exceptions.md R141). -/
inductive Cause where
  | noFault
  | illegal
  | uninit
  | badWidth
  | capacity
  | div0
  deriving DecidableEq, Repr

/-- One input from outside the core: a host transfer at a bus address (20_memory.md R46), or a new level of the reset
input `rst` (70_reset_and_hazards.md R170; log 10). -/
inductive HostEvent where
  | read (addr : Word32)
  | write (addr data : Word32)
  | rst (level : Bool)
  deriving DecidableEq, Repr

/-- The packed buffer's written words, as (word index, word) pairs with strictly rising indices (20_memory.md R48;
log 8). A word that is not listed has not been written since the last hardware reset. -/
abbrev Memory := List (Nat × Word32)

/-- The canonical form: indices strictly rising. An unlisted word has no value of its own (it reads as the free value
of log 7), so no entry can equal what an unlisted word reads as. -/
abbrev Memory.wf (m : Memory) : Prop := m.Pairwise (fun a b => a.1 < b.1)

/-- The whole state. INVENTORY.md names the rule of each field. -/
structure State where
  /-- WMAX, BPD, BASE (00_scope.md R5; log 1). No step changes them. -/
  params  : Params
  /-- V[0] to V[15] (10_state.md R21). -/
  regs    : Vector Reg 16
  /-- READY or FAULT (10_state.md R28): STATUS.FAULT and `err_o`. -/
  run     : RunState
  /-- STATUS.EQ (10_state.md R29). -/
  eq      : Bool
  /-- STATUS.LT (10_state.md R29). -/
  lt      : Bool
  /-- CAUSE (10_state.md R36). -/
  cause   : Cause
  /-- INFO (10_state.md R37). -/
  info    : Word32
  /-- FCMD_LO (10_state.md R38). -/
  fcmdLo  : Word32
  /-- FCMD_HI (10_state.md R38). -/
  fcmdHi  : Word32
  /-- PBDESC (10_state.md R39). -/
  pbdesc  : Word32
  /-- CMD_LO (10_state.md R40). -/
  cmdLo   : Word32
  /-- CMD_HI (10_state.md R40). -/
  cmdHi   : Word32
  /-- CMDCNT (10_state.md R30). -/
  cmdcnt  : Word32
  /-- The written words of PBUF (20_memory.md R48). -/
  pbuf    : Memory
  /-- The level of the input `rst` (70_reset_and_hazards.md R170). -/
  rst     : Bool
  /-- The data the port drove for the last host read (20_memory.md R46; the model's own field, log 5). -/
  rdata   : Word32
  /-- How many hardware resets have been taken: the argument of the free value `Config.pbufDraw` (the model's own
  field, log 7). -/
  draws   : Nat
  /-- The host's pending inputs, oldest first (10_state.md R20; the model's own field, log 3). -/
  events  : List HostEvent
  deriving DecidableEq, Repr

/-- Reasons for the machine to stop with a fault. There is none: every fault of the spec (60_exceptions.md R140) is
taken as a next state in the run state FAULT, and the core still answers host accesses there (R150; log 11). -/
inductive Fault where
  deriving DecidableEq, Repr

/-- Reasons to refuse an instruction. -/
inductive Refusal where
  /-- Raised by an arm of exec whose instruction has no meaning yet (safe); no arm of this model raises it. -/
  | notModelled (mnemonic : String)
  deriving DecidableEq, Repr

/-- What an instruction or a step answers. -/
abbrev Result := Host.Outcome State Fault Refusal

/-- The machine right after a hardware reset (70_reset_and_hazards.md R170), with the default parameters of 00_scope.md
R5 and nothing pending from the host. The fields R170 does not give are logs 2, 3, 5, 6 and 7. -/
def State.reset : State :=
  { params := Params.default
    regs   := Vector.replicate 16 Reg.uninit
    run    := .ready
    eq     := false
    lt     := false
    cause  := .noFault
    info   := 0
    fcmdLo := 0
    fcmdHi := 0
    pbdesc := 0
    cmdLo  := 0
    cmdHi  := 0
    cmdcnt := 0
    pbuf   := []
    rst    := false
    rdata  := 0
    draws  := 0
    events := [] }

end Sys2Proof.Machine
end

