-- ==== Sys2Proof/Machine/Operands.lean ====
section
/-! DEFINITION. Formats, reduction, two's-complement patterns, the exact arithmetic of the rules, result formats and
operand forms (00_scope.md R7 to R15). Everything here is a function of numbers; no state. -/

namespace Sys2Proof.Machine

/-! ### Formats and values (00_scope.md R8 to R12) -/

/-- es(v, w), the effective signed width (R9). -/
def Format.es (f : Format) : Nat :=
  match f.variant with
  | .signed => f.width
  | .unsigned => f.width + 1

/-- The least value of range(v, w) (R8). -/
def Format.lo (f : Format) : Int :=
  match f.variant with
  | .signed => -2 ^ (f.width - 1)
  | .unsigned => 0

/-- The greatest value of range(v, w) (R8). -/
def Format.hi (f : Format) : Int :=
  match f.variant with
  | .signed => 2 ^ (f.width - 1) - 1
  | .unsigned => 2 ^ f.width - 1

/-- z is in range(v, w) (R8). -/
abbrev Format.holds (f : Format) (z : Int) : Prop := f.lo ≤ z ∧ z ≤ f.hi

/-- fit(v, w, z), reduction into a format (R10). -/
def Format.fit (f : Format) (z : Int) : Int :=
  match f.variant with
  | .unsigned => z % 2 ^ f.width
  | .signed => (z + 2 ^ (f.width - 1)) % 2 ^ f.width - 2 ^ (f.width - 1)

/-- pat(z, w) = z mod 2^w, the w-bit two's-complement pattern (R11). -/
def pat (z : Int) (w : Nat) : Nat := (z % 2 ^ w).toNat

/-- bit(z, i) = floor(z / 2^i) mod 2, bit i of the infinite two's-complement extension (R11). -/
def bitOf (z : Int) (i : Nat) : Bool := decide ((z >>> i) % 2 = 1)

/-- unpat(v, w, p), the value of a pattern (R12). -/
def Format.unpat (f : Format) (p : Nat) : Int :=
  match f.variant with
  | .unsigned => p
  | .signed => if p.testBit (f.width - 1) then (p : Int) - 2 ^ f.width else p

/-- The number whose bit j is `b j` for j < n: sum over j in [0, n) of b(j) * 2^j (45_bit_access.md R123, R124). -/
def sumBits (b : Nat → Bool) : Nat → Nat
  | 0 => 0
  | n + 1 => sumBits b n + (b n).toNat * 2 ^ n

/-- bitlen(n), the least k with n < 2^k (R7). -/
def bitlen (n : Nat) : Nat := if n = 0 then 0 else n.log2 + 1

/-! ### Division (00_scope.md R13) -/

/-- tdiv(u, v), the quotient truncated toward zero (R13). -/
def tdiv (u v : Int) : Int := u.sign * v.sign * ((u.natAbs / v.natAbs : Nat) : Int)

/-- tmod(u, v) = u - tdiv(u, v) * v (R13). -/
def tmod (u v : Int) : Int := u - tdiv u v * v

/-! ### Bitwise operations on infinite two's-complement extensions (42_bitwise.md R105)

The integer -1 - n is the complement of n, so each operation is computed on naturals by cases on the signs. That bit i
of the result is the operation on bits i of the operands, for every i, is a statement. -/

/-- x AND NOT y on naturals. -/
def natAndNot (x y : Nat) : Nat := x ^^^ (x &&& y)

/-- AND (42_bitwise.md R106). -/
def intAnd : Int → Int → Int
  | .ofNat x, .ofNat y => .ofNat (x &&& y)
  | .ofNat x, .negSucc y => .ofNat (natAndNot x y)
  | .negSucc x, .ofNat y => .ofNat (natAndNot y x)
  | .negSucc x, .negSucc y => .negSucc (x ||| y)

/-- OR (42_bitwise.md R107). -/
def intOr : Int → Int → Int
  | .ofNat x, .ofNat y => .ofNat (x ||| y)
  | .ofNat x, .negSucc y => .negSucc (natAndNot y x)
  | .negSucc x, .ofNat y => .negSucc (natAndNot x y)
  | .negSucc x, .negSucc y => .negSucc (x &&& y)

/-- XOR (42_bitwise.md R108). -/
def intXor : Int → Int → Int
  | .ofNat x, .ofNat y => .ofNat (x ^^^ y)
  | .ofNat x, .negSucc y => .negSucc (x ^^^ y)
  | .negSucc x, .ofNat y => .negSucc (x ^^^ y)
  | .negSucc x, .negSucc y => .ofNat (x ^^^ y)

/-! ### Registers as values (10_state.md R22, R24) -/

/-- fmt(V[i]) (00_scope.md R14). -/
def Reg.fmt (r : Reg) : Format := { variant := r.variant, width := r.width }

/-- val(V[i]) (10_state.md R22). An UNINIT register has no value; no command asks for one (R143). -/
def Reg.val (r : Reg) : Int :=
  match r.sign with
  | .pos => r.mag
  | .neg => -r.mag
  | .zero => 0
  | .uninit => 0

/-- The sign of a value (10_state.md R24). -/
def signOf (z : Int) : Sign := if 0 < z then .pos else if z < 0 then .neg else .zero

/-- mk(v, w, z): the register record of a format and a value (10_state.md R24). -/
def Reg.make (f : Format) (z : Int) : Reg :=
  { variant := f.variant, sign := signOf z, width := f.width, mag := z.natAbs }

/-- Magnitude digit j of a register, for digits of `bpd` bits (10_state.md R22). -/
def Reg.digit (r : Reg) (bpd j : Nat) : Nat := (r.mag >>> (bpd * j)) % 2 ^ bpd

/-- The digits that belong to the value: the first ceil(w / BPD), least significant first (10_state.md R22). -/
def Reg.digits (r : Reg) (bpd : Nat) : List Nat :=
  (List.range ((r.width + bpd - 1) / bpd)).map (r.digit bpd)

/-! ### Result formats (00_scope.md R15) -/

/-- ADD and SUB. -/
def rfmtAdd (a b : Format) : Format :=
  if a.variant = b.variant then { variant := a.variant, width := max a.width b.width + 1 }
  else { variant := .signed, width := max a.es b.es + 1 }

/-- MUL. -/
def rfmtMul (a b : Format) : Format :=
  if a.variant = b.variant then { variant := a.variant, width := a.width + b.width }
  else { variant := .signed, width := a.es + b.es }

/-- DIV: (U, wa) for two Unsigned operands, else (S, wa + 1). -/
def rfmtDiv (a b : Format) : Format :=
  if a.variant = .unsigned ∧ b.variant = .unsigned then { variant := .unsigned, width := a.width }
  else { variant := .signed, width := a.width + 1 }

/-- MOD. -/
def rfmtMod (a b : Format) : Format :=
  if a.variant = b.variant then { variant := a.variant, width := a.width }
  else { variant := .signed, width := a.es }

/-- AND, OR, XOR. -/
def rfmtBitwise (a b : Format) : Format :=
  if a.variant = b.variant then { variant := a.variant, width := max a.width b.width }
  else { variant := .signed, width := max a.es b.es }

/-- NEG. -/
def rfmtNeg (a : Format) : Format := { variant := a.variant, width := a.width + 1 }

/-- U1, the format of a truth value (92_eei_decisions.md D32). -/
def Format.u1 : Format := { variant := .unsigned, width := 1 }

/-- U32, the format of a count (92_eei_decisions.md D32). -/
def Format.u32 : Format := { variant := .unsigned, width := 32 }

/-! ### Immediates and second operands (30_encoding.md R62, R63) -/

/-- zext32(IMM) as an integer (R62). -/
def zext32 (imm : Word32) : Int := imm.toNat

/-- sext32(IMM) (R62, LDI with X = 1 only). -/
def sext32 (imm : Word32) : Int := imm.toInt

/-- The second operand of SHL, SHR, TST, BSET and BCLR: V[RB] when I = 0, IMM when I = 1 (43_shift.md R110,
45_bit_access.md R119). -/
inductive Operand2 where
  | reg (rb : RegIx)
  | imm (imm : Word32)
  deriving DecidableEq, Repr

end Sys2Proof.Machine
end

