-- ==== Sys2Proof/Machine/Ops.lean ====
section
/-! DEFINITION. The named operations over registers, the packed buffer and the run state, the checks every command
shares, taking a fault, and the resets that leave it. -/

namespace Sys2Proof.Machine

/-! ### Value registers (10_state.md R21, R24) -/

/-- The register record of V[i]. -/
def State.reg (s : State) (i : RegIx) : Reg := s.regs[i.toNat]'i.isLt

/-- Replace the register record of V[i]. -/
def State.setReg (s : State) (i : RegIx) (r : Reg) : State := { s with regs := s.regs.set i.toNat r i.isLt }

/-- V[i] <- mk(v, w, z) (10_state.md R24): all four fields are written. -/
def State.writeReg (s : State) (i : RegIx) (f : Format) (z : Int) : State := s.setReg i (Reg.make f z)

/-! ### The packed buffer (20_memory.md R48 to R51) -/

/-- The word written at an index, if one has been. -/
def Memory.read? : Memory → Nat → Option Word32
  | [], _ => none
  | (a, x) :: rest, k => if a = k then some x else Memory.read? rest k

/-- Write a word, keeping the indices strictly rising. -/
def Memory.write : Memory → Nat → Word32 → Memory
  | [], k, w => [(k, w)]
  | (a, x) :: rest, k, w =>
    if k < a then (k, w) :: (a, x) :: rest
    else if k = a then (k, w) :: rest
    else (a, x) :: Memory.write rest k w

/-- PBUF[k]. A word not written since the last hardware reset is that reset's draw, fixed until it is written
(70_reset_and_hazards.md R170, U9; a free value, log 7). -/
def State.pbufWord (s : State) (k : Nat) : Word32 := (s.pbuf.read? k).getD (Config.pbufDraw s.draws k)

/-- PBUF[k] <- w. -/
def State.setPbufWord (s : State) (k : Nat) (w : Word32) : State := { s with pbuf := s.pbuf.write k w }

/-- ceil(n / 32), the words of an n-bit number. -/
def wordsOf (n : Nat) : Nat := (n + 31) / 32

/-- The number in `count` words from word k, word k least significant (20_memory.md R50). -/
def State.readWords (s : State) (k : Nat) : Nat → Nat
  | 0 => 0
  | count + 1 => s.readWords k count + (s.pbufWord (k + count)).toNat * 2 ^ (32 * count)

/-- MemRead(k, n) (20_memory.md R50). -/
def State.memRead (s : State) (k n : Nat) : Nat := s.readWords k (wordsOf n) % 2 ^ n

/-- PBUF[k + j] <- p[32*j + 31 : 32*j] for j < count (20_memory.md R51). -/
def State.writeWords (s : State) (k p : Nat) : Nat → State
  | 0 => s
  | count + 1 => (s.writeWords k p count).setPbufWord (k + count) (BitVec.ofNat 32 (p >>> (32 * count)))

/-- MemWrite(k, n, p), n a multiple of 32 (20_memory.md R51). -/
def State.memWrite (s : State) (k n p : Nat) : State := s.writeWords k p (n / 32)

/-! ### Faults (60_exceptions.md) -/

/-- The cause codes (R141). -/
def Cause.code : Cause → BitVec 8
  | .noFault => 0
  | .illegal => 1
  | .uninit => 2
  | .badWidth => 3
  | .capacity => 4
  | .div0 => 5

/-- The register field an E_UNINIT names (R141). -/
inductive OperandField where
  | rd
  | ra
  | rb
  deriving DecidableEq, Repr

/-- f of the E_UNINIT INFO word (R141). -/
def OperandField.code : OperandField → BitVec 2
  | .rd => 0
  | .ra => 1
  | .rb => 2

/-- INFO of E_UNINIT: (f << 4) | r (R141). -/
def uninitInfo (f : OperandField) (i : RegIx) : Word32 := (0 : BitVec 26) ++ f.code ++ i

/-- INFO of E_CAPACITY: min(w, 0xFFFFFFFF) (R141, R145). -/
def capacityInfo (w : Nat) : Word32 := BitVec.ofNat 32 (min w 0xFFFFFFFF)

/-- INFO of E_DIV0: bit 0 the dividend is zero, bit 1 the command is a modulo (R141, R146). -/
def div0Info (modulo dividendZero : Bool) : Word32 :=
  (0 : BitVec 30) ++ BitVec.ofBool modulo ++ BitVec.ofBool dividendZero

/-- TAKING A FAULT, raise(c, x) (R147): CAUSE, INFO and FCMD are written and the run state is FAULT; everything else
keeps its value. -/
def State.enterFault (s : State) (c : Cause) (info : Word32) : State :=
  { s with cause := c, info := info, fcmdLo := s.cmdLo, fcmdHi := s.cmdHi, run := .fault }

/-- What a hardware and a soft reset both set (70_reset_and_hazards.md R170, R171): every item of R170's table but PBUF. -/
def State.clear (s : State) : State :=
  { s with
    regs := Vector.replicate 16 Reg.uninit, run := .ready, eq := false, lt := false, cause := .noFault, info := 0,
    fcmdLo := 0, fcmdHi := 0, pbdesc := 0, cmdLo := 0, cmdHi := 0, cmdcnt := 0 }

/-- Soft reset (70_reset_and_hazards.md R171): PBUF keeps its contents. With hardware reset, the only way to leave FAULT
(60_exceptions.md R151). -/
def State.softReset (s : State) : State := s.clear

/-- Hardware reset (70_reset_and_hazards.md R170): every PBUF word becomes a new draw (log 7). -/
def State.hardwareReset (s : State) : State := { s.clear with pbuf := [], draws := s.draws + 1 }

/-! ### Performing a command (30_encoding.md R72) -/

/-- How the rule of a command ends: with its writes done, or raising a fault. The state a fault carries is the state
before the fault, which differs from the state before the command only by the one write of 60_exceptions.md R148. -/
inductive RuleEnd where
  | done (s : State)
  | raise (c : Cause) (info : Word32) (s : State)
  deriving DecidableEq, Repr

/-- CMDCNT <- (CMDCNT + 1) mod 2^32 (10_state.md R30). -/
def State.countCommand (s : State) : State := { s with cmdcnt := s.cmdcnt + 1 }

/-- The end of a command (R72): a command that raised no fault is counted, a fault is taken (60_exceptions.md R147). -/
def RuleEnd.finish : RuleEnd → Result
  | .done s => .next s.countCommand
  | .raise c info s => .next (s.enterFault c info)

/-- Read a value register (00_scope.md R14): E_UNINIT if its sign is UNINIT (60_exceptions.md R143). -/
def withReg (s : State) (field : OperandField) (i : RegIx) (k : Reg → RuleEnd) : RuleEnd :=
  if (s.reg i).sign = .uninit then .raise .uninit (uninitInfo field i) s else k (s.reg i)

/-- Check a result format against WMAX: E_CAPACITY if it is wider (60_exceptions.md R145). -/
def withFormat (s : State) (f : Format) (k : Format → RuleEnd) : RuleEnd :=
  if s.params.wmax < f.width then .raise .capacity (capacityInfo f.width) s else k f

/-- The width of FMT and IMPORT, w = zext32(IMM): E_BADWIDTH if 0, E_CAPACITY above WMAX (R144, R145). -/
def withImmFormat (s : State) (v : Variant) (imm : Word32) (k : Format → RuleEnd) : RuleEnd :=
  if imm.toNat = 0 then .raise .badWidth 0 s
  else withFormat s { variant := v, width := imm.toNat } k

/-- The value of a second operand: val(V[RB]), or zext32(IMM) (43_shift.md R110, 45_bit_access.md R119). -/
def withOperand2 (s : State) (o : Operand2) (k : Int → RuleEnd) : RuleEnd :=
  match o with
  | .reg rb => withReg s .rb rb fun b => k b.val
  | .imm imm => k (zext32 imm)

/-- A command of two source registers (41_arith.md, 42_bitwise.md): read RA, read RB, check the result width, write
V[RD] <- mk(f, value a b). -/
def twoOperand (s : State) (rd ra rb : RegIx) (rfmt : Format → Format → Format) (value : Format → Int → Int → Int) :
    RuleEnd :=
  withReg s .ra ra fun a =>
    withReg s .rb rb fun b =>
      withFormat s (rfmt a.fmt b.fmt) fun f => .done (s.writeReg rd f (value f a.val b.val))

/-- A command of two source registers that divides (41_arith.md R93, R94): a zero divisor first writes Zero in the
result format, then raises E_DIV0 (60_exceptions.md R148). -/
def dividing (s : State) (rd ra rb : RegIx) (rfmt : Format → Format → Format) (modulo : Bool)
    (value : Int → Int → Int) : RuleEnd :=
  withReg s .ra ra fun a =>
    withReg s .rb rb fun b =>
      withFormat s (rfmt a.fmt b.fmt) fun f =>
        if b.val = 0 then .raise .div0 (div0Info modulo (decide (a.val = 0))) (s.writeReg rd f 0)
        else .done (s.writeReg rd f (value a.val b.val))

/-- A command of one source register that writes V[RD] in a format and with a value computed from it, with no width
check (the format is no wider than the source's, or is U1 or U32). -/
def oneOperand (s : State) (rd ra : RegIx) (result : Reg → Format × Int) : RuleEnd :=
  withReg s .ra ra fun a => .done (s.writeReg rd (result a).1 (result a).2)

/-- A small-scalar command that divides (41_arith.md R99, R100): the result keeps the format of V[RA]; k = 0 first
writes Zero, then raises E_DIV0. -/
def dividingImm (s : State) (rd ra : RegIx) (imm : Word32) (modulo : Bool) (value : Int → Int → Int) : RuleEnd :=
  withReg s .ra ra fun a =>
    if zext32 imm = 0 then .raise .div0 (div0Info modulo (decide (a.val = 0))) (s.writeReg rd a.fmt 0)
    else .done (s.writeReg rd a.fmt (value a.val (zext32 imm)))

end Sys2Proof.Machine
end

