-- ==== Sys2Proof/Machine/Arith.lean ====
section
/-! DEFINITION. ADD, SUB, MUL, DIV, MOD and NEG (41_arith.md R90 to R95). -/

namespace Sys2Proof.Machine

/-- ADD (R90). -/
def execAdd (rd ra rb : RegIx) (s : State) : Result :=
  (twoOperand s rd ra rb rfmtAdd fun f x y => f.fit (x + y)).finish

/-- SUB (R91): two Unsigned operands wrap when the difference is negative. -/
def execSub (rd ra rb : RegIx) (s : State) : Result :=
  (twoOperand s rd ra rb rfmtAdd fun f x y => f.fit (x - y)).finish

/-- MUL (R92). -/
def execMul (rd ra rb : RegIx) (s : State) : Result :=
  (twoOperand s rd ra rb rfmtMul fun _ x y => x * y).finish

/-- DIV (R93). -/
def execDiv (rd ra rb : RegIx) (s : State) : Result := (dividing s rd ra rb rfmtDiv false tdiv).finish

/-- MOD (R94). -/
def execMod (rd ra rb : RegIx) (s : State) : Result := (dividing s rd ra rb rfmtMod true tmod).finish

/-- NEG (R95). -/
def execNeg (rd ra : RegIx) (s : State) : Result :=
  (withReg s .ra ra fun a =>
    withFormat s (rfmtNeg a.fmt) fun f => .done (s.writeReg rd f (f.fit (-a.val)))).finish

end Sys2Proof.Machine
end

