-- ==== Sys2Proof/Machine/BitAccess.lean ====
section
/-! DEFINITION. TST, BSET, BCLR, REV and RANGE (45_bit_access.md R119 to R124). -/

namespace Sys2Proof.Machine

/-- An index inside the declared width (R119). -/
abbrev Reg.hasBit (r : Reg) (i : Int) : Prop := 0 ≤ i ∧ i < r.width

/-- TST (R120): bit i, or the sign-extension bit when i is not inside the width. -/
def testing (s : State) (rd ra : RegIx) (o : Operand2) : RuleEnd :=
  withReg s .ra ra fun a =>
    withOperand2 s o fun i =>
      let t := if a.hasBit i then bitOf a.val i.toNat else decide (a.val < 0)
      .done (s.writeReg rd Format.u1 (if t then 1 else 0))

/-- p with bit i set. -/
def setBit (p i : Nat) : Nat := p ||| 2 ^ i

/-- p with bit i cleared: p AND NOT 2^i. -/
def clearBit (p i : Nat) : Nat := natAndNot p (2 ^ i)

/-- BSET and BCLR (R121, R122): change bit i of the pattern, or copy when i is not inside the width. The sign is derived
again from the new pattern. -/
def changingBit (s : State) (rd ra : RegIx) (o : Operand2) (change : Nat → Nat → Nat) : RuleEnd :=
  withReg s .ra ra fun a =>
    withOperand2 s o fun i =>
      let p := pat a.val a.width
      .done (s.writeReg rd a.fmt (a.fmt.unpat (if a.hasBit i then change p i.toNat else p)))

/-- TST, I = 0 (R120). -/
def execTst (rd ra rb : RegIx) (s : State) : Result := (testing s rd ra (.reg rb)).finish

/-- TST, I = 1 (R120). -/
def execTstImm (rd ra : RegIx) (imm : Word32) (s : State) : Result := (testing s rd ra (.imm imm)).finish

/-- BSET, I = 0 (R121). -/
def execBset (rd ra rb : RegIx) (s : State) : Result := (changingBit s rd ra (.reg rb) setBit).finish

/-- BSET, I = 1 (R121). -/
def execBsetImm (rd ra : RegIx) (imm : Word32) (s : State) : Result := (changingBit s rd ra (.imm imm) setBit).finish

/-- BCLR, I = 0 (R122). -/
def execBclr (rd ra rb : RegIx) (s : State) : Result := (changingBit s rd ra (.reg rb) clearBit).finish

/-- BCLR, I = 1 (R122). -/
def execBclrImm (rd ra : RegIx) (imm : Word32) (s : State) : Result :=
  (changingBit s rd ra (.imm imm) clearBit).finish

/-- The w-bit pattern in reversed order (R123). -/
def reversePat (p w : Nat) : Nat := sumBits (fun j => p.testBit (w - 1 - j)) w

/-- REV (R123). -/
def execRev (rd ra : RegIx) (s : State) : Result :=
  (oneOperand s rd ra fun a => (a.fmt, a.fmt.unpat (reversePat (pat a.val a.width) a.width))).finish

/-- The result of RANGE (R124): bounds clamped into the width, bits r up to l in order, or reversed when l < r; one
zero bit for a Zero operand or bounds entirely outside. -/
def Reg.range (a : Reg) (l r : Nat) : Format × Int :=
  if a.val = 0 ∨ a.width ≤ min l r then (Format.u1, 0)
  else
    let p := pat a.val a.width
    let l' := min l (a.width - 1)
    let r' := min r (a.width - 1)
    let n := max l' r' - min l' r' + 1
    ({ variant := .unsigned, width := n },
      (sumBits (fun j => p.testBit (if r' ≤ l' then r' + j else r' - j)) n : Nat))

/-- RANGE (R124). -/
def execRange (rd ra : RegIx) (l r : BitVec 16) (s : State) : Result :=
  (oneOperand s rd ra fun a => a.range l.toNat r.toNat).finish

end Sys2Proof.Machine
end

