-- ==== Sys2Proof/Machine/Bitwise.lean ====
section
/-! DEFINITION. AND, OR, XOR and NOT (42_bitwise.md R105 to R109). -/

namespace Sys2Proof.Machine

/-- AND (R106). -/
def execAnd (rd ra rb : RegIx) (s : State) : Result :=
  (twoOperand s rd ra rb rfmtBitwise fun _ x y => intAnd x y).finish

/-- OR (R107). -/
def execOr (rd ra rb : RegIx) (s : State) : Result :=
  (twoOperand s rd ra rb rfmtBitwise fun _ x y => intOr x y).finish

/-- XOR (R108). -/
def execXor (rd ra rb : RegIx) (s : State) : Result :=
  (twoOperand s rd ra rb rfmtBitwise fun _ x y => intXor x y).finish

/-- NOT (R109): the format is kept. -/
def execNot (rd ra : RegIx) (s : State) : Result :=
  (oneOperand s rd ra fun a => (a.fmt, a.fmt.fit (-a.val - 1))).finish

end Sys2Proof.Machine
end

