-- ==== Sys2Proof/Machine/Flags.lean ====
section
/-! DEFINITION. The status word, the condition flags and the relations of the comparator (10_state.md R29, R35;
44_compare.md R116, R117). -/

namespace Sys2Proof.Machine

/-- `err_o`, the level the core drives, equal to STATUS.FAULT (10_state.md R44). -/
def State.errO (s : State) : Bool := decide (s.run = .fault)

/-- STATUS (10_state.md R35): bit 0 FAULT, bit 1 EQ, bit 2 LT, the rest 0. -/
def State.status (s : State) : Word32 :=
  (0 : BitVec 29) ++ BitVec.ofBool s.lt ++ BitVec.ofBool s.eq ++ BitVec.ofBool s.errO

/-- The six conditions of CC (30_encoding.md R67). -/
inductive Cond where
  | eq
  | ne
  | lt
  | le
  | gt
  | ge
  deriving DecidableEq, Repr

/-- rel(CC, x, y), from the two primitives x = y and x < y (44_compare.md R116). -/
def Cond.rel (c : Cond) (x y : Int) : Bool :=
  match c with
  | .eq => decide (x = y)
  | .ne => !decide (x = y)
  | .lt => decide (x < y)
  | .le => decide (x < y) || decide (x = y)
  | .gt => !(decide (x < y) || decide (x = y))
  | .ge => !decide (x < y)

/-- STATUS.EQ <- (x = y); STATUS.LT <- (x < y) (44_compare.md R117). -/
def State.setFlags (s : State) (x y : Int) : State := { s with eq := decide (x = y), lt := decide (x < y) }

/-- CMP and CMPM (44_compare.md R115): `quantity` is the value or the magnitude of an operand. -/
def comparing (s : State) (rd ra rb : RegIx) (c : Cond) (quantity : Reg → Int) : RuleEnd :=
  withReg s .ra ra fun a =>
    withReg s .rb rb fun b =>
      .done ((s.setFlags (quantity a) (quantity b)).writeReg rd Format.u1
        (if c.rel (quantity a) (quantity b) then 1 else 0))

/-- The magnitude |val(V[i])| that CMPM compares (44_compare.md R115). -/
def Reg.absVal (r : Reg) : Int := r.val.natAbs

end Sys2Proof.Machine
end

