-- ==== Sys2Proof/Machine/Compare.lean ====
section
/-! DEFINITION. CMP.cc and CMPM.cc (44_compare.md R115 to R117). -/

namespace Sys2Proof.Machine

/-- CMP.EQ (R115, R116). -/
def execCmpEq (rd ra rb : RegIx) (s : State) : Result :=
  (comparing s rd ra rb .eq Reg.val).finish

/-- CMP.NE (R115, R116). -/
def execCmpNe (rd ra rb : RegIx) (s : State) : Result :=
  (comparing s rd ra rb .ne Reg.val).finish

/-- CMP.LT (R115, R116). -/
def execCmpLt (rd ra rb : RegIx) (s : State) : Result :=
  (comparing s rd ra rb .lt Reg.val).finish

/-- CMP.LE (R115, R116). -/
def execCmpLe (rd ra rb : RegIx) (s : State) : Result :=
  (comparing s rd ra rb .le Reg.val).finish

/-- CMP.GT (R115, R116). -/
def execCmpGt (rd ra rb : RegIx) (s : State) : Result :=
  (comparing s rd ra rb .gt Reg.val).finish

/-- CMP.GE (R115, R116). -/
def execCmpGe (rd ra rb : RegIx) (s : State) : Result :=
  (comparing s rd ra rb .ge Reg.val).finish

/-- CMPM.EQ (R115, R116). -/
def execCmpmEq (rd ra rb : RegIx) (s : State) : Result :=
  (comparing s rd ra rb .eq Reg.absVal).finish

/-- CMPM.NE (R115, R116). -/
def execCmpmNe (rd ra rb : RegIx) (s : State) : Result :=
  (comparing s rd ra rb .ne Reg.absVal).finish

/-- CMPM.LT (R115, R116). -/
def execCmpmLt (rd ra rb : RegIx) (s : State) : Result :=
  (comparing s rd ra rb .lt Reg.absVal).finish

/-- CMPM.LE (R115, R116). -/
def execCmpmLe (rd ra rb : RegIx) (s : State) : Result :=
  (comparing s rd ra rb .le Reg.absVal).finish

/-- CMPM.GT (R115, R116). -/
def execCmpmGt (rd ra rb : RegIx) (s : State) : Result :=
  (comparing s rd ra rb .gt Reg.absVal).finish

/-- CMPM.GE (R115, R116). -/
def execCmpmGe (rd ra rb : RegIx) (s : State) : Result :=
  (comparing s rd ra rb .ge Reg.absVal).finish

end Sys2Proof.Machine
end

