-- ==== Sys2Proof/Machine/LeadingZero.lean ====
section
/-! DEFINITION. SIGD and CLZ (47_lzd.md R128, R129). -/

namespace Sys2Proof.Machine

/-- The significant BPD-bit digits of a magnitude, ceil(bitlen(m) / BPD), 0 for Zero (R128). -/
def significantDigits (bpd m : Nat) : Nat := if m = 0 then 0 else (bitlen m + bpd - 1) / bpd

/-- SIGD (R128). -/
def execSigd (rd ra : RegIx) (s : State) : Result :=
  (oneOperand s rd ra fun a => (Format.u32, (significantDigits s.params.bpd a.val.natAbs : Nat))).finish

/-- CLZ (R129). -/
def execClz (rd ra : RegIx) (s : State) : Result :=
  (oneOperand s rd ra fun a => (Format.u32, (a.width : Int) - bitlen (pat a.val a.width))).finish

end Sys2Proof.Machine
end

