-- ==== Sys2Proof/Machine/Packed.lean ====
section
/-! DEFINITION. IMPORT and EXPORT (46_packed.md R125, R126). -/

namespace Sys2Proof.Machine

/-- IMPORT (R125): the w-bit pattern at PBUF word 0, read in the format. -/
def importing (s : State) (rd : RegIx) (v : Variant) (imm : Word32) : RuleEnd :=
  withImmFormat s v imm fun f => .done (s.writeReg rd f (f.unpat (s.memRead 0 f.width)))

/-- IMPORT.U (R125). -/
def execImportU (rd : RegIx) (imm : Word32) (s : State) : Result := (importing s rd .unsigned imm).finish

/-- IMPORT.S (R125). -/
def execImportS (rd : RegIx) (imm : Word32) (s : State) : Result := (importing s rd .signed imm).finish

/-- signcode (R126, 92_eei_decisions.md D42): 0 Zero, 1 Positive, 2 Negative. An UNINIT register is never exported
(R143), so its code is never written. -/
def Sign.code : Sign → BitVec 2
  | .zero => 0
  | .pos => 1
  | .neg => 2
  | .uninit => 3

/-- The descriptor of an exported register (10_state.md R39): VALID, SIGN, SGND, WIDTH. -/
def Reg.descriptor (r : Reg) : Word32 :=
  (0 : BitVec 12) ++ (1 : BitVec 1) ++ r.sign.code ++ BitVec.ofBool (decide (r.variant = .signed))
    ++ BitVec.ofNat 16 r.width

/-- EXPORT (R126): ceil(w / 32) words of the two's-complement pattern, sign-extended to the last word's end, and the
descriptor. -/
def execExport (ra : RegIx) (s : State) : Result :=
  (withReg s .ra ra fun a =>
    let n := 32 * wordsOf a.width
    .done { s.memWrite 0 n (pat a.val n) with pbdesc := a.descriptor }).finish

end Sys2Proof.Machine
end

