-- ==== Sys2Proof/Machine/Scalar.lean ====
section
/-! DEFINITION. ADDI, SUBI, MULI, DIVI and MODI (41_arith.md R96 to R100): the result keeps the format of V[RA]. -/

namespace Sys2Proof.Machine

/-- ADDI (R96). -/
def execAddi (rd ra : RegIx) (imm : Word32) (s : State) : Result :=
  (oneOperand s rd ra fun a => (a.fmt, a.fmt.fit (a.val + zext32 imm))).finish

/-- SUBI (R97). -/
def execSubi (rd ra : RegIx) (imm : Word32) (s : State) : Result :=
  (oneOperand s rd ra fun a => (a.fmt, a.fmt.fit (a.val - zext32 imm))).finish

/-- MULI (R98). -/
def execMuli (rd ra : RegIx) (imm : Word32) (s : State) : Result :=
  (oneOperand s rd ra fun a => (a.fmt, a.fmt.fit (a.val * zext32 imm))).finish

/-- DIVI (R99). -/
def execDivi (rd ra : RegIx) (imm : Word32) (s : State) : Result := (dividingImm s rd ra imm false tdiv).finish

/-- MODI (R100). -/
def execModi (rd ra : RegIx) (imm : Word32) (s : State) : Result := (dividingImm s rd ra imm true tmod).finish

end Sys2Proof.Machine
end

