-- ==== Sys2Proof/Machine/Setup.lean ====
section
/-! DEFINITION. NOP, FMT, LDI, MOV, CAST and CVT (40_setup_move.md R80 to R85). -/

namespace Sys2Proof.Machine

/-- NOP (R80): only CMDCNT changes. -/
def execNop (s : State) : Result := (RuleEnd.done s).finish

/-- FMT (R81): V[RD] <- mk(v, w, 0); the old contents of V[RD] are not read. -/
def formatting (s : State) (rd : RegIx) (v : Variant) (imm : Word32) : RuleEnd :=
  withImmFormat s v imm fun f => .done (s.writeReg rd f 0)

/-- FMT.U (R81). -/
def execFmtU (rd : RegIx) (imm : Word32) (s : State) : Result := (formatting s rd .unsigned imm).finish

/-- FMT.S (R81). -/
def execFmtS (rd : RegIx) (imm : Word32) (s : State) : Result := (formatting s rd .signed imm).finish

/-- LDI (R82): the value is reduced into the format V[RD] has. -/
def loading (s : State) (rd : RegIx) (z : Int) : RuleEnd :=
  withReg s .rd rd fun d => .done (s.writeReg rd d.fmt (d.fmt.fit z))

/-- LDI.U (R82): X = 0, zext32(IMM). -/
def execLdiU (rd : RegIx) (imm : Word32) (s : State) : Result := (loading s rd (zext32 imm)).finish

/-- LDI.S (R82): X = 1, sext32(IMM). -/
def execLdiS (rd : RegIx) (imm : Word32) (s : State) : Result := (loading s rd (sext32 imm)).finish

/-- MOV (R83). -/
def execMov (rd ra : RegIx) (s : State) : Result := (oneOperand s rd ra fun a => (a.fmt, a.val)).finish

/-- CAST.U (R84): an Unsigned source is copied, a Signed one is reinterpreted at its width. -/
def execCastU (rd ra : RegIx) (s : State) : Result :=
  (oneOperand s rd ra fun a =>
    if a.variant = .unsigned then (a.fmt, a.val)
    else
      let f : Format := { variant := .unsigned, width := a.width }
      (f, f.fit a.val)).finish

/-- CAST.S (R84): a Signed source is copied, an Unsigned one keeps its value one bit wider. -/
def execCastS (rd ra : RegIx) (s : State) : Result :=
  (withReg s .ra ra fun a =>
    if a.variant = .signed then .done (s.writeReg rd a.fmt a.val)
    else withFormat s { variant := .signed, width := a.width + 1 } fun f => .done (s.writeReg rd f a.val)).finish

/-- CVT (R85): the value is reduced into the format V[RD] has; RA is checked before RD. -/
def execCvt (rd ra : RegIx) (s : State) : Result :=
  (withReg s .ra ra fun a =>
    withReg s .rd rd fun d => .done (s.writeReg rd d.fmt (d.fmt.fit a.val))).finish

end Sys2Proof.Machine
end

