-- ==== Sys2Proof/Machine/Shift.lean ====
section
/-! DEFINITION. SHL and SHR (43_shift.md R110 to R112). -/

namespace Sys2Proof.Machine

/-- SHL (R111): an amount of at most 0 copies; any other amount n widens by n and loses no bit. -/
def shiftingLeft (s : State) (rd ra : RegIx) (o : Operand2) : RuleEnd :=
  withReg s .ra ra fun a =>
    withOperand2 s o fun n =>
      if n ≤ 0 then .done (s.writeReg rd a.fmt a.val)
      else withFormat s { variant := a.variant, width := a.width + n.toNat } fun f =>
        .done (s.writeReg rd f (a.val * 2 ^ n.toNat))

/-- SHR (R112): an amount of at most 0 copies; any other amount n gives floor(val / 2^n) in the same format. -/
def shiftingRight (s : State) (rd ra : RegIx) (o : Operand2) : RuleEnd :=
  withReg s .ra ra fun a =>
    withOperand2 s o fun n =>
      if n ≤ 0 then .done (s.writeReg rd a.fmt a.val)
      else .done (s.writeReg rd a.fmt (a.val >>> n.toNat))

/-- SHL, I = 0 (R111). -/
def execShl (rd ra rb : RegIx) (s : State) : Result := (shiftingLeft s rd ra (.reg rb)).finish

/-- SHL, I = 1 (R111). -/
def execShlImm (rd ra : RegIx) (imm : Word32) (s : State) : Result := (shiftingLeft s rd ra (.imm imm)).finish

/-- SHR, I = 0 (R112). -/
def execShr (rd ra rb : RegIx) (s : State) : Result := (shiftingRight s rd ra (.reg rb)).finish

/-- SHR, I = 1 (R112). -/
def execShrImm (rd ra : RegIx) (imm : Word32) (s : State) : Result := (shiftingRight s rd ra (.imm imm)).finish

end Sys2Proof.Machine
end

