-- ==== Sys2Proof/Machine/Dispatch.lean ====
section
/-! DEFINITION. One arm per command: perform its rule and end the command (30_encoding.md R72). -/

namespace Sys2Proof.Machine

def exec (i : Instr) (s : State) : Host.Outcome State Fault Refusal :=
  match i with
  | .nop => Sys2Proof.Machine.execNop s
  | .fmtU rd imm => Sys2Proof.Machine.execFmtU rd imm s
  | .fmtS rd imm => Sys2Proof.Machine.execFmtS rd imm s
  | .ldiU rd imm => Sys2Proof.Machine.execLdiU rd imm s
  | .ldiS rd imm => Sys2Proof.Machine.execLdiS rd imm s
  | .mov rd ra => Sys2Proof.Machine.execMov rd ra s
  | .castU rd ra => Sys2Proof.Machine.execCastU rd ra s
  | .castS rd ra => Sys2Proof.Machine.execCastS rd ra s
  | .cvt rd ra => Sys2Proof.Machine.execCvt rd ra s
  | .importU rd imm => Sys2Proof.Machine.execImportU rd imm s
  | .importS rd imm => Sys2Proof.Machine.execImportS rd imm s
  | .exportV ra => Sys2Proof.Machine.execExport ra s
  | .add rd ra rb => Sys2Proof.Machine.execAdd rd ra rb s
  | .sub rd ra rb => Sys2Proof.Machine.execSub rd ra rb s
  | .mul rd ra rb => Sys2Proof.Machine.execMul rd ra rb s
  | .div rd ra rb => Sys2Proof.Machine.execDiv rd ra rb s
  | .mod rd ra rb => Sys2Proof.Machine.execMod rd ra rb s
  | .neg rd ra => Sys2Proof.Machine.execNeg rd ra s
  | .addi rd ra imm => Sys2Proof.Machine.execAddi rd ra imm s
  | .subi rd ra imm => Sys2Proof.Machine.execSubi rd ra imm s
  | .muli rd ra imm => Sys2Proof.Machine.execMuli rd ra imm s
  | .divi rd ra imm => Sys2Proof.Machine.execDivi rd ra imm s
  | .modi rd ra imm => Sys2Proof.Machine.execModi rd ra imm s
  | .and rd ra rb => Sys2Proof.Machine.execAnd rd ra rb s
  | .or rd ra rb => Sys2Proof.Machine.execOr rd ra rb s
  | .xor rd ra rb => Sys2Proof.Machine.execXor rd ra rb s
  | .not rd ra => Sys2Proof.Machine.execNot rd ra s
  | .shl rd ra rb => Sys2Proof.Machine.execShl rd ra rb s
  | .shlImm rd ra imm => Sys2Proof.Machine.execShlImm rd ra imm s
  | .shr rd ra rb => Sys2Proof.Machine.execShr rd ra rb s
  | .shrImm rd ra imm => Sys2Proof.Machine.execShrImm rd ra imm s
  | .cmpEq rd ra rb => Sys2Proof.Machine.execCmpEq rd ra rb s
  | .cmpNe rd ra rb => Sys2Proof.Machine.execCmpNe rd ra rb s
  | .cmpLt rd ra rb => Sys2Proof.Machine.execCmpLt rd ra rb s
  | .cmpLe rd ra rb => Sys2Proof.Machine.execCmpLe rd ra rb s
  | .cmpGt rd ra rb => Sys2Proof.Machine.execCmpGt rd ra rb s
  | .cmpGe rd ra rb => Sys2Proof.Machine.execCmpGe rd ra rb s
  | .cmpmEq rd ra rb => Sys2Proof.Machine.execCmpmEq rd ra rb s
  | .cmpmNe rd ra rb => Sys2Proof.Machine.execCmpmNe rd ra rb s
  | .cmpmLt rd ra rb => Sys2Proof.Machine.execCmpmLt rd ra rb s
  | .cmpmLe rd ra rb => Sys2Proof.Machine.execCmpmLe rd ra rb s
  | .cmpmGt rd ra rb => Sys2Proof.Machine.execCmpmGt rd ra rb s
  | .cmpmGe rd ra rb => Sys2Proof.Machine.execCmpmGe rd ra rb s
  | .tst rd ra rb => Sys2Proof.Machine.execTst rd ra rb s
  | .tstImm rd ra imm => Sys2Proof.Machine.execTstImm rd ra imm s
  | .bset rd ra rb => Sys2Proof.Machine.execBset rd ra rb s
  | .bsetImm rd ra imm => Sys2Proof.Machine.execBsetImm rd ra imm s
  | .bclr rd ra rb => Sys2Proof.Machine.execBclr rd ra rb s
  | .bclrImm rd ra imm => Sys2Proof.Machine.execBclrImm rd ra imm s
  | .rev rd ra => Sys2Proof.Machine.execRev rd ra s
  | .range rd ra l r => Sys2Proof.Machine.execRange rd ra l r s
  | .sigd rd ra => Sys2Proof.Machine.execSigd rd ra s
  | .clz rd ra => Sys2Proof.Machine.execClz rd ra s

end Sys2Proof.Machine
end

