-- ==== Sys2Proof/Machine/HostPort.lean ====
section
/-! DEFINITION. The host port: the register map, reads and writes, issuing a command, and the reset input
(10_state.md R32 to R42; 20_memory.md R46, R47, R54; 70_reset_and_hazards.md R170, R171). -/

namespace Sys2Proof.Machine

/-! ### The map (20_memory.md R47) -/

/-- The byte offset of a bus address from BASE (R47; 32-bit, log 2). -/
def State.offsetOf (s : State) (addr : Word32) : Nat := (addr - s.params.base).toNat

/-- The bus address of a byte offset. -/
def State.busAddr (s : State) (off : Word32) : Word32 := s.params.base + off

/-- The PBUF word at a byte offset, if the offset is 0x100 + 4k with k < NPW (R47). -/
def pbufIndex (p : Params) (off : Nat) : Option Nat :=
  if 0x100 ≤ off ∧ off % 4 = 0 ∧ (off - 0x100) / 4 < p.npw then some ((off - 0x100) / 4) else none

/-- ID, "LAB4" (10_state.md R33). -/
def idWord : Word32 := 0x4C414234

/-- PARAM: 32 in [31:24], NREG = 16 in [23:16], WMAX in [15:0] (10_state.md R32, R34). Bits [31:24] hold 32 for every
digit size `p.bpd`, since only SIGD observes BPD (00_scope.md R5); DEDUCED, unsafe for a digit size other than 32
(log 19). -/
def paramWord (p : Params) : Word32 := (32 : BitVec 8) ++ (16 : BitVec 8) ++ BitVec.ofNat 16 p.wmax

/-- CAUSE: the code in bits [7:0] (10_state.md R36). -/
def State.causeWord (s : State) : Word32 := (0 : BitVec 24) ++ s.cause.code

/-- A read of a control register (10_state.md R32); CTRL, the reserved offsets and misaligned offsets read 0. -/
def State.csrRead (s : State) (off : Nat) : Word32 :=
  match off with
  | 0x000 => idWord
  | 0x004 => paramWord s.params
  | 0x008 => s.status
  | 0x00C => s.causeWord
  | 0x010 => s.info
  | 0x014 => s.fcmdLo
  | 0x018 => s.fcmdHi
  | 0x01C => s.pbdesc
  | 0x020 => s.cmdLo
  | 0x024 => s.cmdHi
  | 0x02C => s.cmdcnt
  | _ => 0

/-- What a host read of an offset returns (20_memory.md R46, R47): a PBUF word, a control register, or 0. -/
def State.hostRead (s : State) (off : Nat) : Word32 :=
  match pbufIndex s.params off with
  | some k => s.pbufWord k
  | none => s.csrRead off

/-! ### Issuing a command (30_encoding.md R72) -/

/-- The command word {CMD_HI, CMD_LO} (10_state.md R40). -/
def State.command (s : State) : Command := s.cmdHi ++ s.cmdLo

/-- step(c) of 30_encoding.md R72, with CMD_HI already stored: in FAULT the command is ignored (60_exceptions.md R150);
a word that is no row raises E_ILLEGAL (R142); any other word is performed. -/
def issue (s : State) : Result :=
  match s.run with
  | .fault => .next s
  | .ready =>
    match decode s.command with
    | none => (RuleEnd.raise .illegal 0 s).finish
    | some i => exec i s

/-- A host write of a word to an offset (10_state.md R40, R41; 20_memory.md R54): a PBUF word or CMD_LO is stored,
CMD_HI is stored and executed, CTRL with bit 0 set resets, every other write has no effect. -/
def hostWrite (s : State) (off : Nat) (data : Word32) : Result :=
  match pbufIndex s.params off with
  | some k => .next (s.setPbufWord k data)
  | none =>
    match off with
    | 0x020 => .next { s with cmdLo := data }
    | 0x024 => issue { s with cmdHi := data }
    | 0x028 => if data.getLsbD 0 then .next s.softReset else .next s
    | _ => .next s

/-! ### The inputs of the core -/

/-- The reset input takes a level (70_reset_and_hazards.md R170): the core takes the reset state while it is asserted
and in the step when it is deasserted. -/
def State.setRst (s : State) (level : Bool) : State :=
  if level || s.rst then { s.hardwareReset with rst := level } else s

/-- Serve one input. While `rst` is asserted reads return 0 and writes are ignored (70_reset_and_hazards.md R170). -/
def serve (s : State) (e : HostEvent) : Result :=
  match e with
  | .rst level => .next (s.setRst level)
  | .read addr => .next { s with rdata := if s.rst then 0 else s.hostRead (s.offsetOf addr) }
  | .write addr data => if s.rst then .next s else hostWrite s (s.offsetOf addr) data

end Sys2Proof.Machine
end

