-- ==== Sys2Proof/Machine/Step.lean ====
section
/-! DEFINITION. One step: the oldest pending host input is served (10_state.md R20). -/

namespace Sys2Proof.Machine

/-- One step of the machine is one host access (10_state.md R20). With no access pending nothing happens: the core has
no background work (60_exceptions.md R152; log 3). -/
def step (s : State) : Host.Outcome State Fault Refusal :=
  match s.events with
  | [] => .next s
  | e :: rest => serve { s with events := rest } e

/-- The command word `w` made ready to run (log 4): its low half is in CMD_LO, as if the host had written it, and the
host's next access is the write of its high half to CMD_HI, which executes it (10_state.md R40). Bits at and above
`nbits` are 0. The run state and the level of `rst` stay, so the command runs in a core that is READY and not held in
reset. -/
def State.withFetchWord (s : State) (nbits w : Nat) : State :=
  let c : Command := BitVec.ofNat 64 (w % 2 ^ nbits)
  { s with
    cmdLo := c.extractLsb' 0 32
    events := .write (s.busAddr 0x024) (c.extractLsb' 32 32) :: s.events }

end Sys2Proof.Machine
end

