-- ==== Sys2Proof/Machine/Assembler.lean ====
section
/-! DEFINITION. The assembler syntax and the pseudo-instructions (30_encoding.md R70, R71), and what the host's accesses
for a list of commands do (30_encoding.md R61, 70_reset_and_hazards.md R173). No step uses this file: it says what a line
of assembler text stands for. -/

namespace Sys2Proof.Machine

/-! ### Performing commands through the host port -/

/-- The host's two writes for one command: the low half to CMD_LO, then the high half to CMD_HI (R61). -/
def commandWrites (p : Params) (i : Instr) : List HostEvent :=
  [.write (p.base + 0x020) ((encode i).extractLsb' 0 32), .write (p.base + 0x024) ((encode i).extractLsb' 32 32)]

/-- The host's writes for a list of commands, in order. -/
def programWrites (p : Params) (program : List Instr) : List HostEvent := program.flatMap (commandWrites p)

/-- What the two writes of one command do, with no other access between them. -/
def perform (i : Instr) (s : State) : Result :=
  issue { s with cmdLo := (encode i).extractLsb' 0 32, cmdHi := (encode i).extractLsb' 32 32 }

/-- A list of commands, performed in order. -/
def performAll : List Instr → State → Result
  | [], s => .next s
  | i :: rest, s =>
    match perform i s with
    | .next t => performAll rest t
    | .fault f => .fault f
    | .refused r => .refused r

/-! ### Pseudo-instructions (R71) -/

/-- The operators with a compound form `op.A`. -/
inductive CompoundOp where
  | add
  | sub
  | mul
  | div
  | mod
  | and
  | or
  | xor
  deriving DecidableEq, Repr

/-- The command of a compound operator. -/
def CompoundOp.instr (op : CompoundOp) (rd ra rb : RegIx) : Instr :=
  match op with
  | .add => .add rd ra rb
  | .sub => .sub rd ra rb
  | .mul => .mul rd ra rb
  | .div => .div rd ra rb
  | .mod => .mod rd ra rb
  | .and => .and rd ra rb
  | .or => .or rd ra rb
  | .xor => .xor rd ra rb

/-- The pseudo-instructions of R71. -/
inductive Pseudo where
  | inc (rd : RegIx)
  | dec (rd : RegIx)
  | postinc (rd ra : RegIx)
  | postdec (rd ra : RegIx)
  | zero (rd : RegIx)
  | liS (rd : RegIx) (width imm : Word32)
  | liU (rd : RegIx) (width imm : Word32)
  | compound (op : CompoundOp) (ra rb rt : RegIx)
  | shlA (ra rb : RegIx)
  | shrA (ra rb : RegIx)
  deriving DecidableEq, Repr

/-- The expansion of a pseudo-instruction (R71). -/
def Pseudo.expand : Pseudo → List Instr
  | .inc rd => [.addi rd rd 1]
  | .dec rd => [.subi rd rd 1]
  | .postinc rd ra => [.mov rd ra, .addi ra ra 1]
  | .postdec rd ra => [.mov rd ra, .subi ra ra 1]
  | .zero rd => [.muli rd rd 0]
  | .liS rd width imm => [.fmtS rd width, .ldiS rd imm]
  | .liU rd width imm => [.fmtU rd width, .ldiU rd imm]
  | .compound op ra rb rt => [op.instr rt ra rb, .cvt ra rt]
  | .shlA ra rb => [.shl ra ra rb]
  | .shrA ra rb => [.shr ra ra rb]

/-! ### Operands and spellings (R70) -/

/-- An operand as it is written: a register, or the number after `#`. -/
inductive AsmOperand where
  | reg (r : RegIx)
  | num (n : Int)
  deriving DecidableEq, Repr

/-- An immediate of 32 bits, not negative (R62). -/
def immOf (n : Int) : Option Word32 := if 0 ≤ n ∧ n < 2 ^ 32 then some (BitVec.ofInt 32 n) else none

/-- The immediate of LDI.S, imm mod 2^32, the only one that may be negative (R70; log 17). -/
def immSignedOf (n : Int) : Option Word32 := if -2 ^ 31 ≤ n ∧ n < 2 ^ 32 then some (BitVec.ofInt 32 n) else none

/-- A bound of RANGE, 16 bits (R62). -/
def boundOf (n : Int) : Option (BitVec 16) := if 0 ≤ n ∧ n < 2 ^ 16 then some (BitVec.ofInt 16 n) else none

/-- Mnemonics with operands `rd, #n`. -/
def asmDestImm (m : String) (rd : RegIx) (n : Int) : Option Instr :=
  match m with
  | "FMT.U" => (immOf n).map (.fmtU rd)
  | "FMT.S" => (immOf n).map (.fmtS rd)
  | "LDI.U" => (immOf n).map (.ldiU rd)
  | "LDI.S" => (immSignedOf n).map (.ldiS rd)
  | "IMPORT.U" => (immOf n).map (.importU rd)
  | "IMPORT.S" => (immOf n).map (.importS rd)
  | _ => none

/-- Mnemonics with operands `rd, ra`. -/
def asmTwoRegs (m : String) (rd ra : RegIx) : Option Instr :=
  match m with
  | "MOV" => some (.mov rd ra)
  | "CAST.U" => some (.castU rd ra)
  | "CAST.S" => some (.castS rd ra)
  | "CVT" => some (.cvt rd ra)
  | "NEG" => some (.neg rd ra)
  | "NOT" => some (.not rd ra)
  | "REV" => some (.rev rd ra)
  | "SIGD" => some (.sigd rd ra)
  | "CLZ" => some (.clz rd ra)
  | _ => none

/-- Mnemonics with operands `rd, ra, rb`. -/
def asmThreeRegs (m : String) (rd ra rb : RegIx) : Option Instr :=
  match m with
  | "ADD" => some (.add rd ra rb)
  | "SUB" => some (.sub rd ra rb)
  | "MUL" => some (.mul rd ra rb)
  | "DIV" => some (.div rd ra rb)
  | "MOD" => some (.mod rd ra rb)
  | "AND" => some (.and rd ra rb)
  | "OR" => some (.or rd ra rb)
  | "XOR" => some (.xor rd ra rb)
  | "SHL" => some (.shl rd ra rb)
  | "SHR" => some (.shr rd ra rb)
  | "TST" => some (.tst rd ra rb)
  | "BSET" => some (.bset rd ra rb)
  | "BCLR" => some (.bclr rd ra rb)
  | "CMP.EQ" => some (.cmpEq rd ra rb)
  | "CMP.NE" => some (.cmpNe rd ra rb)
  | "CMP.LT" => some (.cmpLt rd ra rb)
  | "CMP.LE" => some (.cmpLe rd ra rb)
  | "CMP.GT" => some (.cmpGt rd ra rb)
  | "CMP.GE" => some (.cmpGe rd ra rb)
  | "CMPM.EQ" => some (.cmpmEq rd ra rb)
  | "CMPM.NE" => some (.cmpmNe rd ra rb)
  | "CMPM.LT" => some (.cmpmLt rd ra rb)
  | "CMPM.LE" => some (.cmpmLe rd ra rb)
  | "CMPM.GT" => some (.cmpmGt rd ra rb)
  | "CMPM.GE" => some (.cmpmGe rd ra rb)
  | _ => none

/-- Mnemonics with operands `rd, ra, #n`. -/
def asmRegImm (m : String) (rd ra : RegIx) (n : Int) : Option Instr :=
  match m with
  | "ADDI" => (immOf n).map (.addi rd ra)
  | "SUBI" => (immOf n).map (.subi rd ra)
  | "MULI" => (immOf n).map (.muli rd ra)
  | "DIVI" => (immOf n).map (.divi rd ra)
  | "MODI" => (immOf n).map (.modi rd ra)
  | "SHL" => (immOf n).map (.shlImm rd ra)
  | "SHR" => (immOf n).map (.shrImm rd ra)
  | "TST" => (immOf n).map (.tstImm rd ra)
  | "BSET" => (immOf n).map (.bsetImm rd ra)
  | "BCLR" => (immOf n).map (.bclrImm rd ra)
  | _ => none

/-- One command as it is written: mnemonic and operands, destination first (R70). -/
def assembleCommand (m : String) (operands : List AsmOperand) : Option Instr :=
  match operands with
  | [] => if m = "NOP" then some .nop else none
  | [.reg ra] => if m = "EXPORT" then some (.exportV ra) else none
  | [.reg rd, .num n] => asmDestImm m rd n
  | [.reg rd, .reg ra] => asmTwoRegs m rd ra
  | [.reg rd, .reg ra, .reg rb] => asmThreeRegs m rd ra rb
  | [.reg rd, .reg ra, .num n] => asmRegImm m rd ra n
  | [.reg rd, .reg ra, .num l, .num r] =>
    if m = "RANGE" then (boundOf l).bind fun l => (boundOf r).map fun r => .range rd ra l r else none
  | _ => none

/-- The compound operator an `op.A` mnemonic names. -/
def compoundOf (m : String) : Option CompoundOp :=
  match m with
  | "ADD.A" => some .add
  | "SUB.A" => some .sub
  | "MUL.A" => some .mul
  | "DIV.A" => some .div
  | "MOD.A" => some .mod
  | "AND.A" => some .and
  | "OR.A" => some .or
  | "XOR.A" => some .xor
  | _ => none

/-- One pseudo-instruction as it is written (R71). -/
def assemblePseudo (m : String) (operands : List AsmOperand) : Option Pseudo :=
  match operands with
  | [.reg rd] =>
    match m with
    | "INC" => some (.inc rd)
    | "DEC" => some (.dec rd)
    | "ZERO" => some (.zero rd)
    | _ => none
  | [.reg rd, .reg ra] =>
    match m with
    | "POSTINC" => some (.postinc rd ra)
    | "POSTDEC" => some (.postdec rd ra)
    | "SHL.A" => some (.shlA rd ra)
    | "SHR.A" => some (.shrA rd ra)
    | _ => none
  | [.reg rd, .num w, .num n] =>
    match m with
    | "LI.S" => (immOf w).bind fun w => (immSignedOf n).map fun n => .liS rd w n
    | "LI.U" => (immOf w).bind fun w => (immOf n).map fun n => .liU rd w n
    | _ => none
  | [.reg ra, .reg rb, .reg rt] => (compoundOf m).map fun op => .compound op ra rb rt
  | _ => none

/-- A command, or the expansion of a pseudo-instruction. -/
def assemble (m : String) (operands : List AsmOperand) : Option (List Instr) :=
  match assembleCommand m operands with
  | some i => some [i]
  | none => (assemblePseudo m operands).map Pseudo.expand

/-! ### Lines of text (R70) -/

/-- The value of a digit character. -/
def digitOf (c : Char) : Option Nat :=
  let n := c.toNat
  if 48 ≤ n ∧ n ≤ 57 then some (n - 48)
  else if 65 ≤ n ∧ n ≤ 70 then some (n - 55)
  else if 97 ≤ n ∧ n ≤ 102 then some (n - 87)
  else none

/-- Digits of a base, most significant first, after the value `acc`. -/
def digitsFrom (base : Nat) : List Char → Nat → Option Nat
  | [], acc => some acc
  | c :: rest, acc => (digitOf c).bind fun d => if d < base then digitsFrom base rest (acc * base + d) else none

/-- A number of at least one digit. -/
def numberOf (base : Nat) (cs : List Char) : Option Nat := if cs = [] then none else digitsFrom base cs 0

/-- `r0` to `r15`. -/
def registerOf (digits : List Char) : Option RegIx :=
  (numberOf 10 digits).bind fun n =>
    if n < 16 ∧ (digits.length = 1 ∨ 10 ≤ n ∧ digits.length = 2) then some (BitVec.ofNat 4 n) else none

/-- One operand: `rN`, `#n`, `#-n` or `#0x…` (30_encoding.md R70). `#-0` is the number 0, so every immediate accepts it;
R70 allows `#-n` only for LDI.S and does not say whether `#-0` counts: DESIGN CHOICE, safe (log 17). -/
def operandOf : List Char → Option AsmOperand
  | 'r' :: digits => (registerOf digits).map .reg
  | '#' :: '0' :: 'x' :: digits => (numberOf 16 digits).map fun n => .num n
  | '#' :: '-' :: digits => (numberOf 10 digits).map fun n => .num (-n)
  | '#' :: digits => (numberOf 10 digits).map fun n => .num n
  | _ => none

/-- A blank between the words of a line. -/
def isBlank (c : Char) : Bool := c == ' ' || c == '\t'

/-- The text before a `;` comment. -/
def dropComment (cs : List Char) : List Char := cs.takeWhile (· != ';')

/-- The text without blanks at its ends. -/
def trimBlanks (cs : List Char) : List Char := ((cs.dropWhile isBlank).reverse.dropWhile isBlank).reverse

/-- The parts between commas. -/
def splitCommas : List Char → List (List Char)
  | [] => [[]]
  | c :: rest =>
    match splitCommas rest with
    | [] => [[c]]
    | part :: parts => if c = ',' then [] :: part :: parts else (c :: part) :: parts

/-- Every operand of a line, or none if one is no operand. -/
def operandsOf (cs : List Char) : Option (List AsmOperand) :=
  if cs = [] then some [] else (splitCommas cs).mapM fun part => operandOf (trimBlanks part)

/-- The commands one line of assembler text stands for; a blank or comment line stands for none (R70, R71). -/
def assembleLine (line : String) : Option (List Instr) :=
  let text := trimBlanks (dropComment line.toList)
  if text = [] then some []
  else
    let mnemonic := text.takeWhile (!isBlank ·)
    (operandsOf (trimBlanks (text.drop mnemonic.length))).bind fun operands =>
      assemble (String.ofList mnemonic) operands

end Sys2Proof.Machine
end

