-- ==== Sys2Proof/Safety.lean ====
section
/-! DEFINITION. The terms the statements are written in: the invariant of the machine, what a command reads and writes,
what a state keeps, and what it means that a command gives a result or raises a fault. -/

namespace Sys2Proof.Machine

/-! ### Registers -/

/-- A register that may be read (10_state.md R26). -/
abbrev State.Readable (s : State) (i : RegIx) : Prop := (s.reg i).sign ≠ .uninit

/-- The invariants 1 to 3 of 10_state.md R23 for a register that holds a value, with 1 <= width <= WMAX (R22). -/
abbrev Reg.Wf (p : Params) (r : Reg) : Prop :=
  r.sign ≠ .uninit →
    1 ≤ r.width ∧ r.width ≤ p.wmax ∧ (r.sign = .zero ↔ r.mag = 0) ∧ (r.variant = .unsigned → r.sign ≠ .neg) ∧
      r.fmt.holds r.val

/-- V[i] holds a value and the invariants of 10_state.md R23. -/
abbrev State.Good (s : State) (i : RegIx) : Prop := s.Readable i ∧ (s.reg i).Wf s.params

/-- The register holds value z in format f, as 10_state.md R24 writes it. -/
def Reg.Is (r : Reg) (f : Format) (z : Int) : Prop :=
  r.variant = f.variant ∧ r.width = f.width ∧ r.mag = z.natAbs ∧
    (0 < z → r.sign = .pos) ∧ (z < 0 → r.sign = .neg) ∧ (z = 0 → r.sign = .zero)

/-! ### The invariant of the machine -/

/-- Every item of the table of 70_reset_and_hazards.md R170 but PBUF has its reset value. -/
structure State.AtReset (s : State) : Prop where
  regs   : ∀ i, (s.reg i).sign = .uninit
  run    : s.run = .ready
  status : s.status = 0
  cause  : s.causeWord = 0
  info   : s.info = 0
  fcmd   : s.fcmdLo = 0 ∧ s.fcmdHi = 0
  pbdesc : s.pbdesc = 0
  cmd    : s.cmdLo = 0 ∧ s.cmdHi = 0
  cmdcnt : s.cmdcnt = 0
  errO   : s.errO = false

/-- What holds in every state a run reaches. -/
structure State.Inv (s : State) : Prop where
  /-- The parameters are legal (00_scope.md R5). -/
  params : s.params.valid
  /-- Every register keeps 10_state.md R23. -/
  regs   : ∀ i, (s.reg i).Wf s.params
  /-- EQ and LT never hold together (44_compare.md R117). -/
  flags  : ¬(s.eq = true ∧ s.lt = true)
  /-- CAUSE, INFO and FCMD are 0 as long as no fault has been taken (10_state.md R36 to R38). -/
  report : s.run = .ready → s.cause = .noFault ∧ s.info = 0 ∧ s.fcmdLo = 0 ∧ s.fcmdHi = 0
  /-- In FAULT, CAUSE names a fault (60_exceptions.md R147). -/
  cause  : s.run = .fault → s.cause ≠ .noFault
  /-- PBDESC: reserved bits 0, SIGN never 0b11, 0 until an EXPORT completes (10_state.md R39). -/
  pbdesc : s.pbdesc.extractLsb' 20 12 = 0 ∧ s.pbdesc.extractLsb' 17 2 ≠ 3 ∧
    (s.pbdesc.getLsbD 19 = false → s.pbdesc = 0)
  /-- The packed buffer is in its canonical form and inside its NPW words (20_memory.md R48). -/
  sorted : s.pbuf.wf
  bound  : ∀ e ∈ s.pbuf, e.1 < s.params.npw
  /-- While `rst` is asserted the core is in its reset state (70_reset_and_hazards.md R170). -/
  held   : s.rst = true → s.AtReset

/-! ### What a command reads and writes -/

/-- The value register a command writes (30_encoding.md R73); none for NOP and EXPORT. -/
def destOf : Instr → Option RegIx
  | .nop | .exportV _ => none
  | .fmtU rd _ | .fmtS rd _ | .ldiU rd _ | .ldiS rd _ | .importU rd _ | .importS rd _ => some rd
  | .mov rd _ | .castU rd _ | .castS rd _ | .cvt rd _ | .neg rd _ | .not rd _ | .rev rd _ | .sigd rd _ | .clz rd _ =>
    some rd
  | .add rd _ _ | .sub rd _ _ | .mul rd _ _ | .div rd _ _ | .mod rd _ _ => some rd
  | .addi rd _ _ | .subi rd _ _ | .muli rd _ _ | .divi rd _ _ | .modi rd _ _ => some rd
  | .and rd _ _ | .or rd _ _ | .xor rd _ _ => some rd
  | .shl rd _ _ | .shlImm rd _ _ | .shr rd _ _ | .shrImm rd _ _ => some rd
  | .cmpEq rd _ _ | .cmpNe rd _ _ | .cmpLt rd _ _ | .cmpLe rd _ _ | .cmpGt rd _ _ | .cmpGe rd _ _ => some rd
  | .cmpmEq rd _ _ | .cmpmNe rd _ _ | .cmpmLt rd _ _ | .cmpmLe rd _ _ | .cmpmGt rd _ _ | .cmpmGe rd _ _ => some rd
  | .tst rd _ _ | .tstImm rd _ _ | .bset rd _ _ | .bsetImm rd _ _ | .bclr rd _ _ | .bclrImm rd _ _ => some rd
  | .range rd _ _ _ => some rd

/-- The registers a command checks for UNINIT, in the order of 60_exceptions.md R149: RA, RB, then RD for LDI and CVT. -/
def readsOf : Instr → List (OperandField × RegIx)
  | .nop | .fmtU _ _ | .fmtS _ _ | .importU _ _ | .importS _ _ => []
  | .ldiU rd _ | .ldiS rd _ => [(.rd, rd)]
  | .cvt rd ra => [(.ra, ra), (.rd, rd)]
  | .exportV ra => [(.ra, ra)]
  | .mov _ ra | .castU _ ra | .castS _ ra | .neg _ ra | .not _ ra | .rev _ ra | .sigd _ ra | .clz _ ra => [(.ra, ra)]
  | .addi _ ra _ | .subi _ ra _ | .muli _ ra _ | .divi _ ra _ | .modi _ ra _ => [(.ra, ra)]
  | .shlImm _ ra _ | .shrImm _ ra _ | .tstImm _ ra _ | .bsetImm _ ra _ | .bclrImm _ ra _ => [(.ra, ra)]
  | .range _ ra _ _ => [(.ra, ra)]
  | .add _ ra rb | .sub _ ra rb | .mul _ ra rb | .div _ ra rb | .mod _ ra rb => [(.ra, ra), (.rb, rb)]
  | .and _ ra rb | .or _ ra rb | .xor _ ra rb => [(.ra, ra), (.rb, rb)]
  | .shl _ ra rb | .shr _ ra rb | .tst _ ra rb | .bset _ ra rb | .bclr _ ra rb => [(.ra, ra), (.rb, rb)]
  | .cmpEq _ ra rb | .cmpNe _ ra rb | .cmpLt _ ra rb | .cmpLe _ ra rb | .cmpGt _ ra rb | .cmpGe _ ra rb =>
    [(.ra, ra), (.rb, rb)]
  | .cmpmEq _ ra rb | .cmpmNe _ ra rb | .cmpmLt _ ra rb | .cmpmLe _ ra rb | .cmpmGt _ ra rb | .cmpmGe _ ra rb =>
    [(.ra, ra), (.rb, rb)]

/-- CMP and CMPM, the only commands that write EQ and LT (10_state.md R29). -/
def writesFlags : Instr → Bool
  | .cmpEq _ _ _ | .cmpNe _ _ _ | .cmpLt _ _ _ | .cmpLe _ _ _ | .cmpGt _ _ _ | .cmpGe _ _ _ => true
  | .cmpmEq _ _ _ | .cmpmNe _ _ _ | .cmpmLt _ _ _ | .cmpmLe _ _ _ | .cmpmGt _ _ _ | .cmpmGe _ _ _ => true
  | _ => false

/-- EXPORT, the only command that writes PBUF and PBDESC (10_state.md R39, 20_memory.md R48). -/
def writesPacked : Instr → Bool
  | .exportV _ => true
  | _ => false

/-! ### What a state keeps -/

/-- Every value register but V[i] is the same. -/
def State.SameRegsBut (s t : State) (i : RegIx) : Prop := ∀ j, j ≠ i → t.reg j = s.reg j

/-- Every value register is the same. -/
def State.SameRegs (s t : State) : Prop := ∀ j, t.reg j = s.reg j

/-- EQ and LT are the same. -/
def State.SameFlags (s t : State) : Prop := t.eq = s.eq ∧ t.lt = s.lt

/-- PBDESC and every PBUF word are the same. -/
def State.SamePacked (s t : State) : Prop := t.pbdesc = s.pbdesc ∧ ∀ k, t.pbufWord k = s.pbufWord k

/-- The run state, CAUSE, INFO, FCMD_LO and FCMD_HI are the same. -/
structure State.SameReport (s t : State) : Prop where
  run    : t.run = s.run
  cause  : t.cause = s.cause
  info   : t.info = s.info
  fcmdLo : t.fcmdLo = s.fcmdLo
  fcmdHi : t.fcmdHi = s.fcmdHi

/-- The parameters, CMD_LO, CMD_HI, the level of `rst`, the read data, the reset counter and the pending inputs are the
same. -/
structure State.SamePort (s t : State) : Prop where
  params : t.params = s.params
  cmdLo  : t.cmdLo = s.cmdLo
  cmdHi  : t.cmdHi = s.cmdHi
  rst    : t.rst = s.rst
  rdata  : t.rdata = s.rdata
  draws  : t.draws = s.draws
  events : t.events = s.events

/-- The frame of a command that writes one register: V[rd] and CMDCNT (by one) may differ, nothing else. -/
structure State.OnlyReg (s t : State) (rd : RegIx) : Prop where
  regs   : s.SameRegsBut t rd
  flags  : s.SameFlags t
  packed : s.SamePacked t
  report : s.SameReport t
  port   : s.SamePort t
  count  : t.cmdcnt = s.cmdcnt + 1

/-- Nothing but the pending inputs differs. -/
structure State.OnlyEvents (s t : State) : Prop where
  regs   : s.SameRegs t
  flags  : s.SameFlags t
  packed : s.SamePacked t
  report : s.SameReport t
  params : t.params = s.params
  cmdLo  : t.cmdLo = s.cmdLo
  cmdHi  : t.cmdHi = s.cmdHi
  rst    : t.rst = s.rst
  rdata  : t.rdata = s.rdata
  draws  : t.draws = s.draws
  count  : t.cmdcnt = s.cmdcnt

/-- What fault entry leaves (60_exceptions.md R147): the report of cause `c` with word `info`; flags, PBUF, PBDESC, CMDCNT
and the port as before. The registers are not said here. -/
structure State.FaultEntered (s t : State) (c : Cause) (info : Word32) : Prop where
  run    : t.run = .fault
  status : t.status.getLsbD 0 = true
  cause  : t.cause = c
  info   : t.info = info
  fcmdLo : t.fcmdLo = s.cmdLo
  fcmdHi : t.fcmdHi = s.cmdHi
  flags  : s.SameFlags t
  packed : s.SamePacked t
  port   : s.SamePort t
  count  : t.cmdcnt = s.cmdcnt

/-! ### What a command does -/

/-- The command completes, leaving value z in format f in V[rd] and changing nothing else but CMDCNT. -/
def State.Gives (s : State) (i : Instr) (rd : RegIx) (f : Format) (z : Int) : Prop :=
  ∃ t, exec i s = .next t ∧ (t.reg rd).Is f z ∧ s.OnlyReg t rd

/-- The command raises cause `c` with word `info` and changes nothing else (60_exceptions.md R147, R148). -/
def State.Raises (s : State) (i : Instr) (c : Cause) (info : Word32) : Prop :=
  ∃ t, exec i s = .next t ∧ s.FaultEntered t c info ∧ s.SameRegs t

/-- The command writes Zero in format f to V[rd] and then raises E_DIV0 (60_exceptions.md R148). -/
def State.RaisesDiv0 (s : State) (i : Instr) (rd : RegIx) (f : Format) (info : Word32) : Prop :=
  ∃ t, exec i s = .next t ∧ s.FaultEntered t .div0 info ∧ (t.reg rd).Is f 0 ∧ s.SameRegsBut t rd

/-- The command word of these fields decodes to the command (30_encoding.md R60, R65). -/
def Encodes (f : CmdFields) (i : Instr) : Prop := decode f.toBits = some i

/-- The RA check of 60_exceptions.md R143: INFO is (1 << 4) | ra. -/
def State.ChecksRa (s : State) (i : Instr) (ra : RegIx) : Prop :=
  (s.reg ra).sign = .uninit → s.Raises i .uninit (BitVec.ofNat 32 (16 + ra.toNat))

/-- The checks of RA, then RB (60_exceptions.md R143): INFO is (2 << 4) | rb for RB. -/
def State.ChecksRaRb (s : State) (i : Instr) (ra rb : RegIx) : Prop :=
  s.ChecksRa i ra ∧
    (s.Readable ra → (s.reg rb).sign = .uninit → s.Raises i .uninit (BitVec.ofNat 32 (32 + rb.toNat)))

/-- A command that asks for width w: E_CAPACITY with INFO min(w, 0xFFFFFFFF) above WMAX (60_exceptions.md R145), and
`does` otherwise. -/
def State.UpToWmax (s : State) (i : Instr) (w : Nat) (does : Prop) : Prop :=
  (s.params.wmax < w → s.Raises i .capacity (BitVec.ofNat 32 (min w 4294967295))) ∧ (w ≤ s.params.wmax → does)

/-- The command completes in the format f with the value of f congruent to z modulo 2^w (00_scope.md R10). -/
def State.GivesReduced (s : State) (i : Instr) (rd : RegIx) (f : Format) (z : Int) : Prop :=
  ∃ y, s.Gives i rd f y ∧ f.holds y ∧ (2 : Int) ^ f.width ∣ y - z

/-- The command completes in the format f with the value of f whose bits below the width are `bits`. -/
def State.GivesBits (s : State) (i : Instr) (rd : RegIx) (f : Format) (bits : Nat → Bool) : Prop :=
  ∃ y, s.Gives i rd f y ∧ f.holds y ∧ ∀ j, j < f.width → bitOf y j = bits j

/-- The command completes, changing nothing but CMDCNT. -/
def State.OnlyCounts (s : State) (i : Instr) : Prop :=
  ∃ t, exec i s = .next t ∧ s.SameRegs t ∧ s.SameFlags t ∧ s.SamePacked t ∧ s.SameReport t ∧ s.SamePort t ∧
    t.cmdcnt = s.cmdcnt + 1

/-- The command completes as a comparison of x and y (44_compare.md R115 to R117): V[rd] is U1 `holds`, EQ is x = y, LT is
x < y, nothing else changes but CMDCNT. -/
def State.Compares (s : State) (i : Instr) (rd : RegIx) (x y : Int) (holds : Prop) : Prop :=
  ∃ t, exec i s = .next t ∧
    (holds → (t.reg rd).Is { variant := .unsigned, width := 1 } 1) ∧
    (¬holds → (t.reg rd).Is { variant := .unsigned, width := 1 } 0) ∧
    (t.eq = true ↔ x = y) ∧ (t.lt = true ↔ x < y) ∧
    s.SameRegsBut t rd ∧ s.SamePacked t ∧ s.SameReport t ∧ s.SamePort t ∧ t.cmdcnt = s.cmdcnt + 1

/-- The same state with a pending input in front of `rest`. -/
def State.pending (s : State) (e : HostEvent) (rest : List HostEvent) : State := { s with events := e :: rest }

/-- The word, issued by a host write to CMD_HI with its low half in CMD_LO while READY and not in reset, raises E_ILLEGAL
with INFO 0 and changes nothing else (60_exceptions.md R142). -/
def State.WordIsIllegal (s : State) (c : Command) : Prop :=
  ∀ rest, s.rst = false → s.run = .ready →
    let low := { s with cmdLo := c.extractLsb' 0 32 }
    let issued := { low with cmdHi := c.extractLsb' 32 32, events := rest }
    ∃ t, step (low.pending (.write (s.params.base + 0x024) (c.extractLsb' 32 32)) rest) = .next t ∧
      issued.FaultEntered t .illegal 0 ∧ issued.SameRegs t

/-- The two quantities a CMP (values) or CMPM (magnitudes) compares (44_compare.md R115); none for other commands. -/
def State.compared (s : State) : Instr → Option (Int × Int)
  | .cmpEq _ ra rb | .cmpNe _ ra rb | .cmpLt _ ra rb | .cmpLe _ ra rb | .cmpGt _ ra rb | .cmpGe _ ra rb =>
    some ((s.reg ra).val, (s.reg rb).val)
  | .cmpmEq _ ra rb | .cmpmNe _ ra rb | .cmpmLt _ ra rb | .cmpmLe _ ra rb | .cmpmGt _ ra rb | .cmpmGe _ ra rb =>
    some (((s.reg ra).val.natAbs : Int), ((s.reg rb).val.natAbs : Int))
  | _ => none

/-- The commands of a program, performed in order from READY, complete without a fault and leave in each listed register
the value of its format congruent to the listed number (00_scope.md R10), and every other value register as it was. -/
def State.Leaves (s : State) (program : List Instr) (results : List (RegIx × Format × Int)) : Prop :=
  ∃ t, performAll program s = .next t ∧ t.run = .ready ∧
    (∀ r ∈ results, ∃ y, (t.reg r.1).Is r.2.1 y ∧ r.2.1.holds y ∧ (2 : Int) ^ r.2.1.width ∣ y - r.2.2) ∧
    ∀ j, (∀ r ∈ results, r.1 ≠ j) → t.reg j = s.reg j

/-- The result format of a compound operator's command (00_scope.md R15). -/
def CompoundOp.resultFormat (op : CompoundOp) (a b : Format) : Format :=
  match op with
  | .add | .sub => rfmtAdd a b
  | .mul => rfmtMul a b
  | .div => rfmtDiv a b
  | .mod => rfmtMod a b
  | .and | .or | .xor => rfmtBitwise a b

/-- The exact integer result of a compound operator (41_arith.md R101, 42_bitwise.md R105). -/
def CompoundOp.exact (op : CompoundOp) (x y : Int) : Int :=
  match op with
  | .add => x + y
  | .sub => x - y
  | .mul => x * y
  | .div => x.tdiv y
  | .mod => x.tmod y
  | .and => intAnd x y
  | .or => intOr x y
  | .xor => intXor x y

/-- An input that is no reset: a read, or a write that is not one to CTRL with bit 0 set. -/
def HostEvent.NoReset (base : Word32) : HostEvent → Prop
  | .read _ => True
  | .write addr data => addr = base + 0x028 → data.getLsbD 0 = false
  | .rst _ => False

/-- The same core with another digit size (00_scope.md R5). -/
def State.withBpd (s : State) (bpd : Nat) : State := { s with params := { s.params with bpd := bpd } }

/-! ### States that differ only in what no command can read (10_state.md R26) -/

/-- Two registers with the same value, or both UNINIT. -/
def Reg.Alike (a b : Reg) : Prop := a = b ∨ (a.sign = .uninit ∧ b.sign = .uninit)

/-- Two states that differ only in the variant, width and magnitude of UNINIT registers. -/
structure State.Alike (s t : State) : Prop where
  regs : ∀ i, (s.reg i).Alike (t.reg i)
  rest : { s with regs := t.regs } = t

end Sys2Proof.Machine
end

