-- ==== Sys2Proof/Certificates/Slice0/Obligations.lean ====
section
/-! DEFINITION. The statements for the provers. Each docstring names the rule of spec/ it formalises. -/

open Sys2Proof Sys2Proof.Machine

/-- For every command i, with every operand at every value its field can hold, decode (encode i) is i. Derived from R60
and R65. [30_encoding.md R60; 30_encoding.md R65] -/
def Obligations.DecodeOfEncodeIsTheCommand : Prop :=
  ∀ i : Instr, decode (encode i) = some i

/-- For every 64-bit word c and command i, if c decodes to i then encode i is c: no bit of a legal word is ignored, so
each command has one word. [30_encoding.md R64; 30_encoding.md R65] -/
def Obligations.EncodeOfDecodeIsTheWord : Prop :=
  ∀ (c : Command) (i : Instr), decode c = some i → encode i = c

/-- For every 64-bit word, the decoder gives a command exactly when the word has an assigned opcode, zero in RES and in
every field its row does not use or fix, and a condition code of at most 5 (the check of WellFormed.lean, written
without the decoder). [30_encoding.md R64; 30_encoding.md R65; 30_encoding.md R66; 30_encoding.md R67] -/
def Obligations.DecoderAcceptsExactlyTheLegalWords : Prop :=
  ∀ c : Command, (decode c).isSome = (CmdFields.ofBits c).wellFormed

/-- For every word: if it matches a row of opcode_table.json (word AND mask = match) it decodes to a command with that
row's mnemonic; if it decodes to a command, it matches a row with that command's mnemonic; and it matches at most one
row. [30_encoding.md R64; 30_encoding.md R65; 30_encoding.md R72; opcode_table.json] -/
def Obligations.DecoderFollowsTheOpcodeTable : Prop :=
  (∀ c : Command, ∀ r ∈ opcodeTable, r.holds c = true → ∃ i, decode c = some i ∧ i.mnemonic = r.mnemonic) ∧
  (∀ (c : Command) (i : Instr), decode c = some i → ∃ r ∈ opcodeTable, r.holds c = true ∧ r.mnemonic = i.mnemonic) ∧
  (∀ c : Command, ∀ r ∈ opcodeTable, ∀ q ∈ opcodeTable, r.holds c = true → q.holds c = true → r = q)

/-- The words the spec writes for ADD r3,r1,r2, SHL r2,r1,#2, FMT.S r1,#8, LDI.S r1,#-5, CMP.LT r3,r1,r2, RANGE
r2,r1,#3,#1, EXPORT r1, CAST.S r2,r0, MODI r1,r0,#10 and SIGD r5,r3 decode to these commands. [30_encoding.md R70;
95_test_vectors.md section 1.1] -/
def Obligations.WordsOfTheSpecDecode : Prop :=
  decode 0x1031200000000000 = some (.add 3 1 2) ∧
  decode 0x2821080000000002 = some (.shlImm 2 1 2) ∧
  decode 0x0110040000000008 = some (.fmtS 1 8) ∧
  decode 0x02100200FFFFFFFB = some (.ldiS 1 0xFFFFFFFB) ∧
  decode 0x3031200200000000 = some (.cmpLt 3 1 2) ∧
  decode 0x3C21000000030001 = some (.range 2 1 3 1) ∧
  decode 0x0701000000000000 = some (.exportV 1) ∧
  decode 0x0420040000000000 = some (.castS 2 0) ∧
  decode 0x1C1000000000000A = some (.modi 1 0 10) ∧
  decode 0x4053000000000000 = some (.sigd 5 3)

/-- When the oldest pending input is a host write of data to CMD_HI, rst is not asserted, the core is READY and the word
(data, CMD_LO) decodes to i, then the step is exec i at the state in which that input is served and CMD_HI holds data.
[30_encoding.md R72; 10_state.md R20; 10_state.md R40; 70_reset_and_hazards.md R176] -/
def Obligations.StepRunsTheDecodedCommand : Prop :=
  ∀ (s : State) (data : Word32) (rest : List HostEvent) (i : Instr),
    s.rst = false → s.run = .ready → decode (data ++ s.cmdLo) = some i →
    step (s.pending (.write (s.params.base + 0x024) data) rest) = exec i { s with events := rest, cmdHi := data }

/-- When the oldest pending input is a host write of data to CMD_HI, rst is not asserted, the core is READY and the word
(data, CMD_LO) matches no row of opcode_table.json, the step enters FAULT with cause E_ILLEGAL and INFO 0 and no other
effect. The three ways R142 names match no row: an unassigned opcode, a 1 in a field the row does not use or fix, CC =
6 or 7 in CMP or CMPM. [R142] -/
def Obligations.WordMatchingNoRowRaisesIllegal : Prop :=
  (∀ (s : State) (data : Word32) (rest : List HostEvent),
    s.rst = false → s.run = .ready → (∀ r ∈ opcodeTable, r.holds (data ++ s.cmdLo) = false) →
    ∃ t, step (s.pending (.write (s.params.base + 0x024) data) rest) = .next t ∧
      ({ s with events := rest, cmdHi := data } : State).FaultEntered t .illegal 0 ∧
      ({ s with events := rest, cmdHi := data } : State).SameRegs t) ∧
  (∀ f : CmdFields, f.uses = none ∨ (∃ u, f.uses = some u ∧ f.unusedZero u = false) ∨ (f.op = 0x30 ∧ 6 ≤ f.cc.toNat) →
    ∀ r ∈ opcodeTable, r.holds f.toBits = false)

/-- For each of the ranges of OP that R66 lists, every word with that OP, issued by a host write to CMD_HI while READY and
not in reset, enters FAULT with cause E_ILLEGAL and INFO 0 and no other effect. [R66] -/
def Obligations.UnassignedOpcodesRaiseIllegal : Prop :=
  ∀ (s : State) (data : Word32) (rest : List HostEvent),
    s.rst = false → s.run = .ready →
    (let op := (data >>> 24).toNat
     (0x08 ≤ op ∧ op ≤ 0x0F) ∨ op = 0x16 ∨ op = 0x17 ∨ (0x1D ≤ op ∧ op ≤ 0x1F) ∨ (0x24 ≤ op ∧ op ≤ 0x27) ∨
     (0x2A ≤ op ∧ op ≤ 0x2F) ∨ (0x31 ≤ op ∧ op ≤ 0x37) ∨ (0x3D ≤ op ∧ op ≤ 0x3F) ∨ 0x42 ≤ op) →
    ∃ t, step (s.pending (.write (s.params.base + 0x024) data) rest) = .next t ∧
      ({ s with events := rest, cmdHi := data } : State).FaultEntered t .illegal 0 ∧
      ({ s with events := rest, cmdHi := data } : State).SameRegs t

/-- In FAULT with rst not asserted, a write to CMD_HI changes CMD_HI and nothing else. A write of CMD_LO stores it, a
write of a PBUF word stores it, a write to CTRL with bit 0 set is a soft reset and with bit 0 clear does nothing, and
a read returns what the same read returns in the READY state with the same contents, STATUS bit 0 apart. [R150] -/
def Obligations.FaultStateIgnoresCommandsOnly : Prop :=
  ∀ (s : State) (data : Word32) (rest : List HostEvent), s.run = .fault → s.rst = false →
    step (s.pending (.write (s.params.base + 0x024) data) rest) = .next { s with events := rest, cmdHi := data } ∧
    step (s.pending (.write (s.params.base + 0x020) data) rest) = .next { s with events := rest, cmdLo := data } ∧
    (∀ k : Nat, k < s.params.npw → s.params.valid →
      step (s.pending (.write (s.params.base + BitVec.ofNat 32 (0x100 + 4 * k)) data) rest) =
        .next { s with events := rest, pbuf := s.pbuf.write k data }) ∧
    step (s.pending (.write (s.params.base + 0x028) data) rest) =
      .next (if data.getLsbD 0 then ({ s with events := rest } : State).softReset else { s with events := rest }) ∧
    (∀ (addr d : Word32) (t : State), addr ≠ s.params.base + 0x008 →
      step (({ s with run := .ready } : State).pending (.read addr) rest) = .next t → t.rdata = d →
      step (s.pending (.read addr) rest) = .next { s with events := rest, rdata := d })

/-- If a step goes from FAULT to READY, its input was a new level of rst or a host write to CTRL with bit 0 set, and every
value register is UNINIT afterwards. In READY and in FAULT, with rst not asserted, a host write to CTRL with bit 0 set
gives every item of the table of R170 its reset value, keeps every PBUF word, the parameters behind ID and PARAM, and
everything else. Asserting rst in any state returns the core to READY with every value register UNINIT. [R151; R171] -/
def Obligations.OnlyResetsLeaveFault : Prop :=
  (∀ s t : State, s.run = .fault → step s = .next t → t.run = .ready →
    (∃ rest, (∃ level, s.events = .rst level :: rest) ∨
      (∃ data, s.events = .write (s.params.base + 0x028) data :: rest ∧ data.getLsbD 0 = true)) ∧
    ∀ i, (t.reg i).sign = .uninit) ∧
  (∀ (s : State) (data : Word32) (rest : List HostEvent), s.rst = false → data.getLsbD 0 = true →
    ∃ t, step (s.pending (.write (s.params.base + 0x028) data) rest) = .next t ∧ t.AtReset ∧
      (∀ k, t.pbufWord k = s.pbufWord k) ∧ t.params = s.params ∧ t.rst = false ∧ t.rdata = s.rdata ∧
      t.draws = s.draws ∧ t.events = rest) ∧
  (∀ (s : State) (rest : List HostEvent), ∃ t, step (s.pending (.rst true) rest) = .next t ∧ t.AtReset)

/-- From every state in FAULT with rst not asserted whose pending inputs hold no reset, after any number of steps the core
is still in FAULT with the same CAUSE, INFO, FCMD_LO, FCMD_HI, flags, value registers, PBDESC and CMDCNT.
[60_exceptions.md R140; 60_exceptions.md R150; 60_exceptions.md R151; 70_reset_and_hazards.md R173] -/
def Obligations.FaultIsStickyAlongEveryRun : Prop :=
  ∀ (n : Nat) (s t : State), s.run = .fault → s.rst = false → (∀ e ∈ s.events, e.NoReset s.params.base) →
    Host.Core.run Sys2Proof.core n s = .next t →
    s.SameReport t ∧ s.SameFlags t ∧ s.SameRegs t ∧ t.pbdesc = s.pbdesc ∧ t.cmdcnt = s.cmdcnt

/-- Asserting rst, and deasserting it while asserted, gives in that step every item of the table of R170 its reset value,
keeps the parameters behind ID and PARAM, and makes each PBUF word the draw of that reset. While rst is asserted a
host read returns 0 and changes nothing else and a host write changes nothing. From a state that is reset and held,
the state stays the reset state. No command is executed: CMDCNT is 0. [R170] -/
def Obligations.HardwareResetSetsTheTable : Prop :=
  (∀ (s : State) (rest : List HostEvent) (level : Bool), (level = true ∨ s.rst = true) →
    ∃ t, step (s.pending (.rst level) rest) = .next t ∧ t.AtReset ∧ (∀ k, t.pbufWord k = Config.pbufDraw t.draws k) ∧
      t.params = s.params ∧ t.rst = level ∧ t.events = rest) ∧
  (∀ (s : State) (rest : List HostEvent) (addr data : Word32), s.rst = true →
    step (s.pending (.read addr) rest) = .next { s with events := rest, rdata := 0 } ∧
    step (s.pending (.write addr data) rest) = .next { s with events := rest }) ∧
  (∀ s t : State, s.rst = true → s.AtReset → step s = .next t → t.AtReset)

/-- With rst not asserted, a host read at any bus address changes no state but the read data of the port (and consumes the
input). At an offset that is not a multiple of 4, in 0x030 to 0x0FC, at CTRL, or at and above 0x100 + 4*NPW, the data
is 0. At 0x100 + 4k with k < NPW it is PBUF word k. [20_memory.md R46; 20_memory.md R54; 20_memory.md R47; 10_state.md
R32] -/
def Obligations.HostReadsHaveNoSideEffect : Prop :=
  ∀ (s : State) (rest : List HostEvent) (off : Word32), s.rst = false → s.params.valid →
    ∃ d, step (s.pending (.read (s.params.base + off)) rest) = .next { s with events := rest, rdata := d } ∧
      (off.toNat % 4 ≠ 0 ∨ off = 0x028 ∨ (0x030 ≤ off.toNat ∧ off.toNat ≤ 0x0FC) ∨
        0x100 + 4 * s.params.npw ≤ off.toNat → d = 0) ∧
      (∀ k : Nat, k < s.params.npw → off = BitVec.ofNat 32 (0x100 + 4 * k) → d = s.pbufWord k)

/-- With rst not asserted, a host read gives: at 0x000 the constant 0x4C414234; at 0x004 WMAX + 16 * 2^16 + 32 * 2^24,
which is 0x20101000 for the default parameters (32 for every digit size is the model's reading, log 19); at 0x008 bit
0 set in FAULT, bit 1 EQ, bit 2 LT, the rest 0; at 0x00C the cause code 0 to 5; at 0x010, 0x014, 0x018, 0x01C, 0x020,
0x024 and 0x02C the registers INFO, FCMD_LO, FCMD_HI, PBDESC, CMD_LO, CMD_HI and CMDCNT; at 0x028 (CTRL) 0. err_o is
STATUS bit 0. STATUS is 0 after reset. A write to ID, PARAM or STATUS changes nothing, and no step changes the
parameters (that BPD and BASE stand in State and never change is the model's choice, log 1). [10_state.md R32;
10_state.md R33 to R35; 10_state.md R36 to R38; 10_state.md R39 to R42; 10_state.md R44; 00_scope.md R5; log 1; log
19] -/
def Obligations.ControlRegistersReadAsTheSpecSays : Prop :=
  (∀ (s : State) (rest : List HostEvent), s.rst = false → s.params.valid →
    let reads (off d : Word32) : Prop :=
      step (s.pending (.read (s.params.base + off)) rest) = .next { s with events := rest, rdata := d }
    reads 0x000 0x4C414234 ∧
    reads 0x004 (BitVec.ofNat 32 (s.params.wmax + 16 * 2 ^ 16 + 32 * 2 ^ 24)) ∧
    reads 0x008 (BitVec.ofNat 32 ((if s.run = .fault then 1 else 0) + (if s.eq then 2 else 0) + (if s.lt then 4 else 0))) ∧
    reads 0x00C (match s.cause with
      | .noFault => 0 | .illegal => 1 | .uninit => 2 | .badWidth => 3 | .capacity => 4 | .div0 => 5) ∧
    reads 0x010 s.info ∧ reads 0x014 s.fcmdLo ∧ reads 0x018 s.fcmdHi ∧ reads 0x01C s.pbdesc ∧
    reads 0x020 s.cmdLo ∧ reads 0x024 s.cmdHi ∧ reads 0x028 0 ∧ reads 0x02C s.cmdcnt ∧
    ∀ data : Word32, ∀ off ∈ [(0x000 : Word32), 0x004, 0x008],
      step (s.pending (.write (s.params.base + off) data) rest) = .next { s with events := rest }) ∧
  (∀ s : State, s.errO = s.status.getLsbD 0) ∧
  BitVec.ofNat 32 (Params.default.wmax + 16 * 2 ^ 16 + 32 * 2 ^ 24) = (0x20101000 : Word32) ∧
  State.reset.status = 0 ∧
  (∀ s t : State, step s = .next t → t.params = s.params)

/-- With rst not asserted: a write to CMD_LO stores the word and changes nothing else; a write of PBUF word k changes that
word and no other state; a write to a read-only register, to CTRL with bit 0 clear, to a reserved, misaligned or
unmapped offset changes nothing. [20_memory.md R46; 20_memory.md R47; 20_memory.md R54; 20_memory.md R55; 10_state.md
R32; 10_state.md R40; 10_state.md R41] -/
def Obligations.HostWritesStoreOrDoNothing : Prop :=
  ∀ (s : State) (data : Word32) (rest : List HostEvent) (off : Word32), s.rst = false → s.params.valid →
    (off = 0x020 → step (s.pending (.write (s.params.base + off) data) rest) =
      .next { s with events := rest, cmdLo := data }) ∧
    (∀ k : Nat, k < s.params.npw → off = BitVec.ofNat 32 (0x100 + 4 * k) →
      ∃ t, step (s.pending (.write (s.params.base + off) data) rest) = .next t ∧
        (∀ j, t.pbufWord j = if j = k then data else s.pbufWord j) ∧
        { t with pbuf := s.pbuf } = { s with events := rest }) ∧
    (off.toNat % 4 ≠ 0 ∨ off.toNat ≤ 0x01C ∨ (off = 0x028 ∧ data.getLsbD 0 = false) ∨ off = 0x02C ∨
        (0x030 ≤ off.toNat ∧ off.toNat ≤ 0x0FC) ∨ 0x100 + 4 * s.params.npw ≤ off.toNat →
      step (s.pending (.write (s.params.base + off) data) rest) = .next { s with events := rest })

/-- For every state the step answers a next state: no fault outcome, no refusal. With nothing pending the state stays
(that idle step is the model's choice, log 3). [10_state.md R20; 60_exceptions.md R140; 70_reset_and_hazards.md R181] -/
def Obligations.EveryStepAnswersANextState : Prop :=
  (∀ s : State, ∃ t, step s = .next t) ∧ (∀ s : State, s.events = [] → step s = .next s)

/-- State.reset has every item of the table of R170 at its reset value, the default parameters WMAX = 4096 and BPD = 32 of
R5, every PBUF word a draw, and meets the invariant. That nothing is pending, that the read data is 0 and that BASE is
0 are the model's choices (logs 2, 3 and 5). [70_reset_and_hazards.md R170; 00_scope.md R5; log 2; log 3; log 5; log
7] -/
def Obligations.ResetStateIsTheReset : Prop :=
  State.reset.AtReset ∧ State.reset.Inv ∧ State.reset.params.wmax = 4096 ∧ State.reset.params.bpd = 32 ∧
  (∀ k, State.reset.pbufWord k = Config.pbufDraw State.reset.draws k) ∧
  State.reset.events = [] ∧ State.reset.rdata = 0 ∧ State.reset.params.base = 0

/-- For every state that meets the invariant, the state after a step meets it: legal parameters; every register that is
not UNINIT has width 1 to WMAX, sign ZERO exactly when its magnitude is 0, never NEG when Unsigned, and a value in the
range of its format; EQ and LT never both 1; a READY core has CAUSE, INFO and FCMD 0, a FAULT core a cause; PBDESC's
reserved bits 0, SIGN never 0b11, and 0 until VALID; PBUF canonical and inside NPW words; the reset state while rst is
asserted. [10_state.md R23; 10_state.md R36; 10_state.md R39; 20_memory.md R48; 44_compare.md R117;
70_reset_and_hazards.md R170] -/
def Obligations.EveryStepKeepsTheInvariant : Prop :=
  ∀ s t : State, s.Inv → step s = .next t → t.Inv

/-- For every command, in every state, every value register other than the command's RD is unchanged; NOP and EXPORT
change no value register. [30_encoding.md R73; 10_state.md R21] -/
def Obligations.OnlyTheDestinationRegisterIsWritten : Prop :=
  ∀ (i : Instr) (s t : State), exec i s = .next t → ∀ j, destOf i ≠ some j → t.reg j = s.reg j

/-- For every command: EQ and LT are unchanged unless it is a CMP or CMPM; PBDESC and every PBUF word are unchanged unless
it is EXPORT; and if it enters FAULT from READY all of these are unchanged. No command changes CMD_LO, CMD_HI, the
parameters, rst, the read data, the reset counter or the pending inputs. [10_state.md R29; 10_state.md R39;
20_memory.md R48] -/
def Obligations.OnlyCompareAndExportWriteFlagsAndBuffer : Prop :=
  ∀ (i : Instr) (s t : State), exec i s = .next t →
    (writesFlags i = false → s.SameFlags t) ∧ (writesPacked i = false → s.SamePacked t) ∧
    (s.run = .ready → t.run = .fault → s.SameFlags t ∧ s.SamePacked t) ∧ s.SamePort t

/-- A command performed in READY either leaves the core READY and adds 1 modulo 2^32 to CMDCNT, or leaves it in FAULT with
CMDCNT unchanged. A command ignored in FAULT leaves CMDCNT unchanged. CMDCNT is 0 after reset. [R30] -/
def Obligations.CmdcntCountsCompletedCommands : Prop :=
  (∀ (i : Instr) (s t : State), s.run = .ready → exec i s = .next t →
    (t.run = .ready ∧ t.cmdcnt = BitVec.ofNat 32 ((s.cmdcnt.toNat + 1) % 2 ^ 32)) ∨
    (t.run = .fault ∧ t.cmdcnt = s.cmdcnt)) ∧
  (∀ (s t : State) (data : Word32) (rest : List HostEvent), s.run = .fault → s.rst = false →
    step (s.pending (.write (s.params.base + 0x024) data) rest) = .next t → t.cmdcnt = s.cmdcnt) ∧
  State.reset.cmdcnt = 0

/-- For every command performed in READY that ends in FAULT: the report names a cause with the faulting word in FCMD;
flags, PBUF, PBDESC, CMDCNT and the port are unchanged; and either no value register changed, or the cause is E_DIV0,
the command is DIV, MOD, DIVI or MODI, V[RD] holds Zero and no other value register changed. [60_exceptions.md R140;
60_exceptions.md R147; 60_exceptions.md R148] -/
def Obligations.FaultsArePrecise : Prop :=
  ∀ (i : Instr) (s t : State), s.run = .ready → exec i s = .next t → t.run = .fault →
    ∃ c info, c ≠ .noFault ∧ s.FaultEntered t c info ∧
      (s.SameRegs t ∨
        (c = .div0 ∧ ∃ rd, destOf i = some rd ∧ (t.reg rd).sign = .zero ∧ s.SameRegsBut t rd ∧
          ((∃ ra rb, i = .div rd ra rb ∨ i = .mod rd ra rb) ∨ ∃ ra imm, i = .divi rd ra imm ∨ i = .modi rd ra imm)))

/-- For every command, a register that holds a value holds one afterwards, and a register that is UNINIT before and not
after is the command's RD. Every register is UNINIT after reset. [10_state.md R26; 70_reset_and_hazards.md R170] -/
def Obligations.NoCommandMakesARegisterUninit : Prop :=
  (∀ (i : Instr) (s t : State), exec i s = .next t → ∀ j, s.Readable j → t.Readable j) ∧
  (∀ (i : Instr) (s t : State), exec i s = .next t → ∀ j, (s.reg j).sign = .uninit → t.Readable j → destOf i = some j) ∧
  (∀ j, (State.reset.reg j).sign = .uninit)

/-- Take two states that differ only in the variant, width and magnitude of registers that are UNINIT in both. After a
step they again differ at most so: every value register that holds a value, every control register, PBUF, the read
data and the pending inputs agree. [10_state.md R26; 93_implementation_defined.md U11] -/
def Obligations.UninitContentsAreNeverRead : Prop :=
  ∀ s s' : State, s.Alike s' → ∃ t t', step s = .next t ∧ step s' = .next t' ∧ t.Alike t'

/-- For every command, if (f, r) is the first UNINIT one of the registers it reads in the order RA, RB, RD (RD only for
LDI and CVT), it raises E_UNINIT with INFO (f << 4) | r, f = 0 for RD, 1 for RA, 2 for RB, and does nothing else. A
command performed in READY ends with cause E_UNINIT only if one of these registers is UNINIT. [R143] -/
def Obligations.UninitOperandsFaultInOrder : Prop :=
  (∀ (i : Instr) (s : State) (f : OperandField) (r : RegIx),
    (readsOf i).find? (fun p => decide ((s.reg p.2).sign = .uninit)) = some (f, r) →
    s.Raises i .uninit
      (BitVec.ofNat 32 ((match f with | .rd => 0 | .ra => 1 | .rb => 2) * 16 + r.toNat))) ∧
  (∀ (i : Instr) (s t : State), s.run = .ready → exec i s = .next t → t.run = .fault → t.cause = .uninit →
    ∃ p ∈ readsOf i, (s.reg p.2).sign = .uninit)

/-- The all-zero word is NOP; a word with OP = 0 and any other bit 1 raises E_ILLEGAL with INFO 0 and changes nothing
else. NOP completes in every state and changes CMDCNT by one and nothing else. [R80] -/
def Obligations.NopOnlyCounts : Prop :=
  decode 0 = some .nop ∧
  (∀ (s : State) (c : Command), c.extractLsb' 56 8 = 0 → c ≠ 0 → s.WordIsIllegal c) ∧
  (∀ s : State, s.OnlyCounts .nop)

/-- FMT.U and FMT.S with width w = zext32(IMM): w = 0 raises E_BADWIDTH with INFO 0, w above WMAX raises E_CAPACITY, any
other w leaves V[RD] Zero in the format (variant, w) and changes nothing else, whatever V[RD] held. [R81] -/
def Obligations.FmtConstructsZero : Prop :=
  ∀ (s : State) (rd : RegIx) (imm : Word32),
    Encodes { op := 0x01, rd := rd, imm := imm } (.fmtU rd imm) ∧
    Encodes { op := 0x01, rd := rd, v := 1, imm := imm } (.fmtS rd imm) ∧
    (imm = 0 → s.Raises (.fmtU rd imm) .badWidth 0 ∧ s.Raises (.fmtS rd imm) .badWidth 0) ∧
    (imm ≠ 0 →
      s.UpToWmax (.fmtU rd imm) imm.toNat (s.Gives (.fmtU rd imm) rd { variant := .unsigned, width := imm.toNat } 0) ∧
      s.UpToWmax (.fmtS rd imm) imm.toNat (s.Gives (.fmtS rd imm) rd { variant := .signed, width := imm.toNat } 0))

/-- LDI.U and LDI.S raise E_UNINIT with INFO rd if V[RD] is UNINIT; otherwise they leave in V[RD], in its own format, the
value of that format congruent modulo 2^w to IMM read unsigned (LDI.U) or as two's complement (LDI.S), and change
nothing else. [R82] -/
def Obligations.LdiReducesIntoTheReceiver : Prop :=
  ∀ (s : State) (rd : RegIx) (imm : Word32),
    Encodes { op := 0x02, rd := rd, imm := imm } (.ldiU rd imm) ∧
    Encodes { op := 0x02, rd := rd, x := 1, imm := imm } (.ldiS rd imm) ∧
    ((s.reg rd).sign = .uninit →
      s.Raises (.ldiU rd imm) .uninit (BitVec.ofNat 32 rd.toNat) ∧
      s.Raises (.ldiS rd imm) .uninit (BitVec.ofNat 32 rd.toNat)) ∧
    (s.Good rd →
      s.GivesReduced (.ldiU rd imm) rd (s.reg rd).fmt (imm.toNat : Int) ∧
      s.GivesReduced (.ldiS rd imm) rd (s.reg rd).fmt
        (if imm.toNat < 2 ^ 31 then (imm.toNat : Int) else (imm.toNat : Int) - 2 ^ 32))

/-- MOV raises E_UNINIT if V[RA] is UNINIT; otherwise V[RD] holds the value of V[RA] in V[RA]'s format and nothing else
changes. [R83] -/
def Obligations.MovCopiesTheRegister : Prop :=
  ∀ (s : State) (rd ra : RegIx),
    Encodes { op := 0x03, rd := rd, ra := ra } (.mov rd ra) ∧ s.ChecksRa (.mov rd ra) ra ∧
    (s.Readable ra → s.Gives (.mov rd ra) rd (s.reg ra).fmt (s.reg ra).val)

/-- Both raise E_UNINIT if V[RA] is UNINIT. To the variant V[RA] has, they copy it. CAST.S of an Unsigned value keeps the
value at width w + 1, or raises E_CAPACITY if that exceeds WMAX. CAST.U of a Signed value keeps the width and adds 2^w
to a negative value. Nothing else changes. [R84] -/
def Obligations.CastChangesTheVariant : Prop :=
  ∀ (s : State) (rd ra : RegIx),
    Encodes { op := 0x04, rd := rd, ra := ra } (.castU rd ra) ∧
    Encodes { op := 0x04, rd := rd, ra := ra, v := 1 } (.castS rd ra) ∧
    s.ChecksRa (.castU rd ra) ra ∧ s.ChecksRa (.castS rd ra) ra ∧
    (s.Good ra →
      let a := s.reg ra
      (a.variant = .unsigned →
        s.Gives (.castU rd ra) rd a.fmt a.val ∧
        s.UpToWmax (.castS rd ra) (a.width + 1)
          (s.Gives (.castS rd ra) rd { variant := .signed, width := a.width + 1 } a.val)) ∧
      (a.variant = .signed →
        s.Gives (.castS rd ra) rd a.fmt a.val ∧
        s.Gives (.castU rd ra) rd { variant := .unsigned, width := a.width }
          (if a.val < 0 then a.val + 2 ^ a.width else a.val)))

/-- CVT raises E_UNINIT for V[RA], then for V[RD]; otherwise V[RD] keeps its format and holds the value of that format
congruent to val(V[RA]) modulo 2^w, which is val(V[RA]) itself if it fits, and nothing else changes. [R85] -/
def Obligations.CvtReducesIntoTheReceiver : Prop :=
  ∀ (s : State) (rd ra : RegIx),
    Encodes { op := 0x05, rd := rd, ra := ra } (.cvt rd ra) ∧ s.ChecksRa (.cvt rd ra) ra ∧
    (s.Readable ra → (s.reg rd).sign = .uninit → s.Raises (.cvt rd ra) .uninit (BitVec.ofNat 32 rd.toNat)) ∧
    (s.Readable ra → s.Good rd →
      s.GivesReduced (.cvt rd ra) rd (s.reg rd).fmt (s.reg ra).val ∧
      ((s.reg rd).fmt.holds (s.reg ra).val → s.Gives (.cvt rd ra) rd (s.reg rd).fmt (s.reg ra).val))

/-- IMPORT with width w = zext32(IMM): w = 0 raises E_BADWIDTH with INFO 0, w above WMAX raises E_CAPACITY; any other w
leaves in V[RD] the value of the format (variant, w) whose bit j, for j < w, is bit j mod 32 of PBUF word j / 32, and
changes nothing else. V[RD] is not read. A word never written is its reset's draw, the same at every read. After
EXPORT of a register, IMPORT of its width in its variant gives any register the same value in the same format. [R125] -/
def Obligations.ImportReadsThePattern : Prop :=
  ∀ (s : State) (rd : RegIx) (imm : Word32),
    Encodes { op := 0x06, rd := rd, imm := imm } (.importU rd imm) ∧
    Encodes { op := 0x06, rd := rd, v := 1, imm := imm } (.importS rd imm) ∧
    (imm = 0 → s.Raises (.importU rd imm) .badWidth 0 ∧ s.Raises (.importS rd imm) .badWidth 0) ∧
    (imm ≠ 0 →
      s.UpToWmax (.importU rd imm) imm.toNat
        (s.GivesBits (.importU rd imm) rd { variant := .unsigned, width := imm.toNat }
          fun j => (s.pbufWord (j / 32)).getLsbD (j % 32)) ∧
      s.UpToWmax (.importS rd imm) imm.toNat
        (s.GivesBits (.importS rd imm) rd { variant := .signed, width := imm.toNat }
          fun j => (s.pbufWord (j / 32)).getLsbD (j % 32))) ∧
    (∀ k, s.pbuf.read? k = none → s.pbufWord k = Config.pbufDraw s.draws k) ∧
    (s.params.valid → ∀ ra, s.Good ra →
      let a := s.reg ra
      ∃ t u, exec (.exportV ra) s = .next t ∧
        exec (if a.variant = .signed then .importS rd (BitVec.ofNat 32 a.width)
          else .importU rd (BitVec.ofNat 32 a.width)) t = .next u ∧
        (u.reg rd).Is a.fmt a.val)

/-- EXPORT raises E_UNINIT if V[RA] is UNINIT; otherwise bit j of PBUF word k, for k < ceil(w/32), is bit 32k + j of the
two's-complement extension of the value, every other PBUF word is unchanged, PBDESC holds VALID, the sign code 0, 1 or
2, the variant bit and the width, CMDCNT counts the command, and nothing else changes. [R126] -/
def Obligations.ExportWritesThePattern : Prop :=
  ∀ (s : State) (ra : RegIx),
    Encodes { op := 0x07, ra := ra } (.exportV ra) ∧ s.ChecksRa (.exportV ra) ra ∧
    (s.params.valid → s.Good ra →
      let a := s.reg ra
      let words := (a.width + 31) / 32
      ∃ t, exec (.exportV ra) s = .next t ∧
        (∀ k, k < words → ∀ j, j < 32 → (t.pbufWord k).getLsbD j = bitOf a.val (32 * k + j)) ∧
        (∀ k, words ≤ k → t.pbufWord k = s.pbufWord k) ∧
        t.pbdesc = BitVec.ofNat 32 (2 ^ 19 + (if a.val < 0 then 2 else if 0 < a.val then 1 else 0) * 2 ^ 17 +
          (if a.variant = .signed then 2 ^ 16 else 0) + a.width) ∧
        s.SameRegs t ∧ s.SameFlags t ∧ s.SameReport t ∧ s.SamePort t ∧ t.cmdcnt = s.cmdcnt + 1)

/-- ADD raises E_UNINIT for V[RA], then V[RB], raises E_CAPACITY if the result width of R15 exceeds WMAX, and otherwise
leaves val(V[RA]) + val(V[RB]), not reduced, in V[RD] in the result format; nothing else changes. [R90] -/
def Obligations.AddIsExact : Prop :=
  ∀ (s : State) (rd ra rb : RegIx),
    Encodes { op := 0x10, rd := rd, ra := ra, rb := rb } (.add rd ra rb) ∧ s.ChecksRaRb (.add rd ra rb) ra rb ∧
    (s.Good ra → s.Good rb →
      let a := s.reg ra
      let b := s.reg rb
      s.UpToWmax (.add rd ra rb) (rfmtAdd a.fmt b.fmt).width
        (s.Gives (.add rd ra rb) rd (rfmtAdd a.fmt b.fmt) (a.val + b.val)))

/-- SUB raises E_UNINIT for V[RA], then V[RB], raises E_CAPACITY if the result width of R15 exceeds WMAX, and otherwise
leaves in V[RD] the exact difference if the result is Signed or val(V[RA]) >= val(V[RB]), and 2^w + val(V[RA]) -
val(V[RB]) for two Unsigned operands with val(V[RA]) < val(V[RB]), w the result width; nothing else changes. [R91] -/
def Obligations.SubIsExactOrWrapsUnsigned : Prop :=
  ∀ (s : State) (rd ra rb : RegIx),
    Encodes { op := 0x11, rd := rd, ra := ra, rb := rb } (.sub rd ra rb) ∧ s.ChecksRaRb (.sub rd ra rb) ra rb ∧
    (s.Good ra → s.Good rb →
      let a := s.reg ra
      let b := s.reg rb
      let f := rfmtAdd a.fmt b.fmt
      s.UpToWmax (.sub rd ra rb) f.width
        (((f.variant = .signed ∨ b.val ≤ a.val) → s.Gives (.sub rd ra rb) rd f (a.val - b.val)) ∧
         ((f.variant = .unsigned ∧ a.val < b.val) → s.Gives (.sub rd ra rb) rd f (2 ^ f.width + a.val - b.val))))

/-- MUL raises E_UNINIT for V[RA], then V[RB], raises E_CAPACITY if the result width of R15 exceeds WMAX, and otherwise
leaves val(V[RA]) * val(V[RB]) in V[RD] in the result format, which holds it; nothing else changes. [R92] -/
def Obligations.MulIsExact : Prop :=
  ∀ (s : State) (rd ra rb : RegIx),
    Encodes { op := 0x12, rd := rd, ra := ra, rb := rb } (.mul rd ra rb) ∧ s.ChecksRaRb (.mul rd ra rb) ra rb ∧
    (s.Good ra → s.Good rb →
      let a := s.reg ra
      let b := s.reg rb
      (rfmtMul a.fmt b.fmt).holds (a.val * b.val) ∧
      s.UpToWmax (.mul rd ra rb) (rfmtMul a.fmt b.fmt).width
        (s.Gives (.mul rd ra rb) rd (rfmtMul a.fmt b.fmt) (a.val * b.val)))

/-- DIV raises E_UNINIT for V[RA], then V[RB], then E_CAPACITY if the result width of R15 exceeds WMAX. A zero divisor
leaves Zero in the result format in V[RD] and raises E_DIV0 with INFO 1 if the dividend is zero, else 0. Otherwise
V[RD] holds the quotient truncated toward zero in the result format, which holds it; nothing else changes. [R93] -/
def Obligations.DivTruncatesTowardZero : Prop :=
  ∀ (s : State) (rd ra rb : RegIx),
    Encodes { op := 0x13, rd := rd, ra := ra, rb := rb } (.div rd ra rb) ∧ s.ChecksRaRb (.div rd ra rb) ra rb ∧
    (s.Good ra → s.Good rb →
      let a := s.reg ra
      let b := s.reg rb
      let f := rfmtDiv a.fmt b.fmt
      s.UpToWmax (.div rd ra rb) f.width
        ((b.val = 0 → s.RaisesDiv0 (.div rd ra rb) rd f (if a.val = 0 then 1 else 0)) ∧
         (b.val ≠ 0 → f.holds (a.val.tdiv b.val) ∧ s.Gives (.div rd ra rb) rd f (a.val.tdiv b.val))))

/-- MOD raises E_UNINIT for V[RA], then V[RB], then E_CAPACITY if the result width of R15 exceeds WMAX. A zero divisor
leaves Zero in the result format in V[RD] and raises E_DIV0 with INFO 3 if the dividend is zero, else 2. Otherwise
V[RD] holds, in the result format, the remainder r: the dividend minus the divisor times the truncated quotient, |r|
less than |divisor|, r 0 or of the dividend's sign; nothing else changes. [R94] -/
def Obligations.ModHasTheSignOfTheDividend : Prop :=
  ∀ (s : State) (rd ra rb : RegIx),
    Encodes { op := 0x14, rd := rd, ra := ra, rb := rb } (.mod rd ra rb) ∧ s.ChecksRaRb (.mod rd ra rb) ra rb ∧
    (s.Good ra → s.Good rb →
      let a := s.reg ra
      let b := s.reg rb
      let f := rfmtMod a.fmt b.fmt
      s.UpToWmax (.mod rd ra rb) f.width
        ((b.val = 0 → s.RaisesDiv0 (.mod rd ra rb) rd f (if a.val = 0 then 3 else 2)) ∧
         (b.val ≠ 0 → ∃ r, s.Gives (.mod rd ra rb) rd f r ∧ f.holds r ∧ r = a.val - a.val.tdiv b.val * b.val ∧
           r.natAbs < b.val.natAbs ∧ (r = 0 ∨ r.sign = a.val.sign))))

/-- NEG raises E_UNINIT if V[RA] is UNINIT and E_CAPACITY if w + 1 exceeds WMAX. Otherwise V[RD] has V[RA]'s variant and
width w + 1 and holds -val(V[RA]) if V[RA] is Signed or Zero, and 2^(w+1) - val(V[RA]) if it is Unsigned and not Zero;
nothing else changes. [R95] -/
def Obligations.NegIsExactOrWrapsUnsigned : Prop :=
  ∀ (s : State) (rd ra : RegIx),
    Encodes { op := 0x15, rd := rd, ra := ra } (.neg rd ra) ∧ s.ChecksRa (.neg rd ra) ra ∧
    (s.Good ra →
      let a := s.reg ra
      s.UpToWmax (.neg rd ra) (a.width + 1)
        (s.Gives (.neg rd ra) rd { variant := a.variant, width := a.width + 1 }
          (if a.variant = .signed ∨ a.val = 0 then -a.val else 2 ^ (a.width + 1) - a.val)))

/-- ADDI, SUBI and MULI with k = zext32(IMM) raise E_UNINIT if V[RA] is UNINIT; otherwise V[RD] has V[RA]'s format and
holds the value of that format congruent modulo 2^w to val(V[RA]) + k, val(V[RA]) - k, val(V[RA]) * k; nothing else
changes. [R96; R97; R98] -/
def Obligations.ScalarArithmeticWrapsInTheFormat : Prop :=
  ∀ (s : State) (rd ra : RegIx) (imm : Word32),
    Encodes { op := 0x18, rd := rd, ra := ra, imm := imm } (.addi rd ra imm) ∧
    Encodes { op := 0x19, rd := rd, ra := ra, imm := imm } (.subi rd ra imm) ∧
    Encodes { op := 0x1A, rd := rd, ra := ra, imm := imm } (.muli rd ra imm) ∧
    s.ChecksRa (.addi rd ra imm) ra ∧ s.ChecksRa (.subi rd ra imm) ra ∧ s.ChecksRa (.muli rd ra imm) ra ∧
    (s.Good ra →
      let a := s.reg ra
      let k : Int := imm.toNat
      s.GivesReduced (.addi rd ra imm) rd a.fmt (a.val + k) ∧
      s.GivesReduced (.subi rd ra imm) rd a.fmt (a.val - k) ∧
      s.GivesReduced (.muli rd ra imm) rd a.fmt (a.val * k))

/-- DIVI and MODI with k = zext32(IMM) raise E_UNINIT if V[RA] is UNINIT. k = 0 leaves Zero in V[RA]'s format in V[RD] and
raises E_DIV0 with INFO bit 0 the dividend being zero and bit 1 set for MODI. Otherwise V[RD] has V[RA]'s format and
holds the truncated quotient, respectively the remainder of the dividend's sign, which that format holds; nothing else
changes. [R99; R100] -/
def Obligations.ScalarDivisionKeepsTheFormat : Prop :=
  ∀ (s : State) (rd ra : RegIx) (imm : Word32),
    Encodes { op := 0x1B, rd := rd, ra := ra, imm := imm } (.divi rd ra imm) ∧
    Encodes { op := 0x1C, rd := rd, ra := ra, imm := imm } (.modi rd ra imm) ∧
    s.ChecksRa (.divi rd ra imm) ra ∧ s.ChecksRa (.modi rd ra imm) ra ∧
    (s.Good ra →
      let a := s.reg ra
      let k : Int := imm.toNat
      (imm = 0 →
        s.RaisesDiv0 (.divi rd ra imm) rd a.fmt (if a.val = 0 then 1 else 0) ∧
        s.RaisesDiv0 (.modi rd ra imm) rd a.fmt (if a.val = 0 then 3 else 2)) ∧
      (imm ≠ 0 →
        (a.fmt.holds (a.val.tdiv k) ∧ s.Gives (.divi rd ra imm) rd a.fmt (a.val.tdiv k)) ∧
        (a.fmt.holds (a.val.tmod k) ∧ s.Gives (.modi rd ra imm) rd a.fmt (a.val.tmod k))))

/-- AND, OR and XOR raise E_UNINIT for V[RA], then V[RB], and E_CAPACITY if the result width of R15 exceeds WMAX.
Otherwise V[RD] holds, in the result format, the value whose bit j, for every j, is the AND, OR or XOR of bits j of
the two's-complement extensions of the operands, and that format holds it; nothing else changes. [R105; R106; R107;
R108] -/
def Obligations.BitwiseActsOnEveryBit : Prop :=
  ∀ (s : State) (rd ra rb : RegIx),
    Encodes { op := 0x20, rd := rd, ra := ra, rb := rb } (.and rd ra rb) ∧ s.ChecksRaRb (.and rd ra rb) ra rb ∧
    Encodes { op := 0x21, rd := rd, ra := ra, rb := rb } (.or rd ra rb) ∧ s.ChecksRaRb (.or rd ra rb) ra rb ∧
    Encodes { op := 0x22, rd := rd, ra := ra, rb := rb } (.xor rd ra rb) ∧ s.ChecksRaRb (.xor rd ra rb) ra rb ∧
    (s.Good ra → s.Good rb →
      let a := s.reg ra
      let b := s.reg rb
      let f := rfmtBitwise a.fmt b.fmt
      s.UpToWmax (.and rd ra rb) f.width
        (∃ z, s.Gives (.and rd ra rb) rd f z ∧ f.holds z ∧ ∀ j, bitOf z j = (bitOf a.val j && bitOf b.val j)) ∧
      s.UpToWmax (.or rd ra rb) f.width
        (∃ z, s.Gives (.or rd ra rb) rd f z ∧ f.holds z ∧ ∀ j, bitOf z j = (bitOf a.val j || bitOf b.val j)) ∧
      s.UpToWmax (.xor rd ra rb) f.width
        (∃ z, s.Gives (.xor rd ra rb) rd f z ∧ f.holds z ∧ ∀ j, bitOf z j = (bitOf a.val j ^^ bitOf b.val j)))

/-- NOT raises E_UNINIT if V[RA] is UNINIT; otherwise V[RD] has V[RA]'s format and holds -val - 1 if it is Signed and 2^w
- 1 - val if it is Unsigned; nothing else changes. NOT of the result gives the value of V[RA] back. [R109] -/
def Obligations.NotComplementsTheFormat : Prop :=
  ∀ (s : State) (rd ra : RegIx),
    Encodes { op := 0x23, rd := rd, ra := ra } (.not rd ra) ∧ s.ChecksRa (.not rd ra) ra ∧
    (s.Good ra →
      let a := s.reg ra
      s.Gives (.not rd ra) rd a.fmt (if a.variant = .signed then -a.val - 1 else 2 ^ a.width - 1 - a.val) ∧
      ∀ ru, ∃ t u, exec (.not rd ra) s = .next t ∧ exec (.not ru rd) t = .next u ∧ (u.reg ru).Is a.fmt a.val)

/-- SHL with amount n = val(V[RB]) or zext32(IMM) raises E_UNINIT for V[RA], then for V[RB]. n <= 0 copies V[RA]. n > 0
raises E_CAPACITY if width + n exceeds WMAX, and otherwise leaves val * 2^n in V[RD] with V[RA]'s variant and width +
n; nothing else changes. An amount of any size is legal. SHR of the result by the same amount gives the value of V[RA]
back, for negative values too. [R110; R111] -/
def Obligations.ShlWidensAndLosesNoBit : Prop :=
  ∀ (s : State) (rd ra rb : RegIx) (imm : Word32),
    Encodes { op := 0x28, rd := rd, ra := ra, rb := rb } (.shl rd ra rb) ∧
    Encodes { op := 0x28, rd := rd, ra := ra, i := 1, imm := imm } (.shlImm rd ra imm) ∧
    s.ChecksRaRb (.shl rd ra rb) ra rb ∧ s.ChecksRa (.shlImm rd ra imm) ra ∧
    (s.Good ra →
      let a := s.reg ra
      let shifts (i : Instr) (n : Int) : Prop :=
        (n ≤ 0 → s.Gives i rd a.fmt a.val) ∧
        (0 < n → s.UpToWmax i (a.width + n.toNat)
          (s.Gives i rd { variant := a.variant, width := a.width + n.toNat } (a.val * 2 ^ n.toNat)))
      let undone (i j : Instr) (n : Int) (ru : RegIx) : Prop :=
        a.width + n.toNat ≤ s.params.wmax →
          ∃ t u, exec i s = .next t ∧ exec j t = .next u ∧ u.Readable ru ∧ (u.reg ru).val = a.val
      (s.Readable rb → shifts (.shl rd ra rb) (s.reg rb).val) ∧ shifts (.shlImm rd ra imm) (imm.toNat : Int) ∧
      (s.Readable rb → rd ≠ rb → ∀ ru, undone (.shl rd ra rb) (.shr ru rd rb) (s.reg rb).val ru) ∧
      ∀ ru, undone (.shlImm rd ra imm) (.shrImm ru rd imm) (imm.toNat : Int) ru)

/-- SHR with amount n = val(V[RB]) or zext32(IMM) raises E_UNINIT for V[RA], then for V[RB]. n <= 0 copies V[RA]. n > 0
leaves floor(val / 2^n) in V[RD] in V[RA]'s format, which holds it; nothing else changes. [R112] -/
def Obligations.ShrFloorsInTheFormat : Prop :=
  ∀ (s : State) (rd ra rb : RegIx) (imm : Word32),
    Encodes { op := 0x29, rd := rd, ra := ra, rb := rb } (.shr rd ra rb) ∧
    Encodes { op := 0x29, rd := rd, ra := ra, i := 1, imm := imm } (.shrImm rd ra imm) ∧
    s.ChecksRaRb (.shr rd ra rb) ra rb ∧ s.ChecksRa (.shrImm rd ra imm) ra ∧
    (s.Good ra →
      let a := s.reg ra
      let shifts (i : Instr) (n : Int) : Prop :=
        (n ≤ 0 → s.Gives i rd a.fmt a.val) ∧
        (0 < n → a.fmt.holds (a.val / 2 ^ n.toNat) ∧ s.Gives i rd a.fmt (a.val / 2 ^ n.toNat))
      (s.Readable rb → shifts (.shr rd ra rb) (s.reg rb).val) ∧ shifts (.shrImm rd ra imm) (imm.toNat : Int))

/-- CMP.EQ, NE, LT, LE, GT, GE compare the integer values and CMPM.EQ, NE, LT, LE, GT, GE the magnitudes |val| of V[RA]
and V[RB], whatever the formats: each raises E_UNINIT for V[RA], then V[RB]; otherwise V[RD] holds U1 1 or 0 as the
relation holds or not, EQ is 1 exactly when the two quantities are equal, LT exactly when the first is less, and
nothing else changes but CMDCNT. A CMP or CMPM word with CC = 6 or 7 raises E_ILLEGAL with INFO 0 and changes nothing
else. [R115; R116] -/
def Obligations.CompareWritesTruthAndFlags : Prop :=
  ∀ (s : State) (rd ra rb : RegIx),
    Encodes { op := 0x30, rd := rd, ra := ra, rb := rb } (.cmpEq rd ra rb) ∧
    Encodes { op := 0x30, rd := rd, ra := ra, rb := rb, cc := 1 } (.cmpNe rd ra rb) ∧
    Encodes { op := 0x30, rd := rd, ra := ra, rb := rb, cc := 2 } (.cmpLt rd ra rb) ∧
    Encodes { op := 0x30, rd := rd, ra := ra, rb := rb, cc := 3 } (.cmpLe rd ra rb) ∧
    Encodes { op := 0x30, rd := rd, ra := ra, rb := rb, cc := 4 } (.cmpGt rd ra rb) ∧
    Encodes { op := 0x30, rd := rd, ra := ra, rb := rb, cc := 5 } (.cmpGe rd ra rb) ∧
    Encodes { op := 0x30, rd := rd, ra := ra, rb := rb, m := 1 } (.cmpmEq rd ra rb) ∧
    Encodes { op := 0x30, rd := rd, ra := ra, rb := rb, m := 1, cc := 1 } (.cmpmNe rd ra rb) ∧
    Encodes { op := 0x30, rd := rd, ra := ra, rb := rb, m := 1, cc := 2 } (.cmpmLt rd ra rb) ∧
    Encodes { op := 0x30, rd := rd, ra := ra, rb := rb, m := 1, cc := 3 } (.cmpmLe rd ra rb) ∧
    Encodes { op := 0x30, rd := rd, ra := ra, rb := rb, m := 1, cc := 4 } (.cmpmGt rd ra rb) ∧
    Encodes { op := 0x30, rd := rd, ra := ra, rb := rb, m := 1, cc := 5 } (.cmpmGe rd ra rb) ∧
    (∀ f : CmdFields, f.op = 0x30 → 6 ≤ f.cc.toNat → s.WordIsIllegal f.toBits) ∧
    s.ChecksRaRb (.cmpEq rd ra rb) ra rb ∧ s.ChecksRaRb (.cmpNe rd ra rb) ra rb ∧
    s.ChecksRaRb (.cmpLt rd ra rb) ra rb ∧ s.ChecksRaRb (.cmpLe rd ra rb) ra rb ∧
    s.ChecksRaRb (.cmpGt rd ra rb) ra rb ∧ s.ChecksRaRb (.cmpGe rd ra rb) ra rb ∧
    s.ChecksRaRb (.cmpmEq rd ra rb) ra rb ∧ s.ChecksRaRb (.cmpmNe rd ra rb) ra rb ∧
    s.ChecksRaRb (.cmpmLt rd ra rb) ra rb ∧ s.ChecksRaRb (.cmpmLe rd ra rb) ra rb ∧
    s.ChecksRaRb (.cmpmGt rd ra rb) ra rb ∧ s.ChecksRaRb (.cmpmGe rd ra rb) ra rb ∧
    (s.Readable ra → s.Readable rb →
      let x := (s.reg ra).val
      let y := (s.reg rb).val
      let u : Int := |x|
      let v : Int := |y|
      s.Compares (.cmpEq rd ra rb) rd x y (x = y) ∧
      s.Compares (.cmpNe rd ra rb) rd x y (x ≠ y) ∧
      s.Compares (.cmpLt rd ra rb) rd x y (x < y) ∧
      s.Compares (.cmpLe rd ra rb) rd x y (x ≤ y) ∧
      s.Compares (.cmpGt rd ra rb) rd x y (x > y) ∧
      s.Compares (.cmpGe rd ra rb) rd x y (x ≥ y) ∧
      s.Compares (.cmpmEq rd ra rb) rd u v (u = v) ∧
      s.Compares (.cmpmNe rd ra rb) rd u v (u ≠ v) ∧
      s.Compares (.cmpmLt rd ra rb) rd u v (u < v) ∧
      s.Compares (.cmpmLe rd ra rb) rd u v (u ≤ v) ∧
      s.Compares (.cmpmGt rd ra rb) rd u v (u > v) ∧
      s.Compares (.cmpmGe rd ra rb) rd u v (u ≥ v))

/-- A CMP or CMPM that does not fault, performed in READY, sets EQ to 1 exactly when its two quantities are equal and LT
exactly when the first is less, whatever its condition, and never both. A step that changes EQ or LT is an asserted or
released rst, a soft reset, or a host write to CMD_HI whose word is a CMP or CMPM. Whatever EQ and LT are, every
command leaves the same state but for EQ and LT. [R117] -/
def Obligations.FlagsAreWrittenByCompareOnlyAndReadByNone : Prop :=
  (∀ (i : Instr) (s t : State) (x y : Int), s.compared i = some (x, y) → s.run = .ready → exec i s = .next t →
    t.run = .ready → (t.eq = true ↔ x = y) ∧ (t.lt = true ↔ x < y) ∧ ¬(t.eq = true ∧ t.lt = true)) ∧
  (∀ s t : State, step s = .next t → s.SameFlags t ∨
    (∃ level rest, s.events = .rst level :: rest) ∨
    (∃ data rest, s.events = .write (s.params.base + 0x028) data :: rest ∧ data.getLsbD 0 = true) ∨
    (∃ data rest i, s.events = .write (s.params.base + 0x024) data :: rest ∧ decode (data ++ s.cmdLo) = some i ∧
      ∃ q, s.compared i = some q)) ∧
  (∀ (i : Instr) (s t : State) (eq lt : Bool), exec i s = .next t →
    ∃ u, exec i { s with eq := eq, lt := lt } = .next u ∧ { u with eq := t.eq, lt := t.lt } = t)

/-- TST with index i = val(V[RB]) or zext32(IMM) raises E_UNINIT for V[RA], then for V[RB]; otherwise V[RD] holds, as U1,
floor(val / 2^i) mod 2 if 0 <= i < w, and for every other index, negative ones included, 1 if val < 0 and 0 if not;
nothing else changes. No index faults in TST, BSET or BCLR, and outside [0, w) BSET and BCLR copy V[RA]. [R119; R120] -/
def Obligations.TstReadsOneBit : Prop :=
  ∀ (s : State) (rd ra rb : RegIx) (imm : Word32),
    Encodes { op := 0x38, rd := rd, ra := ra, rb := rb } (.tst rd ra rb) ∧
    Encodes { op := 0x38, rd := rd, ra := ra, i := 1, imm := imm } (.tstImm rd ra imm) ∧
    s.ChecksRaRb (.tst rd ra rb) ra rb ∧ s.ChecksRa (.tstImm rd ra imm) ra ∧
    (s.Good ra →
      let a := s.reg ra
      let tests (i : Instr) (n : Int) : Prop :=
        s.Gives i rd { variant := .unsigned, width := 1 }
          (if 0 ≤ n ∧ n < a.width then a.val / 2 ^ n.toNat % 2 else if a.val < 0 then 1 else 0)
      let copies (i : Instr) (n : Int) : Prop := ¬(0 ≤ n ∧ n < a.width) → s.Gives i rd a.fmt a.val
      (s.Readable rb → tests (.tst rd ra rb) (s.reg rb).val) ∧ tests (.tstImm rd ra imm) (imm.toNat : Int) ∧
      (s.Readable rb → copies (.bset rd ra rb) (s.reg rb).val ∧ copies (.bclr rd ra rb) (s.reg rb).val) ∧
      copies (.bsetImm rd ra imm) (imm.toNat : Int) ∧ copies (.bclrImm rd ra imm) (imm.toNat : Int))

/-- BSET and BCLR with index i = val(V[RB]) or zext32(IMM) raise E_UNINIT for V[RA], then for V[RB]; otherwise V[RD] has
V[RA]'s format and holds the value of that format whose bits below the width are V[RA]'s but for bit i, which is 1
after BSET and 0 after BCLR (with i outside [0, w) no bit changes); nothing else changes. [R121; R122] -/
def Obligations.BsetAndBclrChangeOneBit : Prop :=
  ∀ (s : State) (rd ra rb : RegIx) (imm : Word32),
    Encodes { op := 0x39, rd := rd, ra := ra, rb := rb } (.bset rd ra rb) ∧
    Encodes { op := 0x39, rd := rd, ra := ra, i := 1, imm := imm } (.bsetImm rd ra imm) ∧
    s.ChecksRaRb (.bset rd ra rb) ra rb ∧ s.ChecksRa (.bsetImm rd ra imm) ra ∧
    Encodes { op := 0x3A, rd := rd, ra := ra, rb := rb } (.bclr rd ra rb) ∧
    Encodes { op := 0x3A, rd := rd, ra := ra, i := 1, imm := imm } (.bclrImm rd ra imm) ∧
    s.ChecksRaRb (.bclr rd ra rb) ra rb ∧ s.ChecksRa (.bclrImm rd ra imm) ra ∧
    (s.Good ra →
      let a := s.reg ra
      let sets (i : Instr) (n : Int) : Prop :=
        s.GivesBits i rd a.fmt fun j => if n = (j : Int) then true else bitOf a.val j
      let clears (i : Instr) (n : Int) : Prop :=
        s.GivesBits i rd a.fmt fun j => if n = (j : Int) then false else bitOf a.val j
      (s.Readable rb → sets (.bset rd ra rb) (s.reg rb).val ∧ clears (.bclr rd ra rb) (s.reg rb).val) ∧
      sets (.bsetImm rd ra imm) (imm.toNat : Int) ∧ clears (.bclrImm rd ra imm) (imm.toNat : Int))

/-- REV raises E_UNINIT if V[RA] is UNINIT; otherwise V[RD] has V[RA]'s format and holds the value of that format whose
bit j, for j < w, is bit w - 1 - j of V[RA]; nothing else changes. REV of the result gives the value of V[RA] back.
[R123] -/
def Obligations.RevMirrorsThePattern : Prop :=
  ∀ (s : State) (rd ra : RegIx),
    Encodes { op := 0x3B, rd := rd, ra := ra } (.rev rd ra) ∧ s.ChecksRa (.rev rd ra) ra ∧
    (s.Good ra →
      let a := s.reg ra
      s.GivesBits (.rev rd ra) rd a.fmt (fun j => bitOf a.val (a.width - 1 - j)) ∧
      ∀ ru, ∃ t u, exec (.rev rd ra) s = .next t ∧ exec (.rev ru rd) t = .next u ∧ (u.reg ru).Is a.fmt a.val)

/-- RANGE with bounds l and r raises E_UNINIT if V[RA] is UNINIT. On a Zero operand, or with both bounds at or above w,
V[RD] is U1 Zero. Otherwise, with l' and r' the bounds clamped to w - 1, V[RD] is Unsigned of width |l' - r'| + 1 and
bit j of it is bit r' + j of V[RA] if l' >= r' and bit r' - j if l' < r'. The width never exceeds w, so E_CAPACITY is
never raised; nothing else changes. [R124] -/
def Obligations.RangeExtractsInEitherOrder : Prop :=
  ∀ (s : State) (rd ra : RegIx) (l r : BitVec 16),
    Encodes { op := 0x3C, rd := rd, ra := ra, imm := l ++ r } (.range rd ra l r) ∧ s.ChecksRa (.range rd ra l r) ra ∧
    (s.Good ra →
      let a := s.reg ra
      (a.val = 0 ∨ (a.width ≤ l.toNat ∧ a.width ≤ r.toNat) →
        s.Gives (.range rd ra l r) rd { variant := .unsigned, width := 1 } 0) ∧
      (a.val ≠ 0 → (l.toNat < a.width ∨ r.toNat < a.width) →
        let l' := min l.toNat (a.width - 1)
        let r' := min r.toNat (a.width - 1)
        let n := ((l' : Int) - r').natAbs + 1
        n ≤ a.width ∧
        s.GivesBits (.range rd ra l r) rd { variant := .unsigned, width := n }
          fun j => bitOf a.val (if r' ≤ l' then r' + j else r' - j)))

/-- SIGD and CLZ raise E_UNINIT if V[RA] is UNINIT. SIGD leaves in V[RD], as U32, 0 for a zero magnitude and otherwise the
d with 2^(BPD*(d-1)) <= |val| < 2^(BPD*d). CLZ leaves, as U32, the n <= w such that the top n bits of the w-bit
pattern are 0 and, if n < w, bit w - n - 1 is 1. U32 holds both; nothing else changes. [R128; R129] -/
def Obligations.LeadingZeroCountsAreExact : Prop :=
  ∀ (s : State) (rd ra : RegIx),
    Encodes { op := 0x40, rd := rd, ra := ra } (.sigd rd ra) ∧ Encodes { op := 0x41, rd := rd, ra := ra } (.clz rd ra) ∧
    s.ChecksRa (.sigd rd ra) ra ∧ s.ChecksRa (.clz rd ra) ra ∧
    (s.params.valid → s.Good ra →
      let a := s.reg ra
      let m := a.val.natAbs
      (∃ d : Nat, s.Gives (.sigd rd ra) rd { variant := .unsigned, width := 32 } d ∧ d < 2 ^ 32 ∧
        (m = 0 → d = 0) ∧ (m ≠ 0 → 1 ≤ d ∧ 2 ^ (s.params.bpd * (d - 1)) ≤ m ∧ m < 2 ^ (s.params.bpd * d))) ∧
      (∃ n : Nat, s.Gives (.clz rd ra) rd { variant := .unsigned, width := 32 } n ∧ n ≤ a.width ∧ n < 2 ^ 32 ∧
        (∀ j, a.width - n ≤ j → j < a.width → bitOf a.val j = false) ∧
        (n < a.width → bitOf a.val (a.width - n - 1) = true)))

/-- For every format of width at least 1 and every integer z: fit(U, w, z) = z mod 2^w and fit(S, w, z) = ((z + 2^(w-1))
mod 2^w) - 2^(w-1); fit(z) is in range and congruent to z modulo 2^w; it is the only such value; it is z if z is in
range. unpat of a w-bit pattern p is p for U, and p - 2^w or p as bit w-1 of p is 1 or 0 for S; unpat(pat(z, w)) is
fit(z), and z if z is in range. [R10; R12] -/
def Obligations.FitIsTheUniqueReduction : Prop :=
  ∀ (f : Format) (z : Int), 1 ≤ f.width →
    (f.variant = .unsigned → f.fit z = z % 2 ^ f.width) ∧
    (f.variant = .signed → f.fit z = (z + 2 ^ (f.width - 1)) % 2 ^ f.width - 2 ^ (f.width - 1)) ∧
    f.holds (f.fit z) ∧ (2 : Int) ^ f.width ∣ f.fit z - z ∧
    (∀ y, f.holds y → (2 : Int) ^ f.width ∣ y - z → y = f.fit z) ∧ (f.holds z → f.fit z = z) ∧
    (∀ p : Nat, p < 2 ^ f.width →
      (f.variant = .unsigned → f.unpat p = p) ∧
      (f.variant = .signed → f.unpat p = if p.testBit (f.width - 1) then (p : Int) - 2 ^ f.width else p)) ∧
    f.unpat (pat z f.width) = f.fit z ∧ (f.holds z → f.unpat (pat z f.width) = z)

/-- For integers u and v with v not 0: tdiv is sgn(u) * sgn(v) * floor(|u| / |v|), tmod is u - tdiv * v, |tmod| is less
than |v|, tmod is 0 or has the sign of u; tdiv is 0 for u = 0, 1 or -1 for |u| = |v| > 0 with tmod 0, and 0 with tmod
u for |u| < |v|. [R13] -/
def Obligations.TruncatingDivisionLaws : Prop :=
  ∀ u v : Int, v ≠ 0 →
    tdiv u v = u.sign * v.sign * ((u.natAbs / v.natAbs : Nat) : Int) ∧ tmod u v = u - tdiv u v * v ∧
    u = tdiv u v * v + tmod u v ∧ (tmod u v).natAbs < v.natAbs ∧ (tmod u v = 0 ∨ (tmod u v).sign = u.sign) ∧
    (u = 0 → tdiv u v = 0) ∧
    (u.natAbs = v.natAbs → (tdiv u v = 1 ∨ tdiv u v = -1) ∧ tmod u v = 0) ∧
    (u.natAbs < v.natAbs → tdiv u v = 0 ∧ tmod u v = u)

/-- The result formats of ADD and SUB, MUL, DIV, MOD, AND, OR and XOR, and NEG are those of the table of R15 for equal and
for different variants. For all operand formats of width at least 1 and all values in them, ADD, MUL, DIV, MOD and the
bitwise results are in the result format, and so are SUB and NEG unless the result is Unsigned and the exact value
negative. [00_scope.md R15; 95_test_vectors.md section 2] -/
def Obligations.ResultFormatsHoldEveryExactResult : Prop :=
  (∀ (v : Variant) (wa wb : Nat),
    let f (w : Nat) : Format := { variant := v, width := w }
    rfmtAdd (f wa) (f wb) = f (max wa wb + 1) ∧ rfmtMul (f wa) (f wb) = f (wa + wb) ∧
    rfmtDiv (f wa) (f wb) = (if v = .signed then f (wa + 1) else f wa) ∧
    rfmtMod (f wa) (f wb) = f wa ∧ rfmtBitwise (f wa) (f wb) = f (max wa wb) ∧ rfmtNeg (f wa) = f (wa + 1)) ∧
  (∀ a b : Format, a.variant ≠ b.variant →
    let s (w : Nat) : Format := { variant := .signed, width := w }
    rfmtAdd a b = s (max a.es b.es + 1) ∧ rfmtMul a b = s (a.es + b.es) ∧ rfmtDiv a b = s (a.width + 1) ∧
    rfmtMod a b = s a.es ∧ rfmtBitwise a b = s (max a.es b.es)) ∧
  (∀ (a b : Format) (x y : Int), 1 ≤ a.width → 1 ≤ b.width → a.holds x → b.holds y →
    (rfmtAdd a b).holds (x + y) ∧
    ((rfmtAdd a b).variant = .signed ∨ 0 ≤ x - y → (rfmtAdd a b).holds (x - y)) ∧
    (rfmtMul a b).holds (x * y) ∧ (y ≠ 0 → (rfmtDiv a b).holds (tdiv x y)) ∧ (y ≠ 0 → (rfmtMod a b).holds (tmod x y)) ∧
    (rfmtBitwise a b).holds (intAnd x y) ∧ (rfmtBitwise a b).holds (intOr x y) ∧
    (rfmtBitwise a b).holds (intXor x y) ∧
    ((rfmtNeg a).variant = .signed ∨ 0 ≤ -x → (rfmtNeg a).holds (-x)))

/-- For good registers ra and rb and a register rt other than rb, if the widths stay within WMAX, ADD rt, ra, rb followed
by SUB ru, rt, rb leaves val(V[ra]) in V[ru]. [41_arith.md R90; 41_arith.md R91; 41_arith.md R101] -/
def Obligations.AddThenSubGivesTheValueBack : Prop :=
  ∀ (s : State) (ra rb rt ru : RegIx), s.Good ra → s.Good rb → rt ≠ rb →
    (rfmtAdd (rfmtAdd (s.reg ra).fmt (s.reg rb).fmt) (s.reg rb).fmt).width ≤ s.params.wmax →
    ∃ t u, exec (.add rt ra rb) s = .next t ∧ exec (.sub ru rt rb) t = .next u ∧ u.Readable ru ∧
      (u.reg ru).val = (s.reg ra).val

/-- For good registers ra and rb with a nonzero divisor and result widths within WMAX, DIV and MOD complete, and quotient
times divisor plus remainder is the dividend. [41_arith.md R93; 41_arith.md R94; 41_arith.md R101] -/
def Obligations.DivisionIdentityOfTheCommands : Prop :=
  ∀ (s : State) (ra rb rq rr : RegIx), s.Good ra → s.Good rb → (s.reg rb).val ≠ 0 →
    (rfmtDiv (s.reg ra).fmt (s.reg rb).fmt).width ≤ s.params.wmax →
    (rfmtMod (s.reg ra).fmt (s.reg rb).fmt).width ≤ s.params.wmax →
    ∃ t u, exec (.div rq ra rb) s = .next t ∧ exec (.mod rr ra rb) s = .next u ∧
      (t.reg rq).val * (s.reg rb).val + (u.reg rr).val = (s.reg ra).val

/-- In READY, the host's writes for the expansion of: INC and DEC leave V[rd] plus or minus 1, reduced, in its format;
POSTINC and POSTDEC leave V[ra]'s old value in rd (unless rd = ra) and the changed one in ra; ZERO leaves Zero in the
format; LI.U and LI.S leave the immediate reduced into the format of width w; op.A ra, rb, rt with rt not ra leaves
the exact result reduced into V[ra]'s format in ra, and in rt in the result format; SHL.A widens ra and SHR.A keeps
its format. No other register changes and no fault is taken. SUB.A then ADD.A gives V[ra] back. [30_encoding.md R71;
00_scope.md R16; 41_arith.md R101; 90_conflicts.md C11] -/
def Obligations.PseudoInstructionsDoWhatTheyStandFor : Prop :=
  ∀ (s : State) (rd ra rb rt : RegIx) (w imm : Word32), s.run = .ready →
    (s.Good ra →
      let a := s.reg ra
      s.Leaves (Pseudo.inc ra).expand [(ra, a.fmt, a.val + 1)] ∧
      s.Leaves (Pseudo.dec ra).expand [(ra, a.fmt, a.val - 1)] ∧
      s.Leaves (Pseudo.zero ra).expand [(ra, a.fmt, 0)] ∧
      (rd ≠ ra → s.Leaves (Pseudo.postinc rd ra).expand [(rd, a.fmt, a.val), (ra, a.fmt, a.val + 1)] ∧
        s.Leaves (Pseudo.postdec rd ra).expand [(rd, a.fmt, a.val), (ra, a.fmt, a.val - 1)]) ∧
      s.Leaves (Pseudo.postinc ra ra).expand [(ra, a.fmt, a.val + 1)] ∧
      s.Leaves (Pseudo.postdec ra ra).expand [(ra, a.fmt, a.val - 1)]) ∧
    (w ≠ 0 → w.toNat ≤ s.params.wmax →
      s.Leaves (Pseudo.liU rd w imm).expand [(rd, { variant := .unsigned, width := w.toNat }, (imm.toNat : Int))] ∧
      s.Leaves (Pseudo.liS rd w imm).expand [(rd, { variant := .signed, width := w.toNat }, imm.toInt)]) ∧
    (s.Good ra → s.Good rb →
      let a := s.reg ra
      let b := s.reg rb
      let n := b.val.toNat
      (rt ≠ ra → ∀ op : CompoundOp, (op = .div ∨ op = .mod → b.val ≠ 0) →
        (op.resultFormat a.fmt b.fmt).width ≤ s.params.wmax →
        s.Leaves (Pseudo.compound op ra rb rt).expand
          [(rt, op.resultFormat a.fmt b.fmt, op.exact a.val b.val), (ra, a.fmt, op.exact a.val b.val)]) ∧
      (a.width + n ≤ s.params.wmax →
        s.Leaves (Pseudo.shlA ra rb).expand [(ra, { variant := a.variant, width := a.width + n }, a.val * 2 ^ n)]) ∧
      s.Leaves (Pseudo.shrA ra rb).expand [(ra, a.fmt, a.val / 2 ^ n)] ∧
      (rt ≠ ra → rt ≠ rb → ra ≠ rb → (rfmtAdd a.fmt b.fmt).width ≤ s.params.wmax →
        ∃ t, performAll ((Pseudo.compound .sub ra rb rt).expand ++ (Pseudo.compound .add ra rb rt).expand) s = .next t ∧
          (t.reg ra).Is a.fmt a.val))

/-- Take any two cores in the same state but for the digit size BPD. Every step that is not the issue of a SIGD command, a
host read of any register included, leaves them in the same state but for BPD. [00_scope.md R5; 47_lzd.md R128;
93_implementation_defined.md U3; log 19] -/
def Obligations.OnlySigdSeesTheDigitSize : Prop :=
  ∀ (s t : State) (bpd : Nat),
    (∀ data rest rd ra, s.events = .write (s.params.base + 0x024) data :: rest →
      decode (data ++ s.cmdLo) ≠ some (.sigd rd ra)) →
    step s = .next t → step (s.withBpd bpd) = .next (t.withBpd bpd)
end

