-- ==== Sys2Proof/Laws/Encoding.lean ====
section
/-! SUPPORT. The fields of a command word and the word of given fields are inverse to each other (30_encoding.md R60). -/

namespace Sys2Proof

/-- The low part of a concatenation. -/
theorem extract_append_low {m n : Nat} (a : BitVec m) (b : BitVec n) : (a ++ b).extractLsb' 0 n = b := by
  ext j hj
  simp [BitVec.getElem_extractLsb', BitVec.getLsbD_append, hj]

/-- A slice of a concatenation that lies in its high part. -/
theorem extract_append_high {m n k : Nat} (a : BitVec m) (b : BitVec n) (i : Nat) :
    (a ++ b).extractLsb' (n + i) k = a.extractLsb' i k := by
  ext j hj
  simp [BitVec.getElem_extractLsb', BitVec.getLsbD_append, show ¬ n + i + j < n by omega,
    show n + i + j - n = i + j by omega]

/-- Splitting a word into its fields gives back the fields it was built from. -/
theorem CmdFields.ofBits_toBits (f : CmdFields) : CmdFields.ofBits f.toBits = f := by
  obtain ⟨op, rd, ra, rb, i, v, x, m, res, cc, imm⟩ := f
  have h0 := extract_append_low (op ++ rd ++ ra ++ rb ++ i ++ v ++ x ++ m ++ res ++ cc) imm
  have h1 := (extract_append_high (k := 3) (op ++ rd ++ ra ++ rb ++ i ++ v ++ x ++ m ++ res ++ cc) imm 0).trans
    (extract_append_low (op ++ rd ++ ra ++ rb ++ i ++ v ++ x ++ m ++ res) cc)
  have up1 {k : Nat} (j : Nat) := extract_append_high (k := k) (op ++ rd ++ ra ++ rb ++ i ++ v ++ x ++ m ++ res ++ cc) imm j
  have up2 {k : Nat} (j : Nat) := (up1 (3 + j)).trans
    (extract_append_high (k := k) (op ++ rd ++ ra ++ rb ++ i ++ v ++ x ++ m ++ res) cc j)
  have up3 {k : Nat} (j : Nat) := (up2 (5 + j)).trans
    (extract_append_high (k := k) (op ++ rd ++ ra ++ rb ++ i ++ v ++ x ++ m) res j)
  have up4 {k : Nat} (j : Nat) := (up3 (1 + j)).trans
    (extract_append_high (k := k) (op ++ rd ++ ra ++ rb ++ i ++ v ++ x) m j)
  have up5 {k : Nat} (j : Nat) := (up4 (1 + j)).trans
    (extract_append_high (k := k) (op ++ rd ++ ra ++ rb ++ i ++ v) x j)
  have up6 {k : Nat} (j : Nat) := (up5 (1 + j)).trans
    (extract_append_high (k := k) (op ++ rd ++ ra ++ rb ++ i) v j)
  have up7 {k : Nat} (j : Nat) := (up6 (1 + j)).trans (extract_append_high (k := k) (op ++ rd ++ ra ++ rb) i j)
  have up8 {k : Nat} (j : Nat) := (up7 (4 + j)).trans (extract_append_high (k := k) (op ++ rd ++ ra) rb j)
  have up9 {k : Nat} (j : Nat) := (up8 (4 + j)).trans (extract_append_high (k := k) (op ++ rd) ra j)
  have up10 {k : Nat} (j : Nat) := (up9 (4 + j)).trans (extract_append_high (k := k) op rd j)
  have e : CmdFields.ofBits (CmdFields.toBits ⟨op, rd, ra, rb, i, v, x, m, res, cc, imm⟩) = ⟨_, _, _, _, _, _, _, _, _, _, _⟩ := rfl
  refine e.trans (CmdFields.mk.injEq .. |>.mpr ⟨?_, ?_, ?_, ?_, ?_, ?_, ?_, ?_, ?_, ?_, ?_⟩)
  · exact (up10 0).trans BitVec.extractLsb'_eq_self
  · exact (up9 0).trans (extract_append_low ..)
  · exact (up8 0).trans (extract_append_low ..)
  · exact (up7 0).trans (extract_append_low ..)
  · exact (up6 0).trans (extract_append_low ..)
  · exact (up5 0).trans (extract_append_low ..)
  · exact (up4 0).trans (extract_append_low ..)
  · exact (up3 0).trans (extract_append_low ..)
  · exact (up2 0).trans (extract_append_low ..)
  · exact (up1 0).trans (extract_append_low ..)
  · exact extract_append_low ..

/-- Two adjacent slices of a word, put together again. -/
theorem extract_append_extract {n i j k : Nat} (c : BitVec n) :
    c.extractLsb' (i + k) j ++ c.extractLsb' i k = c.extractLsb' i (j + k) := by
  ext l hl
  simp only [BitVec.getElem_append, BitVec.getElem_extractLsb']
  split
  · rfl
  · congr 1; omega

/-- Building a word from its own fields gives back the word. -/
theorem CmdFields.toBits_ofBits (c : Command) : (CmdFields.ofBits c).toBits = c := by
  have k0 : c.extractLsb' 56 8 ++ c.extractLsb' 52 4 = c.extractLsb' 52 (8 + 4) := extract_append_extract c
  have k1 := (congrArg (· ++ c.extractLsb' 48 4) k0).trans
    (extract_append_extract (i := 48) (j := 8 + 4) (k := 4) c)
  have k2 := (congrArg (· ++ c.extractLsb' 44 4) k1).trans
    (extract_append_extract (i := 44) (j := 8 + 4 + 4) (k := 4) c)
  have k3 := (congrArg (· ++ c.extractLsb' 43 1) k2).trans
    (extract_append_extract (i := 43) (j := 8 + 4 + 4 + 4) (k := 1) c)
  have k4 := (congrArg (· ++ c.extractLsb' 42 1) k3).trans
    (extract_append_extract (i := 42) (j := 8 + 4 + 4 + 4 + 1) (k := 1) c)
  have k5 := (congrArg (· ++ c.extractLsb' 41 1) k4).trans
    (extract_append_extract (i := 41) (j := 8 + 4 + 4 + 4 + 1 + 1) (k := 1) c)
  have k6 := (congrArg (· ++ c.extractLsb' 40 1) k5).trans
    (extract_append_extract (i := 40) (j := 8 + 4 + 4 + 4 + 1 + 1 + 1) (k := 1) c)
  have k7 := (congrArg (· ++ c.extractLsb' 35 5) k6).trans
    (extract_append_extract (i := 35) (j := 8 + 4 + 4 + 4 + 1 + 1 + 1 + 1) (k := 5) c)
  have k8 := (congrArg (· ++ c.extractLsb' 32 3) k7).trans
    (extract_append_extract (i := 32) (j := 8 + 4 + 4 + 4 + 1 + 1 + 1 + 1 + 5) (k := 3) c)
  have k9 := (congrArg (· ++ c.extractLsb' 0 32) k8).trans
    (extract_append_extract (i := 0) (j := 8 + 4 + 4 + 4 + 1 + 1 + 1 + 1 + 5 + 3) (k := 32) c)
  exact k9.trans BitVec.extractLsb'_eq_self

end Sys2Proof
end

