-- ==== Sys2Proof/Laws/Formats.lean ====
section
/-! SUPPORT. Reduction into a format, patterns, and the bits of integers (00_scope.md R8 to R12). -/

namespace Sys2Proof.Machine

theorem two_pow_pos (n : Nat) : (0 : Int) < 2 ^ n := by positivity

theorem two_pow_pred {w : Nat} (h : 1 ≤ w) : (2 : Int) ^ w = 2 * 2 ^ (w - 1) := by
  obtain ⟨k, rfl⟩ := Nat.exists_eq_add_of_le' h
  simp [pow_succ, mul_comm]

/-! ### fit (R10) -/

/-- fit lands in the format's range. -/
theorem Format.fit_holds {f : Format} (h : 1 ≤ f.width) (z : Int) : f.holds (f.fit z) := by
  obtain ⟨v, w⟩ := f
  have h2 := two_pow_pred h
  have hp := two_pow_pos (w - 1)
  have hq := two_pow_pos w
  cases v
  · have := Int.emod_nonneg z hq.ne'
    have := Int.emod_lt_of_pos z hq
    simp only [Format.holds, Format.lo, Format.hi, Format.fit]; omega
  · have := Int.emod_nonneg (z + 2 ^ (w - 1)) hq.ne'
    have := Int.emod_lt_of_pos (z + 2 ^ (w - 1)) hq
    simp only [Format.holds, Format.lo, Format.hi, Format.fit] at *; omega

/-- fit keeps a value that is in range. -/
theorem Format.fit_of_holds {f : Format} (h : 1 ≤ f.width) {z : Int} (hz : f.holds z) : f.fit z = z := by
  obtain ⟨v, w⟩ := f
  have h2 := two_pow_pred h
  cases v
  · simp only [Format.holds, Format.lo, Format.hi] at hz
    simp only [Format.fit]; exact Int.emod_eq_of_lt hz.1 (by omega)
  · simp only [Format.holds, Format.lo, Format.hi] at hz h2
    simp only [Format.fit]
    rw [Int.emod_eq_of_lt (by omega) (by omega)]; omega

/-- fit does not change a value modulo 2^w. -/
theorem Format.fit_emod (f : Format) (z : Int) : f.fit z % 2 ^ f.width = z % 2 ^ f.width := by
  obtain ⟨v, w⟩ := f
  cases v
  · simp [Format.fit]
  · simp only [Format.fit]
    rw [Int.sub_emod, Int.emod_emod, ← Int.sub_emod, add_sub_cancel_right]

/-- A value in range is determined by its residue modulo 2^w. -/
theorem Format.holds_unique {f : Format} (h : 1 ≤ f.width) {y z : Int} (hy : f.holds y) (hz : f.holds z)
    (hm : y % 2 ^ f.width = z % 2 ^ f.width) : y = z := by
  rw [← Format.fit_of_holds h hy, ← Format.fit_of_holds h hz]
  obtain ⟨v, w⟩ := f
  cases v
  · simpa [Format.fit] using hm
  · simp only [Format.fit] at *
    rw [Int.add_emod, hm, ← Int.add_emod]

/-! ### Patterns (R11, R12) -/

theorem pat_cast (z : Int) (w : Nat) : ((pat z w : Nat) : Int) = z % 2 ^ w :=
  Int.toNat_of_nonneg (Int.emod_nonneg z (two_pow_pos w).ne')

theorem pat_lt (z : Int) (w : Nat) : pat z w < 2 ^ w := by
  have h := pat_cast z w
  have := Int.emod_lt_of_pos z (two_pow_pos w)
  have : ((pat z w : Nat) : Int) < ((2 ^ w : Nat) : Int) := by push_cast; omega
  exact_mod_cast this

/-- A natural below 2^w has its top bit set exactly when it is at least 2^(w-1). -/
theorem testBit_top {p w : Nat} (h : 1 ≤ w) (hp : p < 2 ^ w) : p.testBit (w - 1) = decide (2 ^ (w - 1) ≤ p) := by
  obtain ⟨k, rfl⟩ := Nat.exists_eq_add_of_le' h
  rw [Nat.add_sub_cancel, Nat.testBit_eq_decide_div_mod_eq]
  have hk : 0 < 2 ^ k := by positivity
  rw [Nat.pow_succ] at hp
  by_cases h2 : 2 ^ k ≤ p
  · have : p / 2 ^ k = 1 := by
      rw [Nat.div_eq_iff hk]; omega
    simp [this, h2]
  · simp [Nat.div_eq_of_lt (not_le.mp h2), h2]

/-- unpat lands in the format's range. -/
theorem Format.unpat_holds {f : Format} (h : 1 ≤ f.width) {p : Nat} (hp : p < 2 ^ f.width) : f.holds (f.unpat p) := by
  obtain ⟨v, w⟩ := f
  have h2 := two_pow_pred h
  have hq : (p : Int) < 2 ^ w := by exact_mod_cast hp
  have h0 := two_pow_pos (w - 1)
  cases v
  · simp only [Format.holds, Format.lo, Format.hi, Format.unpat]; omega
  · simp only [Format.holds, Format.lo, Format.hi, Format.unpat, testBit_top h hp, decide_eq_true_eq] at *
    split
    · rename_i hle
      have : (2 : Int) ^ (w - 1) ≤ p := by exact_mod_cast hle
      omega
    · rename_i hle
      have : (p : Int) < 2 ^ (w - 1) := by exact_mod_cast (not_le.mp hle)
      omega

/-- unpat does not change a pattern modulo 2^w. -/
theorem Format.unpat_emod {f : Format} {p : Nat} (hp : p < 2 ^ f.width) : f.unpat p % 2 ^ f.width = p := by
  have hq : (p : Int) < 2 ^ f.width := by exact_mod_cast hp
  have hm : (p : Int) % 2 ^ f.width = p := Int.emod_eq_of_lt (by omega) hq
  obtain ⟨v, w⟩ := f
  cases v
  · simpa [Format.unpat] using hm
  · simp only [Format.unpat]
    split
    · rw [Int.sub_emod_right]; exact hm
    · exact hm

/-- The pattern of the value of a pattern is the pattern. -/
theorem Format.pat_unpat {f : Format} {p : Nat} (hp : p < 2 ^ f.width) : pat (f.unpat p) f.width = p := by
  simp [pat, Format.unpat_emod hp]

/-- unpat(v, w, pat(z, w)) = fit(v, w, z) (R12). -/
theorem Format.unpat_pat {f : Format} (h : 1 ≤ f.width) (z : Int) : f.unpat (pat z f.width) = f.fit z := by
  refine Format.holds_unique h (Format.unpat_holds h (pat_lt _ _)) (Format.fit_holds h z) ?_
  rw [Format.unpat_emod (pat_lt _ _), Format.fit_emod, pat_cast]

/-! ### Bits (R11) -/

@[simp] theorem bitOf_natCast (n i : Nat) : bitOf (n : Int) i = n.testBit i := by
  rw [bitOf, Nat.testBit_eq_decide_div_mod_eq, Int.shiftRight_eq_div_pow]
  congr 1
  apply propext
  norm_cast

theorem bitOf_negSucc (n i : Nat) : bitOf (Int.negSucc n) i = !n.testBit i := by
  rw [bitOf, Nat.testBit_eq_decide_div_mod_eq]
  have h : (Int.negSucc n) >>> i = Int.negSucc (n >>> i) := rfl
  rw [h, Nat.shiftRight_eq_div_pow]
  have : (Int.negSucc (n / 2 ^ i) % 2 = 1) ↔ ¬ (n / 2 ^ i % 2 = 1) := by omega
  rw [decide_eq_decide.mpr this, decide_not]

theorem bitOf_neg_one_sub (n i : Nat) : bitOf (-1 - (n : Int)) i = !n.testBit i := by
  rw [show (-1 - (n : Int)) = Int.negSucc n by omega, bitOf_negSucc]

/-- Two integers with the same bits are equal. -/
theorem bitOf_ext {x y : Int} (h : ∀ i, bitOf x i = bitOf y i) : x = y := by
  cases x with
  | ofNat m =>
    cases y with
    | ofNat n =>
      have : m = n := Nat.eq_of_testBit_eq fun i => by simpa using h i
      rw [this]
    | negSucc n =>
      exfalso
      have := h (m + n)
      simp only [Int.ofNat_eq_natCast, bitOf_natCast, bitOf_negSucc] at this
      rw [Nat.testBit_lt_two_pow (lt_of_le_of_lt (Nat.le_add_right m n) Nat.lt_two_pow_self),
        Nat.testBit_lt_two_pow (lt_of_le_of_lt (Nat.le_add_left n m) Nat.lt_two_pow_self)] at this
      simp at this
  | negSucc m =>
    cases y with
    | ofNat n =>
      exfalso
      have := h (m + n)
      simp only [Int.ofNat_eq_natCast, bitOf_natCast, bitOf_negSucc] at this
      rw [Nat.testBit_lt_two_pow (lt_of_le_of_lt (Nat.le_add_right m n) Nat.lt_two_pow_self),
        Nat.testBit_lt_two_pow (lt_of_le_of_lt (Nat.le_add_left n m) Nat.lt_two_pow_self)] at this
      simp at this
    | negSucc n =>
      have : m = n := Nat.eq_of_testBit_eq fun i => by simpa [bitOf_negSucc] using h i
      rw [this]

/-- The bits of a pattern are the value's, below the width. -/
theorem testBit_pat (z : Int) (w i : Nat) : (pat z w).testBit i = (decide (i < w) && bitOf z i) := by
  rw [← bitOf_natCast, pat_cast]
  cases z with
  | ofNat n =>
    rw [show Int.ofNat n % 2 ^ w = ((n % 2 ^ w : Nat) : Int) by push_cast; rfl, bitOf_natCast, Nat.testBit_mod_two_pow,
      Int.ofNat_eq_natCast, bitOf_natCast]
  | negSucc n =>
    have h : Int.negSucc n % 2 ^ w = ((2 ^ w - (n % 2 ^ w + 1) : Nat) : Int) := by
      have hlt : n % 2 ^ w < 2 ^ w := Nat.mod_lt _ (by positivity)
      have : (0 : Int) < 2 ^ w := two_pow_pos w
      rw [Int.negSucc_emod n this]
      push_cast [Nat.succ_le_of_lt hlt]
      ring_nf
    rw [h, bitOf_natCast, Nat.testBit_two_pow_sub_succ (Nat.mod_lt _ (by positivity)), Nat.testBit_mod_two_pow,
      bitOf_negSucc]
    by_cases hi : i < w <;> simp [hi]

/-- The bits of the value of a pattern, below the width. -/
theorem Format.bitOf_unpat {f : Format} {p : Nat} (hp : p < 2 ^ f.width) {i : Nat} (hi : i < f.width) :
    bitOf (f.unpat p) i = p.testBit i := by
  have := testBit_pat (f.unpat p) f.width i
  rw [Format.pat_unpat hp] at this
  simpa [hi] using this.symm

/-- Reduction keeps the bits below the width. -/
theorem Format.bitOf_fit {f : Format} (h : 1 ≤ f.width) (z : Int) {i : Nat} (hi : i < f.width) :
    bitOf (f.fit z) i = bitOf z i := by
  rw [← Format.unpat_pat h, Format.bitOf_unpat (pat_lt _ _) hi, testBit_pat]
  simp [hi]

/-- At and beyond the width every bit of a value in range is its sign. -/
theorem Format.bitOf_of_le {f : Format} (h : 1 ≤ f.width) {z : Int} (hz : f.holds z) {i : Nat} (hi : f.width ≤ i) :
    bitOf z i = decide (z < 0) := by
  have hpow : (2 : Int) ^ f.width ≤ 2 ^ i := pow_le_pow_right₀ (by norm_num) hi
  have h2 := two_pow_pred h
  have hlt : z < 2 ^ i ∧ -(2 : Int) ^ i ≤ z := by
    obtain ⟨v, w⟩ := f
    have := two_pow_pos (w - 1)
    cases v <;> simp only [Format.holds, Format.lo, Format.hi] at * <;> constructor <;> omega
  cases z with
  | ofNat n =>
    have : n < 2 ^ i := by have := hlt.1; rw [Int.ofNat_eq_natCast] at this; exact_mod_cast this
    rw [Int.ofNat_eq_natCast, bitOf_natCast, Nat.testBit_lt_two_pow this]
    simp
  | negSucc n =>
    have : n < 2 ^ i := by
      have : (n : Int) < 2 ^ i := by have := hlt.2; omega
      exact_mod_cast this
    rw [bitOf_negSucc, Nat.testBit_lt_two_pow this]
    simp

/-! ### sumBits -/

theorem sumBits_lt (b : Nat → Bool) (n : Nat) : sumBits b n < 2 ^ n := by
  induction n with
  | zero => simp [sumBits]
  | succ n ih =>
    have : (b n).toNat ≤ 1 := Bool.toNat_le (b n)
    have : (b n).toNat * 2 ^ n ≤ 1 * 2 ^ n := Nat.mul_le_mul_right _ this
    simp only [sumBits, pow_succ]; omega

theorem testBit_sumBits (b : Nat → Bool) (n j : Nat) : (sumBits b n).testBit j = (decide (j < n) && b j) := by
  induction n with
  | zero => simp [sumBits]
  | succ n ih =>
    rw [sumBits, Nat.add_comm, Nat.mul_comm, Nat.testBit_two_pow_mul_add _ (sumBits_lt b n), ih]
    by_cases h : j < n
    · simp [h, show j < n + 1 by omega]
    · rw [if_neg h]
      by_cases h2 : j = n
      · subst h2; simp; cases b j <;> simp
      · have : j - n ≠ 0 := by omega
        have h3 : (b n).toNat.testBit (j - n) = false := by
          apply Nat.testBit_lt_two_pow
          exact lt_of_le_of_lt (Bool.toNat_le (b n)) (Nat.one_lt_two_pow this)
        rw [h3]; simp [show ¬ j < n + 1 by omega]

/-! ### bitlen (R7) -/

/-- n < 2^bitlen(n). -/
theorem lt_two_pow_bitlen (n : Nat) : n < 2 ^ bitlen n := by
  unfold bitlen
  split
  · rename_i h; simp [h]
  · exact Nat.lt_log2_self

/-- bitlen is the least such exponent. -/
theorem bitlen_le {n k : Nat} (h : n < 2 ^ k) : bitlen n ≤ k := by
  unfold bitlen
  split
  · omega
  · rename_i h0
    exact (Nat.log2_lt h0).mpr h

end Sys2Proof.Machine
end

