-- ==== Sys2Proof/Laws/State.lean ====
section
/-! SUPPORT. For every named update of the state, what each field is afterwards. All are true by definition. -/

namespace Sys2Proof.Machine

variable (s : State)

/-! ### setReg -/

@[simp] theorem State.setReg_params (i : RegIx) (r : Reg) : (s.setReg i r).params = s.params := rfl
@[simp] theorem State.setReg_regs (i : RegIx) (r : Reg) : (s.setReg i r).regs = s.regs.set i.toNat r i.isLt := rfl
@[simp] theorem State.setReg_run (i : RegIx) (r : Reg) : (s.setReg i r).run = s.run := rfl
@[simp] theorem State.setReg_eq (i : RegIx) (r : Reg) : (s.setReg i r).eq = s.eq := rfl
@[simp] theorem State.setReg_lt (i : RegIx) (r : Reg) : (s.setReg i r).lt = s.lt := rfl
@[simp] theorem State.setReg_cause (i : RegIx) (r : Reg) : (s.setReg i r).cause = s.cause := rfl
@[simp] theorem State.setReg_info (i : RegIx) (r : Reg) : (s.setReg i r).info = s.info := rfl
@[simp] theorem State.setReg_fcmdLo (i : RegIx) (r : Reg) : (s.setReg i r).fcmdLo = s.fcmdLo := rfl
@[simp] theorem State.setReg_fcmdHi (i : RegIx) (r : Reg) : (s.setReg i r).fcmdHi = s.fcmdHi := rfl
@[simp] theorem State.setReg_pbdesc (i : RegIx) (r : Reg) : (s.setReg i r).pbdesc = s.pbdesc := rfl
@[simp] theorem State.setReg_cmdLo (i : RegIx) (r : Reg) : (s.setReg i r).cmdLo = s.cmdLo := rfl
@[simp] theorem State.setReg_cmdHi (i : RegIx) (r : Reg) : (s.setReg i r).cmdHi = s.cmdHi := rfl
@[simp] theorem State.setReg_cmdcnt (i : RegIx) (r : Reg) : (s.setReg i r).cmdcnt = s.cmdcnt := rfl
@[simp] theorem State.setReg_pbuf (i : RegIx) (r : Reg) : (s.setReg i r).pbuf = s.pbuf := rfl
@[simp] theorem State.setReg_rst (i : RegIx) (r : Reg) : (s.setReg i r).rst = s.rst := rfl
@[simp] theorem State.setReg_rdata (i : RegIx) (r : Reg) : (s.setReg i r).rdata = s.rdata := rfl
@[simp] theorem State.setReg_draws (i : RegIx) (r : Reg) : (s.setReg i r).draws = s.draws := rfl
@[simp] theorem State.setReg_events (i : RegIx) (r : Reg) : (s.setReg i r).events = s.events := rfl

/-! ### writeReg -/

@[simp] theorem State.writeReg_params (i : RegIx) (f : Format) (z : Int) : (s.writeReg i f z).params = s.params := rfl
@[simp] theorem State.writeReg_regs (i : RegIx) (f : Format) (z : Int) : (s.writeReg i f z).regs = s.regs.set i.toNat (Reg.make f z) i.isLt := rfl
@[simp] theorem State.writeReg_run (i : RegIx) (f : Format) (z : Int) : (s.writeReg i f z).run = s.run := rfl
@[simp] theorem State.writeReg_eq (i : RegIx) (f : Format) (z : Int) : (s.writeReg i f z).eq = s.eq := rfl
@[simp] theorem State.writeReg_lt (i : RegIx) (f : Format) (z : Int) : (s.writeReg i f z).lt = s.lt := rfl
@[simp] theorem State.writeReg_cause (i : RegIx) (f : Format) (z : Int) : (s.writeReg i f z).cause = s.cause := rfl
@[simp] theorem State.writeReg_info (i : RegIx) (f : Format) (z : Int) : (s.writeReg i f z).info = s.info := rfl
@[simp] theorem State.writeReg_fcmdLo (i : RegIx) (f : Format) (z : Int) : (s.writeReg i f z).fcmdLo = s.fcmdLo := rfl
@[simp] theorem State.writeReg_fcmdHi (i : RegIx) (f : Format) (z : Int) : (s.writeReg i f z).fcmdHi = s.fcmdHi := rfl
@[simp] theorem State.writeReg_pbdesc (i : RegIx) (f : Format) (z : Int) : (s.writeReg i f z).pbdesc = s.pbdesc := rfl
@[simp] theorem State.writeReg_cmdLo (i : RegIx) (f : Format) (z : Int) : (s.writeReg i f z).cmdLo = s.cmdLo := rfl
@[simp] theorem State.writeReg_cmdHi (i : RegIx) (f : Format) (z : Int) : (s.writeReg i f z).cmdHi = s.cmdHi := rfl
@[simp] theorem State.writeReg_cmdcnt (i : RegIx) (f : Format) (z : Int) : (s.writeReg i f z).cmdcnt = s.cmdcnt := rfl
@[simp] theorem State.writeReg_pbuf (i : RegIx) (f : Format) (z : Int) : (s.writeReg i f z).pbuf = s.pbuf := rfl
@[simp] theorem State.writeReg_rst (i : RegIx) (f : Format) (z : Int) : (s.writeReg i f z).rst = s.rst := rfl
@[simp] theorem State.writeReg_rdata (i : RegIx) (f : Format) (z : Int) : (s.writeReg i f z).rdata = s.rdata := rfl
@[simp] theorem State.writeReg_draws (i : RegIx) (f : Format) (z : Int) : (s.writeReg i f z).draws = s.draws := rfl
@[simp] theorem State.writeReg_events (i : RegIx) (f : Format) (z : Int) : (s.writeReg i f z).events = s.events := rfl

/-! ### setPbufWord -/

@[simp] theorem State.setPbufWord_params (k : Nat) (w : Word32) : (s.setPbufWord k w).params = s.params := rfl
@[simp] theorem State.setPbufWord_regs (k : Nat) (w : Word32) : (s.setPbufWord k w).regs = s.regs := rfl
@[simp] theorem State.setPbufWord_run (k : Nat) (w : Word32) : (s.setPbufWord k w).run = s.run := rfl
@[simp] theorem State.setPbufWord_eq (k : Nat) (w : Word32) : (s.setPbufWord k w).eq = s.eq := rfl
@[simp] theorem State.setPbufWord_lt (k : Nat) (w : Word32) : (s.setPbufWord k w).lt = s.lt := rfl
@[simp] theorem State.setPbufWord_cause (k : Nat) (w : Word32) : (s.setPbufWord k w).cause = s.cause := rfl
@[simp] theorem State.setPbufWord_info (k : Nat) (w : Word32) : (s.setPbufWord k w).info = s.info := rfl
@[simp] theorem State.setPbufWord_fcmdLo (k : Nat) (w : Word32) : (s.setPbufWord k w).fcmdLo = s.fcmdLo := rfl
@[simp] theorem State.setPbufWord_fcmdHi (k : Nat) (w : Word32) : (s.setPbufWord k w).fcmdHi = s.fcmdHi := rfl
@[simp] theorem State.setPbufWord_pbdesc (k : Nat) (w : Word32) : (s.setPbufWord k w).pbdesc = s.pbdesc := rfl
@[simp] theorem State.setPbufWord_cmdLo (k : Nat) (w : Word32) : (s.setPbufWord k w).cmdLo = s.cmdLo := rfl
@[simp] theorem State.setPbufWord_cmdHi (k : Nat) (w : Word32) : (s.setPbufWord k w).cmdHi = s.cmdHi := rfl
@[simp] theorem State.setPbufWord_cmdcnt (k : Nat) (w : Word32) : (s.setPbufWord k w).cmdcnt = s.cmdcnt := rfl
@[simp] theorem State.setPbufWord_pbuf (k : Nat) (w : Word32) : (s.setPbufWord k w).pbuf = s.pbuf.write k w := rfl
@[simp] theorem State.setPbufWord_rst (k : Nat) (w : Word32) : (s.setPbufWord k w).rst = s.rst := rfl
@[simp] theorem State.setPbufWord_rdata (k : Nat) (w : Word32) : (s.setPbufWord k w).rdata = s.rdata := rfl
@[simp] theorem State.setPbufWord_draws (k : Nat) (w : Word32) : (s.setPbufWord k w).draws = s.draws := rfl
@[simp] theorem State.setPbufWord_events (k : Nat) (w : Word32) : (s.setPbufWord k w).events = s.events := rfl

/-! ### setFlags -/

@[simp] theorem State.setFlags_params (x y : Int) : (s.setFlags x y).params = s.params := rfl
@[simp] theorem State.setFlags_regs (x y : Int) : (s.setFlags x y).regs = s.regs := rfl
@[simp] theorem State.setFlags_run (x y : Int) : (s.setFlags x y).run = s.run := rfl
@[simp] theorem State.setFlags_eq (x y : Int) : (s.setFlags x y).eq = decide (x = y) := rfl
@[simp] theorem State.setFlags_lt (x y : Int) : (s.setFlags x y).lt = decide (x < y) := rfl
@[simp] theorem State.setFlags_cause (x y : Int) : (s.setFlags x y).cause = s.cause := rfl
@[simp] theorem State.setFlags_info (x y : Int) : (s.setFlags x y).info = s.info := rfl
@[simp] theorem State.setFlags_fcmdLo (x y : Int) : (s.setFlags x y).fcmdLo = s.fcmdLo := rfl
@[simp] theorem State.setFlags_fcmdHi (x y : Int) : (s.setFlags x y).fcmdHi = s.fcmdHi := rfl
@[simp] theorem State.setFlags_pbdesc (x y : Int) : (s.setFlags x y).pbdesc = s.pbdesc := rfl
@[simp] theorem State.setFlags_cmdLo (x y : Int) : (s.setFlags x y).cmdLo = s.cmdLo := rfl
@[simp] theorem State.setFlags_cmdHi (x y : Int) : (s.setFlags x y).cmdHi = s.cmdHi := rfl
@[simp] theorem State.setFlags_cmdcnt (x y : Int) : (s.setFlags x y).cmdcnt = s.cmdcnt := rfl
@[simp] theorem State.setFlags_pbuf (x y : Int) : (s.setFlags x y).pbuf = s.pbuf := rfl
@[simp] theorem State.setFlags_rst (x y : Int) : (s.setFlags x y).rst = s.rst := rfl
@[simp] theorem State.setFlags_rdata (x y : Int) : (s.setFlags x y).rdata = s.rdata := rfl
@[simp] theorem State.setFlags_draws (x y : Int) : (s.setFlags x y).draws = s.draws := rfl
@[simp] theorem State.setFlags_events (x y : Int) : (s.setFlags x y).events = s.events := rfl

/-! ### countCommand -/

@[simp] theorem State.countCommand_params : s.countCommand.params = s.params := rfl
@[simp] theorem State.countCommand_regs : s.countCommand.regs = s.regs := rfl
@[simp] theorem State.countCommand_run : s.countCommand.run = s.run := rfl
@[simp] theorem State.countCommand_eq : s.countCommand.eq = s.eq := rfl
@[simp] theorem State.countCommand_lt : s.countCommand.lt = s.lt := rfl
@[simp] theorem State.countCommand_cause : s.countCommand.cause = s.cause := rfl
@[simp] theorem State.countCommand_info : s.countCommand.info = s.info := rfl
@[simp] theorem State.countCommand_fcmdLo : s.countCommand.fcmdLo = s.fcmdLo := rfl
@[simp] theorem State.countCommand_fcmdHi : s.countCommand.fcmdHi = s.fcmdHi := rfl
@[simp] theorem State.countCommand_pbdesc : s.countCommand.pbdesc = s.pbdesc := rfl
@[simp] theorem State.countCommand_cmdLo : s.countCommand.cmdLo = s.cmdLo := rfl
@[simp] theorem State.countCommand_cmdHi : s.countCommand.cmdHi = s.cmdHi := rfl
@[simp] theorem State.countCommand_cmdcnt : s.countCommand.cmdcnt = s.cmdcnt + 1 := rfl
@[simp] theorem State.countCommand_pbuf : s.countCommand.pbuf = s.pbuf := rfl
@[simp] theorem State.countCommand_rst : s.countCommand.rst = s.rst := rfl
@[simp] theorem State.countCommand_rdata : s.countCommand.rdata = s.rdata := rfl
@[simp] theorem State.countCommand_draws : s.countCommand.draws = s.draws := rfl
@[simp] theorem State.countCommand_events : s.countCommand.events = s.events := rfl

/-! ### enterFault -/

@[simp] theorem State.enterFault_params (c : Cause) (x : Word32) : (s.enterFault c x).params = s.params := rfl
@[simp] theorem State.enterFault_regs (c : Cause) (x : Word32) : (s.enterFault c x).regs = s.regs := rfl
@[simp] theorem State.enterFault_run (c : Cause) (x : Word32) : (s.enterFault c x).run = .fault := rfl
@[simp] theorem State.enterFault_eq (c : Cause) (x : Word32) : (s.enterFault c x).eq = s.eq := rfl
@[simp] theorem State.enterFault_lt (c : Cause) (x : Word32) : (s.enterFault c x).lt = s.lt := rfl
@[simp] theorem State.enterFault_cause (c : Cause) (x : Word32) : (s.enterFault c x).cause = c := rfl
@[simp] theorem State.enterFault_info (c : Cause) (x : Word32) : (s.enterFault c x).info = x := rfl
@[simp] theorem State.enterFault_fcmdLo (c : Cause) (x : Word32) : (s.enterFault c x).fcmdLo = s.cmdLo := rfl
@[simp] theorem State.enterFault_fcmdHi (c : Cause) (x : Word32) : (s.enterFault c x).fcmdHi = s.cmdHi := rfl
@[simp] theorem State.enterFault_pbdesc (c : Cause) (x : Word32) : (s.enterFault c x).pbdesc = s.pbdesc := rfl
@[simp] theorem State.enterFault_cmdLo (c : Cause) (x : Word32) : (s.enterFault c x).cmdLo = s.cmdLo := rfl
@[simp] theorem State.enterFault_cmdHi (c : Cause) (x : Word32) : (s.enterFault c x).cmdHi = s.cmdHi := rfl
@[simp] theorem State.enterFault_cmdcnt (c : Cause) (x : Word32) : (s.enterFault c x).cmdcnt = s.cmdcnt := rfl
@[simp] theorem State.enterFault_pbuf (c : Cause) (x : Word32) : (s.enterFault c x).pbuf = s.pbuf := rfl
@[simp] theorem State.enterFault_rst (c : Cause) (x : Word32) : (s.enterFault c x).rst = s.rst := rfl
@[simp] theorem State.enterFault_rdata (c : Cause) (x : Word32) : (s.enterFault c x).rdata = s.rdata := rfl
@[simp] theorem State.enterFault_draws (c : Cause) (x : Word32) : (s.enterFault c x).draws = s.draws := rfl
@[simp] theorem State.enterFault_events (c : Cause) (x : Word32) : (s.enterFault c x).events = s.events := rfl

/-! ### clear -/

@[simp] theorem State.clear_params : s.clear.params = s.params := rfl
@[simp] theorem State.clear_regs : s.clear.regs = Vector.replicate 16 Reg.uninit := rfl
@[simp] theorem State.clear_run : s.clear.run = .ready := rfl
@[simp] theorem State.clear_eq : s.clear.eq = false := rfl
@[simp] theorem State.clear_lt : s.clear.lt = false := rfl
@[simp] theorem State.clear_cause : s.clear.cause = .noFault := rfl
@[simp] theorem State.clear_info : s.clear.info = 0 := rfl
@[simp] theorem State.clear_fcmdLo : s.clear.fcmdLo = 0 := rfl
@[simp] theorem State.clear_fcmdHi : s.clear.fcmdHi = 0 := rfl
@[simp] theorem State.clear_pbdesc : s.clear.pbdesc = 0 := rfl
@[simp] theorem State.clear_cmdLo : s.clear.cmdLo = 0 := rfl
@[simp] theorem State.clear_cmdHi : s.clear.cmdHi = 0 := rfl
@[simp] theorem State.clear_cmdcnt : s.clear.cmdcnt = 0 := rfl
@[simp] theorem State.clear_pbuf : s.clear.pbuf = s.pbuf := rfl
@[simp] theorem State.clear_rst : s.clear.rst = s.rst := rfl
@[simp] theorem State.clear_rdata : s.clear.rdata = s.rdata := rfl
@[simp] theorem State.clear_draws : s.clear.draws = s.draws := rfl
@[simp] theorem State.clear_events : s.clear.events = s.events := rfl

/-! ### softReset -/

@[simp] theorem State.softReset_params : s.softReset.params = s.params := rfl
@[simp] theorem State.softReset_regs : s.softReset.regs = Vector.replicate 16 Reg.uninit := rfl
@[simp] theorem State.softReset_run : s.softReset.run = .ready := rfl
@[simp] theorem State.softReset_eq : s.softReset.eq = false := rfl
@[simp] theorem State.softReset_lt : s.softReset.lt = false := rfl
@[simp] theorem State.softReset_cause : s.softReset.cause = .noFault := rfl
@[simp] theorem State.softReset_info : s.softReset.info = 0 := rfl
@[simp] theorem State.softReset_fcmdLo : s.softReset.fcmdLo = 0 := rfl
@[simp] theorem State.softReset_fcmdHi : s.softReset.fcmdHi = 0 := rfl
@[simp] theorem State.softReset_pbdesc : s.softReset.pbdesc = 0 := rfl
@[simp] theorem State.softReset_cmdLo : s.softReset.cmdLo = 0 := rfl
@[simp] theorem State.softReset_cmdHi : s.softReset.cmdHi = 0 := rfl
@[simp] theorem State.softReset_cmdcnt : s.softReset.cmdcnt = 0 := rfl
@[simp] theorem State.softReset_pbuf : s.softReset.pbuf = s.pbuf := rfl
@[simp] theorem State.softReset_rst : s.softReset.rst = s.rst := rfl
@[simp] theorem State.softReset_rdata : s.softReset.rdata = s.rdata := rfl
@[simp] theorem State.softReset_draws : s.softReset.draws = s.draws := rfl
@[simp] theorem State.softReset_events : s.softReset.events = s.events := rfl

/-! ### hardwareReset -/

@[simp] theorem State.hardwareReset_params : s.hardwareReset.params = s.params := rfl
@[simp] theorem State.hardwareReset_regs : s.hardwareReset.regs = Vector.replicate 16 Reg.uninit := rfl
@[simp] theorem State.hardwareReset_run : s.hardwareReset.run = .ready := rfl
@[simp] theorem State.hardwareReset_eq : s.hardwareReset.eq = false := rfl
@[simp] theorem State.hardwareReset_lt : s.hardwareReset.lt = false := rfl
@[simp] theorem State.hardwareReset_cause : s.hardwareReset.cause = .noFault := rfl
@[simp] theorem State.hardwareReset_info : s.hardwareReset.info = 0 := rfl
@[simp] theorem State.hardwareReset_fcmdLo : s.hardwareReset.fcmdLo = 0 := rfl
@[simp] theorem State.hardwareReset_fcmdHi : s.hardwareReset.fcmdHi = 0 := rfl
@[simp] theorem State.hardwareReset_pbdesc : s.hardwareReset.pbdesc = 0 := rfl
@[simp] theorem State.hardwareReset_cmdLo : s.hardwareReset.cmdLo = 0 := rfl
@[simp] theorem State.hardwareReset_cmdHi : s.hardwareReset.cmdHi = 0 := rfl
@[simp] theorem State.hardwareReset_cmdcnt : s.hardwareReset.cmdcnt = 0 := rfl
@[simp] theorem State.hardwareReset_pbuf : s.hardwareReset.pbuf = [] := rfl
@[simp] theorem State.hardwareReset_rst : s.hardwareReset.rst = s.rst := rfl
@[simp] theorem State.hardwareReset_rdata : s.hardwareReset.rdata = s.rdata := rfl
@[simp] theorem State.hardwareReset_draws : s.hardwareReset.draws = s.draws + 1 := rfl
@[simp] theorem State.hardwareReset_events : s.hardwareReset.events = s.events := rfl

end Sys2Proof.Machine
end

