-- ==== Sys2Proof/Laws/Registers.lean ====
section
/-! SUPPORT. Reading a register after each update, and the register record a write leaves (10_state.md R24). -/

namespace Sys2Proof.Machine

variable (s : State)

theorem State.reg_setReg (i j : RegIx) (r : Reg) : (s.setReg i r).reg j = if j = i then r else s.reg j := by
  simp only [State.reg, State.setReg, Vector.getElem_set, BitVec.toNat_inj, eq_comm]

@[simp] theorem State.reg_setReg_self (i : RegIx) (r : Reg) : (s.setReg i r).reg i = r := by simp [State.reg_setReg]

theorem State.reg_setReg_ne {i j : RegIx} (h : j ≠ i) (r : Reg) : (s.setReg i r).reg j = s.reg j := by
  simp [State.reg_setReg, h]

theorem State.reg_writeReg (i j : RegIx) (f : Format) (z : Int) :
    (s.writeReg i f z).reg j = if j = i then Reg.make f z else s.reg j := State.reg_setReg s i j _

@[simp] theorem State.reg_writeReg_self (i : RegIx) (f : Format) (z : Int) : (s.writeReg i f z).reg i = Reg.make f z := by
  simp [State.reg_writeReg]

theorem State.reg_writeReg_ne {i j : RegIx} (h : j ≠ i) (f : Format) (z : Int) :
    (s.writeReg i f z).reg j = s.reg j := by simp [State.reg_writeReg, h]

@[simp] theorem State.reg_setPbufWord (k : Nat) (w : Word32) (j : RegIx) : (s.setPbufWord k w).reg j = s.reg j := rfl
@[simp] theorem State.reg_setFlags (x y : Int) (j : RegIx) : (s.setFlags x y).reg j = s.reg j := rfl
@[simp] theorem State.reg_countCommand (j : RegIx) : s.countCommand.reg j = s.reg j := rfl
@[simp] theorem State.reg_enterFault (c : Cause) (x : Word32) (j : RegIx) : (s.enterFault c x).reg j = s.reg j := rfl

@[simp] theorem State.reg_clear (j : RegIx) : s.clear.reg j = Reg.uninit := by
  simp [State.reg, State.clear]

@[simp] theorem State.reg_hardwareReset (j : RegIx) : s.hardwareReset.reg j = Reg.uninit := State.reg_clear s j

@[simp] theorem State.reg_softReset (j : RegIx) : s.softReset.reg j = Reg.uninit := State.reg_clear s j

/-- Two states with the same registers, read one by one, hold the same vector. -/
theorem State.regs_ext {s t : State} (h : ∀ i, s.reg i = t.reg i) : s.regs = t.regs := by
  ext1 i hi
  have := h (BitVec.ofNat 4 i)
  simpa [State.reg, Nat.mod_eq_of_lt hi] using this

/-! ### The record of a written register -/

theorem signOf_pos {z : Int} (h : 0 < z) : signOf z = .pos := by simp [signOf, h]

theorem signOf_neg {z : Int} (h : z < 0) : signOf z = .neg := by simp [signOf, h, Int.not_lt.mpr h.le]

@[simp] theorem signOf_zero : signOf 0 = .zero := by simp [signOf]

theorem signOf_ne_uninit (z : Int) : signOf z ≠ .uninit := by
  rcases lt_trichotomy 0 z with h | h | h
  · simp [signOf_pos h]
  · simp [← h]
  · simp [signOf_neg h]

@[simp] theorem Reg.make_sign (f : Format) (z : Int) : (Reg.make f z).sign = signOf z := rfl
@[simp] theorem Reg.make_variant (f : Format) (z : Int) : (Reg.make f z).variant = f.variant := rfl
@[simp] theorem Reg.make_width (f : Format) (z : Int) : (Reg.make f z).width = f.width := rfl
@[simp] theorem Reg.make_mag (f : Format) (z : Int) : (Reg.make f z).mag = z.natAbs := rfl
@[simp] theorem Reg.make_fmt (f : Format) (z : Int) : (Reg.make f z).fmt = f := rfl
@[simp] theorem Reg.fmt_variant (r : Reg) : r.fmt.variant = r.variant := rfl
@[simp] theorem Reg.fmt_width (r : Reg) : r.fmt.width = r.width := rfl

/-- A register reads back the value written to it. -/
@[simp] theorem Reg.make_val (f : Format) (z : Int) : (Reg.make f z).val = z := by
  rcases lt_trichotomy 0 z with h | h | h
  · simp only [Reg.val, Reg.make_sign, signOf_pos h, Reg.make_mag]; omega
  · simp [Reg.val, ← h]
  · simp only [Reg.val, Reg.make_sign, signOf_neg h, Reg.make_mag]; omega

/-- The record R24 writes is the one `Reg.Is` describes. -/
theorem Reg.make_is (f : Format) (z : Int) : (Reg.make f z).Is f z := by
  refine ⟨rfl, rfl, rfl, signOf_pos, signOf_neg, fun h => ?_⟩
  simp [h]

theorem Reg.Is.val {r : Reg} {f : Format} {z : Int} (h : r.Is f z) : r.val = z := by
  obtain ⟨-, -, hm, hp, hn, hz⟩ := h
  rcases lt_trichotomy 0 z with h0 | h0 | h0
  · simp only [Reg.val, hp h0, hm]; omega
  · simp only [Reg.val, hz h0.symm]; omega
  · simp only [Reg.val, hn h0, hm]; omega

theorem Reg.Is.fmt {r : Reg} {f : Format} {z : Int} (h : r.Is f z) : r.fmt = f := by
  obtain ⟨hv, hw, -⟩ := h
  cases f; simp_all [Reg.fmt]

theorem Reg.Is.readable {r : Reg} {f : Format} {z : Int} (h : r.Is f z) : r.sign ≠ .uninit := by
  obtain ⟨-, -, -, hp, hn, hz⟩ := h
  rcases lt_trichotomy 0 z with h0 | h0 | h0
  · simp [hp h0]
  · simp [hz h0.symm]
  · simp [hn h0]

/-- A written register keeps 10_state.md R23 when the format fits the core and holds the value. -/
theorem Reg.make_wf {p : Params} {f : Format} {z : Int} (h1 : 1 ≤ f.width) (h2 : f.width ≤ p.wmax) (h3 : f.holds z) :
    (Reg.make f z).Wf p := by
  intro _
  refine ⟨h1, h2, ?_, ?_, by simpa using h3⟩
  · rcases lt_trichotomy 0 z with h | h | h
    · simp [signOf_pos h]; omega
    · simp [← h]
    · simp [signOf_neg h]; omega
  · intro hv
    have hz : 0 ≤ z := by simpa [Format.lo, show f.variant = .unsigned from hv] using h3.1
    rcases hz.lt_or_eq with h | h
    · simp [signOf_pos h]
    · simp [← h]

theorem Reg.uninit_wf (p : Params) : Reg.uninit.Wf p := fun h => absurd rfl h

end Sys2Proof.Machine
end

