-- ==== Sys2Proof/Laws/Memory.lean ====
section
/-! SUPPORT. The packed buffer: every write keeps the canonical form, a read after a write, MemWrite and MemRead word by
word (20_memory.md R50, R51). -/

namespace Sys2Proof.Machine

/-- A read after a write (20_memory.md R55). -/
theorem Memory.read?_write (m : Memory) (k j : Nat) (w : Word32) :
    (m.write k w).read? j = if j = k then some w else m.read? j := by
  induction m with
  | nil => simp [Memory.write, Memory.read?, eq_comm]
  | cons e rest ih =>
    obtain ⟨a, x⟩ := e
    simp only [Memory.write]
    split
    · simp [Memory.read?, eq_comm]
    · split
      · rename_i _ h; subst h
        by_cases h : j = k
        · simp [Memory.read?, h]
        · simp [Memory.read?, h, Ne.symm h]
      · by_cases h : a = j
        · subst h; simp_all [Memory.read?, eq_comm]
        · simp [Memory.read?, h, ih]

theorem Memory.mem_write {m : Memory} {k : Nat} {w : Word32} {e : Nat × Word32} (h : e ∈ m.write k w) :
    e = (k, w) ∨ e ∈ m := by
  induction m with
  | nil => simpa [Memory.write] using h
  | cons a rest ih =>
    obtain ⟨a, x⟩ := a
    simp only [Memory.write] at h
    split at h
    · simpa using h
    · split at h
      · rcases List.mem_cons.mp h with h | h <;> simp [h]
      · rcases List.mem_cons.mp h with h | h
        · simp [h]
        · rcases ih h with h | h <;> simp [h]

/-- A write keeps the canonical form. -/
theorem Memory.write_wf {m : Memory} (h : m.wf) (k : Nat) (w : Word32) : (m.write k w).wf := by
  induction m with
  | nil => simp [Memory.write, Memory.wf]
  | cons e rest ih =>
    obtain ⟨a, x⟩ := e
    have hr := (List.pairwise_cons.mp h).1
    have ht := (List.pairwise_cons.mp h).2
    simp only [Memory.write]
    split
    · rename_i hlt
      refine List.pairwise_cons.mpr ⟨fun b hb => ?_, h⟩
      rcases List.mem_cons.mp hb with hb | hb
      · simpa [hb] using hlt
      · exact hlt.trans (hr b hb)
    · split
      · rename_i _ heq; subst heq
        exact List.pairwise_cons.mpr ⟨hr, ht⟩
      · rename_i h1 h2
        refine List.pairwise_cons.mpr ⟨fun b hb => ?_, ih ht⟩
        rcases Memory.mem_write hb with hb | hb
        · simp only [hb]; omega
        · exact hr b hb

theorem Memory.write_bound {m : Memory} {n k : Nat} (h : ∀ e ∈ m, e.1 < n) (hk : k < n) (w : Word32) :
    ∀ e ∈ m.write k w, e.1 < n := by
  intro e he
  rcases Memory.mem_write he with he | he
  · simpa [he] using hk
  · exact h e he

variable (s : State)

theorem State.pbufWord_setPbufWord (k j : Nat) (w : Word32) :
    (s.setPbufWord k w).pbufWord j = if j = k then w else s.pbufWord j := by
  simp only [State.pbufWord, State.setPbufWord, Memory.read?_write]
  split <;> simp

/-- What a state's PBUF words depend on. -/
theorem State.pbufWord_congr {s t : State} (h1 : t.pbuf = s.pbuf) (h2 : t.draws = s.draws) (k : Nat) :
    t.pbufWord k = s.pbufWord k := by simp [State.pbufWord, h1, h2]

@[simp] theorem State.pbufWord_setReg (i : RegIx) (r : Reg) (k : Nat) : (s.setReg i r).pbufWord k = s.pbufWord k := rfl
@[simp] theorem State.pbufWord_writeReg (i : RegIx) (f : Format) (z : Int) (k : Nat) :
    (s.writeReg i f z).pbufWord k = s.pbufWord k := rfl
@[simp] theorem State.pbufWord_setFlags (x y : Int) (k : Nat) : (s.setFlags x y).pbufWord k = s.pbufWord k := rfl
@[simp] theorem State.pbufWord_countCommand (k : Nat) : s.countCommand.pbufWord k = s.pbufWord k := rfl
@[simp] theorem State.pbufWord_enterFault (c : Cause) (x : Word32) (k : Nat) :
    (s.enterFault c x).pbufWord k = s.pbufWord k := rfl
@[simp] theorem State.pbufWord_softReset (k : Nat) : s.softReset.pbufWord k = s.pbufWord k := rfl

/-! ### MemWrite -/

/-- MemWrite changes the packed buffer only. -/
theorem State.writeWords_rest (k p n : Nat) : { s.writeWords k p n with pbuf := s.pbuf } = s := by
  induction n with
  | zero => rfl
  | succ n ih => exact ih

@[simp] theorem State.memWrite_params (k n p : Nat) : (s.memWrite k n p).params = s.params := by
  have := congrArg State.params (s.writeWords_rest k p (n / 32)); exact this
@[simp] theorem State.memWrite_regs (k n p : Nat) : (s.memWrite k n p).regs = s.regs := by
  have := congrArg State.regs (s.writeWords_rest k p (n / 32)); exact this
@[simp] theorem State.memWrite_run (k n p : Nat) : (s.memWrite k n p).run = s.run := by
  have := congrArg State.run (s.writeWords_rest k p (n / 32)); exact this
@[simp] theorem State.memWrite_eq (k n p : Nat) : (s.memWrite k n p).eq = s.eq := by
  have := congrArg State.eq (s.writeWords_rest k p (n / 32)); exact this
@[simp] theorem State.memWrite_lt (k n p : Nat) : (s.memWrite k n p).lt = s.lt := by
  have := congrArg State.lt (s.writeWords_rest k p (n / 32)); exact this
@[simp] theorem State.memWrite_cause (k n p : Nat) : (s.memWrite k n p).cause = s.cause := by
  have := congrArg State.cause (s.writeWords_rest k p (n / 32)); exact this
@[simp] theorem State.memWrite_info (k n p : Nat) : (s.memWrite k n p).info = s.info := by
  have := congrArg State.info (s.writeWords_rest k p (n / 32)); exact this
@[simp] theorem State.memWrite_fcmdLo (k n p : Nat) : (s.memWrite k n p).fcmdLo = s.fcmdLo := by
  have := congrArg State.fcmdLo (s.writeWords_rest k p (n / 32)); exact this
@[simp] theorem State.memWrite_fcmdHi (k n p : Nat) : (s.memWrite k n p).fcmdHi = s.fcmdHi := by
  have := congrArg State.fcmdHi (s.writeWords_rest k p (n / 32)); exact this
@[simp] theorem State.memWrite_pbdesc (k n p : Nat) : (s.memWrite k n p).pbdesc = s.pbdesc := by
  have := congrArg State.pbdesc (s.writeWords_rest k p (n / 32)); exact this
@[simp] theorem State.memWrite_cmdLo (k n p : Nat) : (s.memWrite k n p).cmdLo = s.cmdLo := by
  have := congrArg State.cmdLo (s.writeWords_rest k p (n / 32)); exact this
@[simp] theorem State.memWrite_cmdHi (k n p : Nat) : (s.memWrite k n p).cmdHi = s.cmdHi := by
  have := congrArg State.cmdHi (s.writeWords_rest k p (n / 32)); exact this
@[simp] theorem State.memWrite_cmdcnt (k n p : Nat) : (s.memWrite k n p).cmdcnt = s.cmdcnt := by
  have := congrArg State.cmdcnt (s.writeWords_rest k p (n / 32)); exact this
@[simp] theorem State.memWrite_rst (k n p : Nat) : (s.memWrite k n p).rst = s.rst := by
  have := congrArg State.rst (s.writeWords_rest k p (n / 32)); exact this
@[simp] theorem State.memWrite_rdata (k n p : Nat) : (s.memWrite k n p).rdata = s.rdata := by
  have := congrArg State.rdata (s.writeWords_rest k p (n / 32)); exact this
@[simp] theorem State.memWrite_draws (k n p : Nat) : (s.memWrite k n p).draws = s.draws := by
  have := congrArg State.draws (s.writeWords_rest k p (n / 32)); exact this
@[simp] theorem State.memWrite_events (k n p : Nat) : (s.memWrite k n p).events = s.events := by
  have := congrArg State.events (s.writeWords_rest k p (n / 32)); exact this

@[simp] theorem State.reg_memWrite (k n p : Nat) (i : RegIx) : (s.memWrite k n p).reg i = s.reg i := by
  simp [State.reg]

/-- MemWrite, word by word (20_memory.md R51). -/
theorem State.pbufWord_writeWords (k p n j : Nat) :
    (s.writeWords k p n).pbufWord j =
      if k ≤ j ∧ j < k + n then BitVec.ofNat 32 (p >>> (32 * (j - k))) else s.pbufWord j := by
  induction n with
  | zero => simp [State.writeWords]
  | succ n ih =>
    simp only [State.writeWords, State.pbufWord_setPbufWord, ih]
    by_cases h : j = k + n
    · subst h; simp
    · rw [if_neg h]
      by_cases h2 : k ≤ j ∧ j < k + n
      · rw [if_pos h2, if_pos (by omega)]
      · rw [if_neg h2, if_neg (by omega)]

theorem State.writeWords_wf {s : State} (h : s.pbuf.wf) (k p n : Nat) : (s.writeWords k p n).pbuf.wf := by
  induction n with
  | zero => exact h
  | succ n ih => exact Memory.write_wf ih _ _

theorem State.writeWords_bound {s : State} {b : Nat} (h : ∀ e ∈ s.pbuf, e.1 < b) {k n : Nat} (hk : k + n ≤ b) (p : Nat) :
    ∀ e ∈ (s.writeWords k p n).pbuf, e.1 < b := by
  induction n with
  | zero => exact h
  | succ n ih => exact Memory.write_bound (ih (by omega)) (by omega) _

/-! ### MemRead -/

theorem State.readWords_lt (k n : Nat) : s.readWords k n < 2 ^ (32 * n) := by
  induction n with
  | zero => simp [State.readWords]
  | succ n ih =>
    have hb := (s.pbufWord (k + n)).isLt
    have : (s.pbufWord (k + n)).toNat * 2 ^ (32 * n) + 2 ^ (32 * n) ≤ 2 ^ 32 * 2 ^ (32 * n) := by
      rw [← Nat.succ_mul]; exact Nat.mul_le_mul_right _ hb
    have h2 : 2 ^ (32 * (n + 1)) = 2 ^ 32 * 2 ^ (32 * n) := by rw [← Nat.pow_add]; congr 1; omega
    simp only [State.readWords]; omega

/-- MemRead, bit by bit (20_memory.md R49, R50): bit j is bit j mod 32 of word k + j / 32. -/
theorem State.testBit_readWords (k n j : Nat) :
    (s.readWords k n).testBit j = (decide (j < 32 * n) && (s.pbufWord (k + j / 32)).getLsbD (j % 32)) := by
  induction n with
  | zero => simp [State.readWords]
  | succ n ih =>
    have hlt := s.readWords_lt k n
    simp only [State.readWords]
    rw [Nat.add_comm, Nat.mul_comm, Nat.testBit_two_pow_mul_add _ hlt, ih]
    by_cases h : j < 32 * n
    · simp [h, show j < 32 * (n + 1) by omega]
    · rw [if_neg h]
      by_cases h2 : j < 32 * (n + 1)
      · have h3 : j / 32 = n := by omega
        have h4 : j - 32 * n = j % 32 := by omega
        simp [h2, h3, h4, BitVec.getLsbD]
      · have : (s.pbufWord (k + n)).toNat.testBit (j - 32 * n) = false := by
          apply Nat.testBit_lt_two_pow
          exact lt_of_lt_of_le (s.pbufWord (k + n)).isLt (Nat.pow_le_pow_right (by omega) (by omega))
        simp [h2, this]

theorem State.testBit_memRead (k n j : Nat) :
    (s.memRead k n).testBit j = (decide (j < n) && (s.pbufWord (k + j / 32)).getLsbD (j % 32)) := by
  simp only [State.memRead, Nat.testBit_mod_two_pow, State.testBit_readWords, wordsOf]
  by_cases h : j < n
  · simp [h, show j < 32 * ((n + 31) / 32) by omega]
  · simp [h]

theorem State.memRead_lt (k n : Nat) : s.memRead k n < 2 ^ n := Nat.mod_lt _ (by positivity)

end Sys2Proof.Machine
end

