-- ==== Sys2Proof/Laws/Results.lean ====
section
/-! SUPPORT. The value each rule computes lies in the format the rule gives it (00_scope.md R15; 41_arith.md R101;
42_bitwise.md R105; 43_shift.md R111, R112). -/

namespace Sys2Proof.Machine

theorem two_pow_le {a b : Nat} (h : a ≤ b) : (2 : Int) ^ a ≤ 2 ^ b := pow_le_pow_right₀ (by norm_num) h

/-- Every value of a format is a two's-complement value of es bits (R9). -/
theorem Format.holds_es {f : Format} (h : 1 ≤ f.width) {z : Int} (hz : f.holds z) :
    -(2 : Int) ^ (f.es - 1) ≤ z ∧ z < 2 ^ (f.es - 1) := by
  obtain ⟨v, w⟩ := f
  have := two_pow_pos w
  cases v <;> simp only [Format.holds, Format.lo, Format.hi, Format.es, Nat.add_sub_cancel] at * <;> constructor <;> omega

theorem Format.es_pos {f : Format} (h : 1 ≤ f.width) : 1 ≤ f.es := by
  obtain ⟨v, w⟩ := f
  cases v <;> simp only [Format.es] at * <;> omega

/-- A bounded value is in a wide enough Signed format. -/
theorem Format.holds_signed {n w : Nat} (hn : n + 1 ≤ w) {z : Int} (hz : -(2 : Int) ^ n ≤ z ∧ z < 2 ^ n) :
    Format.holds { variant := .signed, width := w } z := by
  have := two_pow_le (show n ≤ w - 1 by omega)
  simp only [Format.holds, Format.lo, Format.hi]; omega

theorem Format.holds_zero {f : Format} : f.holds 0 := by
  obtain ⟨v, w⟩ := f
  have := two_pow_pos w
  have := two_pow_pos (w - 1)
  cases v <;> simp only [Format.holds, Format.lo, Format.hi] <;> omega

/-! ### ADD, SUB, NEG -/

theorem rfmtAdd_width_pos (a b : Format) : 1 ≤ (rfmtAdd a b).width := by
  unfold rfmtAdd; split <;> simp

/-- ADD is exact (R15, R90). -/
theorem rfmtAdd_holds_add {a b : Format} (ha : 1 ≤ a.width) (hb : 1 ≤ b.width) {x y : Int} (hx : a.holds x)
    (hy : b.holds y) : (rfmtAdd a b).holds (x + y) := by
  have h1 := Format.holds_es ha hx
  have h2 := Format.holds_es hb hy
  have hes := Format.es_pos ha
  have hes' := Format.es_pos hb
  by_cases hs : a.variant = b.variant
  · obtain ⟨v, wa⟩ := a
    obtain ⟨v', wb⟩ := b
    obtain rfl : v = v' := hs
    have l1 := two_pow_le (le_max_left wa wb)
    have l2 := two_pow_le (le_max_right wa wb)
    have l3 := two_pow_pred (show 1 ≤ max wa wb + 1 by omega)
    cases v
    · simp only [rfmtAdd, if_true, Format.holds, Format.lo, Format.hi, Nat.add_sub_cancel] at *; omega
    · have k1 := two_pow_pred ha
      have k2 := two_pow_pred hb
      simp only [rfmtAdd, if_true, Format.holds, Format.lo, Format.hi, Nat.add_sub_cancel] at *; omega
  · rw [rfmtAdd, if_neg hs]
    refine Format.holds_signed le_rfl ?_
    have l1 := two_pow_le (le_max_left a.es b.es)
    have l2 := two_pow_le (le_max_right a.es b.es)
    have k1 := two_pow_pred hes
    have k2 := two_pow_pred hes'
    omega

/-- SUB is exact when the result is Signed (R15, R91). -/
theorem rfmtAdd_holds_sub {a b : Format} (ha : 1 ≤ a.width) (hb : 1 ≤ b.width) {x y : Int} (hx : a.holds x)
    (hy : b.holds y) (hv : (rfmtAdd a b).variant = .signed ∨ y ≤ x) : (rfmtAdd a b).holds (x - y) := by
  have h1 := Format.holds_es ha hx
  have h2 := Format.holds_es hb hy
  have hes := Format.es_pos ha
  have hes' := Format.es_pos hb
  by_cases hs : a.variant = b.variant
  · obtain ⟨v, wa⟩ := a
    obtain ⟨v', wb⟩ := b
    obtain rfl : v = v' := hs
    have l1 := two_pow_le (le_max_left wa wb)
    have l2 := two_pow_le (le_max_right wa wb)
    have l3 := two_pow_pred (show 1 ≤ max wa wb + 1 by omega)
    cases v
    · simp only [rfmtAdd, if_true, Format.holds, Format.lo, Format.hi, Nat.add_sub_cancel, reduceCtorEq, false_or] at *
      omega
    · have k1 := two_pow_pred ha
      have k2 := two_pow_pred hb
      simp only [rfmtAdd, if_true, Format.holds, Format.lo, Format.hi, Nat.add_sub_cancel] at *; omega
  · rw [rfmtAdd, if_neg hs]
    refine Format.holds_signed le_rfl ?_
    have l1 := two_pow_le (le_max_left a.es b.es)
    have l2 := two_pow_le (le_max_right a.es b.es)
    have k1 := two_pow_pred hes
    have k2 := two_pow_pred hes'
    omega

/-- NEG is exact for Signed operands (R95). -/
theorem rfmtNeg_holds {a : Format} (ha : 1 ≤ a.width) {x : Int} (hx : a.holds x) (hv : a.variant = .signed ∨ x = 0) :
    (rfmtNeg a).holds (-x) := by
  obtain ⟨v, w⟩ := a
  have k := two_pow_pred ha
  have := two_pow_pos (w + 1)
  cases v
  · simp only [rfmtNeg, Format.holds, Format.lo, Format.hi, reduceCtorEq, false_or] at *; omega
  · simp only [rfmtNeg, Format.holds, Format.lo, Format.hi, Nat.add_sub_cancel] at *; omega

/-! ### MUL -/

theorem rfmtMul_width_pos {a b : Format} (ha : 1 ≤ a.width) : 1 ≤ (rfmtMul a b).width := by
  have := Format.es_pos ha
  unfold rfmtMul; split <;> simp <;> omega

theorem mul_bound {n m : Nat} {x y : Int} (hx : -(2 : Int) ^ n ≤ x ∧ x < 2 ^ n) (hy : -(2 : Int) ^ m ≤ y ∧ y < 2 ^ m) :
    -(2 : Int) ^ (n + m) ≤ x * y ∧ x * y ≤ 2 ^ (n + m) := by
  have hx' : |x| ≤ 2 ^ n := abs_le.mpr ⟨hx.1, hx.2.le⟩
  have hy' : |y| ≤ 2 ^ m := abs_le.mpr ⟨hy.1, hy.2.le⟩
  have : |x * y| ≤ 2 ^ (n + m) := by
    rw [abs_mul, pow_add]; exact mul_le_mul hx' hy' (abs_nonneg y) (by positivity)
  exact abs_le.mp this

/-- MUL is exact (R15, R92). -/
theorem rfmtMul_holds {a b : Format} (ha : 1 ≤ a.width) (hb : 1 ≤ b.width) {x y : Int} (hx : a.holds x)
    (hy : b.holds y) : (rfmtMul a b).holds (x * y) := by
  by_cases hs : a.variant = .unsigned ∧ b.variant = .unsigned
  · obtain ⟨v, wa⟩ := a
    obtain ⟨v', wb⟩ := b
    obtain ⟨rfl, rfl⟩ : v = .unsigned ∧ v' = .unsigned := hs
    simp only [rfmtMul, if_true, Format.holds, Format.lo, Format.hi] at *
    have : x * y ≤ (2 ^ wa - 1) * (2 ^ wb - 1) := mul_le_mul hx.2 hy.2 hy.1 (by omega)
    have p1 := two_pow_pos wa
    have p2 := two_pow_pos wb
    rw [pow_add]
    exact ⟨mul_nonneg hx.1 hy.1, by nlinarith⟩
  · have hw : ∃ w, rfmtMul a b = { variant := .signed, width := w } ∧ a.es - 1 + (b.es - 1) + 2 ≤ w := by
      have := Format.es_pos ha
      have := Format.es_pos hb
      obtain ⟨v, wa⟩ := a
      obtain ⟨v', wb⟩ := b
      cases v <;> cases v' <;> simp_all [rfmtMul, Format.es] <;> omega
    obtain ⟨w, hr, hw⟩ := hw
    have hm := mul_bound (Format.holds_es ha hx) (Format.holds_es hb hy)
    have hlt : (2 : Int) ^ (a.es - 1 + (b.es - 1)) < 2 ^ (a.es - 1 + (b.es - 1) + 1) :=
      pow_lt_pow_right₀ (by norm_num) (Nat.lt_succ_self _)
    rw [hr]
    exact Format.holds_signed hw ⟨by omega, by omega⟩

/-! ### DIV, MOD -/

/-- The truncating quotient of R13 is the integer division that truncates toward zero. -/
theorem tdiv_eq (u v : Int) : tdiv u v = u.tdiv v := by
  unfold tdiv
  rcases Int.natAbs_eq u with hu | hu <;> rcases Int.natAbs_eq v with hv | hv <;>
    rw [hu, hv] <;> generalize u.natAbs = m <;> generalize v.natAbs = n <;>
    simp only [Int.natAbs_neg, Int.natAbs_natCast, Int.sign_neg, Int.tdiv_neg, Int.neg_tdiv, neg_mul, mul_neg, neg_neg,
      neg_inj, Int.ofNat_tdiv] <;>
    rcases Nat.eq_zero_or_pos m with rfl | hm <;> rcases Nat.eq_zero_or_pos n with rfl | hn <;>
    simp [Int.sign_eq_one_of_pos, *]

theorem tmod_eq (u v : Int) : tmod u v = u.tmod v := by
  rw [tmod, tdiv_eq, Int.tmod_def, mul_comm]

theorem tdiv_natAbs_le (u v : Int) : (tdiv u v).natAbs ≤ u.natAbs := by
  rw [tdiv_eq, Int.natAbs_tdiv]; exact Nat.div_le_self _ _

theorem tdiv_nonneg {u v : Int} (hu : 0 ≤ u) (hv : 0 ≤ v) : 0 ≤ tdiv u v := by
  rw [tdiv_eq]; exact Int.tdiv_nonneg hu hv

theorem tmod_natAbs_le (u v : Int) : (tmod u v).natAbs ≤ u.natAbs := by
  rw [tmod_eq, Int.natAbs_tmod]; exact Nat.mod_le _ _

theorem tmod_nonneg {u : Int} (hu : 0 ≤ u) (v : Int) : 0 ≤ tmod u v := by
  rw [tmod_eq]; exact Int.tmod_nonneg v hu

theorem tmod_nonpos {u : Int} (hu : u ≤ 0) (v : Int) : tmod u v ≤ 0 := by
  have := tmod_nonneg (show 0 ≤ -u by omega) v
  rw [tmod_eq, Int.neg_tmod] at this
  rw [tmod_eq]; omega

theorem rfmtDiv_width_pos {a b : Format} (ha : 1 ≤ a.width) : 1 ≤ (rfmtDiv a b).width := by
  unfold rfmtDiv; split <;> simp; omega

/-- DIV is exact (R15, R93). -/
theorem rfmtDiv_holds {a b : Format} (ha : 1 ≤ a.width) {x y : Int} (hx : a.holds x) (hy : b.holds y) :
    (rfmtDiv a b).holds (tdiv x y) := by
  have hle := tdiv_natAbs_le x y
  by_cases hs : a.variant = .unsigned ∧ b.variant = .unsigned
  · obtain ⟨v, wa⟩ := a
    obtain ⟨v', wb⟩ := b
    obtain ⟨rfl, rfl⟩ : v = .unsigned ∧ v' = .unsigned := hs
    simp only [rfmtDiv, and_self, if_true, Format.holds, Format.lo, Format.hi] at *
    have := tdiv_nonneg hx.1 hy.1
    omega
  · rw [rfmtDiv, if_neg hs]
    refine Format.holds_signed (n := a.width) le_rfl ?_
    have h := Format.holds_es ha hx
    have k := two_pow_pred ha
    have p := two_pow_pos (a.width - 1)
    obtain ⟨v, wa⟩ := a
    cases v <;> simp only [Format.es, Format.holds, Format.lo, Format.hi, Nat.add_sub_cancel] at * <;> omega

/-- A small-scalar quotient or remainder stays in the format of the dividend (R99, R100). -/
theorem Format.holds_of_between {f : Format} {x z : Int} (hx : f.holds x) (h : (0 ≤ z ∧ z ≤ x) ∨ (x ≤ z ∧ z ≤ 0)) :
    f.holds z := by
  have h0 := Format.holds_zero (f := f)
  exact ⟨by have := h0.1; have := hx.1; omega, by have := h0.2; have := hx.2; omega⟩

theorem tdiv_between {u k : Int} (hk : 0 ≤ k) : (0 ≤ tdiv u k ∧ tdiv u k ≤ u) ∨ (u ≤ tdiv u k ∧ tdiv u k ≤ 0) := by
  have hle := tdiv_natAbs_le u k
  rcases le_total 0 u with h | h
  · have := tdiv_nonneg h hk; omega
  · have := tdiv_nonneg (show 0 ≤ -u by omega) hk
    rw [tdiv_eq, Int.neg_tdiv, ← tdiv_eq] at this; omega

theorem tmod_between (u k : Int) : (0 ≤ tmod u k ∧ tmod u k ≤ u) ∨ (u ≤ tmod u k ∧ tmod u k ≤ 0) := by
  have hle := tmod_natAbs_le u k
  rcases le_total 0 u with h | h
  · have := tmod_nonneg h k; omega
  · have := tmod_nonpos h k; omega

theorem rfmtMod_width_pos {a b : Format} (ha : 1 ≤ a.width) : 1 ≤ (rfmtMod a b).width := by
  have := Format.es_pos ha
  unfold rfmtMod; split <;> simpa

/-- MOD is exact (R15, R94). -/
theorem rfmtMod_holds {a b : Format} (ha : 1 ≤ a.width) {x : Int} (hx : a.holds x) (y : Int) :
    (rfmtMod a b).holds (tmod x y) := by
  by_cases hs : a.variant = b.variant
  · rw [rfmtMod, if_pos hs]
    exact Format.holds_of_between hx (tmod_between x y)
  · have h := Format.holds_es ha hx
    have hle := tmod_natAbs_le x y
    rw [rfmtMod, if_neg hs]
    refine Format.holds_signed (n := a.es - 1) (by have := Format.es_pos ha; omega) ?_
    rcases tmod_between x y with hb | hb <;> omega

/-! ### AND, OR, XOR (R105) -/

theorem testBit_natAndNot (x y i : Nat) : (natAndNot x y).testBit i = (x.testBit i && !y.testBit i) := by
  simp only [natAndNot, Nat.testBit_xor, Nat.testBit_and]
  cases x.testBit i <;> cases y.testBit i <;> rfl

theorem bitOf_intAnd (x y : Int) (i : Nat) : bitOf (intAnd x y) i = (bitOf x i && bitOf y i) := by
  cases x <;> cases y <;>
    simp [intAnd, bitOf_negSucc, testBit_natAndNot, Bool.and_comm]

theorem bitOf_intOr (x y : Int) (i : Nat) : bitOf (intOr x y) i = (bitOf x i || bitOf y i) := by
  cases x <;> cases y <;>
    simp [intOr, bitOf_negSucc, testBit_natAndNot, Bool.or_comm]

theorem bitOf_intXor (x y : Int) (i : Nat) : bitOf (intXor x y) i = (bitOf x i ^^ bitOf y i) := by
  cases x <;> cases y <;> simp [intXor, bitOf_negSucc]

theorem intAnd_neg (x y : Int) : intAnd x y < 0 ↔ x < 0 ∧ y < 0 := by
  cases x <;> cases y <;> simp [intAnd, Int.negSucc_lt_zero, Int.not_lt.mpr (Int.natCast_nonneg _)]

theorem intOr_neg (x y : Int) : intOr x y < 0 ↔ x < 0 ∨ y < 0 := by
  cases x <;> cases y <;> simp [intOr, Int.negSucc_lt_zero, Int.not_lt.mpr (Int.natCast_nonneg _)]

theorem intXor_neg (x y : Int) : intXor x y < 0 ↔ ¬(x < 0 ↔ y < 0) := by
  cases x <;> cases y <;> simp [intXor, Int.negSucc_lt_zero, Int.not_lt.mpr (Int.natCast_nonneg _)]

/-- A value whose bits from n on are all its sign is a value of n + 1 two's-complement bits. -/
theorem bounds_of_bits {n : Nat} {z : Int} (h : ∀ i, n ≤ i → bitOf z i = decide (z < 0)) :
    -(2 : Int) ^ n ≤ z ∧ z < 2 ^ n := by
  have p := two_pow_pos n
  cases z with
  | ofNat m =>
    have : m < 2 ^ n := Nat.lt_pow_two_of_testBit m fun i hi => by
      simpa [Int.not_lt.mpr (Int.natCast_nonneg m)] using h i hi
    have : (m : Int) < 2 ^ n := by exact_mod_cast this
    simp only [Int.ofNat_eq_natCast]; omega
  | negSucc m =>
    have : m < 2 ^ n := Nat.lt_pow_two_of_testBit m fun i hi => by simpa [bitOf_negSucc, Int.negSucc_lt_zero] using h i hi
    have : (m : Int) < 2 ^ n := by exact_mod_cast this
    omega

/-- The bits of a value at and beyond the last of its es bits are its sign. -/
theorem Format.bitOf_es {f : Format} (h : 1 ≤ f.width) {z : Int} (hz : f.holds z) {i : Nat} (hi : f.es - 1 ≤ i) :
    bitOf z i = decide (z < 0) := by
  have hb := Format.holds_es h hz
  refine Format.bitOf_of_le (f := { variant := .signed, width := i + 1 }) (by simp) ?_ (i := i + 1) (by simp) |>.symm ▸ ?_
  · exact Format.holds_signed (by omega) hb
  · have hpow := two_pow_le hi
    cases z with
    | ofNat m =>
      have : (m : Int) < 2 ^ i := by have := hb.2; rw [Int.ofNat_eq_natCast] at this; omega
      rw [Int.ofNat_eq_natCast, bitOf_natCast, bitOf_natCast, Nat.testBit_lt_two_pow (by exact_mod_cast this),
        Nat.testBit_lt_two_pow]
      exact lt_trans (by exact_mod_cast this) (Nat.pow_lt_pow_right (by norm_num) (Nat.lt_succ_self i))
    | negSucc m =>
      have : (m : Int) < 2 ^ i := by have := hb.1; omega
      rw [bitOf_negSucc, bitOf_negSucc, Nat.testBit_lt_two_pow (by exact_mod_cast this), Nat.testBit_lt_two_pow]
      exact lt_trans (by exact_mod_cast this) (Nat.pow_lt_pow_right (by norm_num) (Nat.lt_succ_self i))

/-- A bitwise result is in its format (R105): a function of bits, computed bit by bit, whose sign is the function of the
operands' signs. -/
theorem rfmtBitwise_holds {a b : Format} (ha : 1 ≤ a.width) (hb : 1 ≤ b.width) {x y z : Int} (hx : a.holds x)
    (hy : b.holds y) {op : Bool → Bool → Bool} (h0 : op false false = false)
    (hbit : ∀ i, bitOf z i = op (bitOf x i) (bitOf y i)) (hsign : decide (z < 0) = op (decide (x < 0)) (decide (y < 0))) :
    (rfmtBitwise a b).holds z := by
  have key : ∀ n, a.es - 1 ≤ n → b.es - 1 ≤ n → -(2 : Int) ^ n ≤ z ∧ z < 2 ^ n := fun n h1 h2 =>
    bounds_of_bits fun i hi => by
      rw [hbit, Format.bitOf_es ha hx (by omega), Format.bitOf_es hb hy (by omega), hsign]
  by_cases hs : a.variant = b.variant
  · obtain ⟨v, wa⟩ := a
    obtain ⟨v', wb⟩ := b
    obtain rfl : v = v' := hs
    cases v
    · have hk := key (max wa wb) (by simp [Format.es]) (by simp [Format.es])
      have hn : ¬ z < 0 := by
        have h1 := hx.1; have h2 := hy.1
        simp only [Format.lo] at h1 h2
        simpa [h0, not_lt.mpr h1, not_lt.mpr h2] using hsign
      simp only [rfmtBitwise, if_true, Format.holds, Format.lo, Format.hi]; omega
    · have hk := key (max wa wb - 1) (by simp only [Format.es]; omega) (by simp only [Format.es]; omega)
      rw [rfmtBitwise, if_pos rfl]
      exact Format.holds_signed (by simp only at ha; simp only; omega) hk
  · rw [rfmtBitwise, if_neg hs]
    have := Format.es_pos ha
    exact Format.holds_signed (n := max a.es b.es - 1) (by omega) (key _ (by omega) (by omega))

theorem rfmtBitwise_width_pos {a b : Format} (ha : 1 ≤ a.width) : 1 ≤ (rfmtBitwise a b).width := by
  have := Format.es_pos ha
  unfold rfmtBitwise; split <;> simp <;> omega

theorem rfmtBitwise_holds_and {a b : Format} (ha : 1 ≤ a.width) (hb : 1 ≤ b.width) {x y : Int} (hx : a.holds x)
    (hy : b.holds y) : (rfmtBitwise a b).holds (intAnd x y) :=
  rfmtBitwise_holds ha hb hx hy (op := and) rfl (bitOf_intAnd x y) (by simp [intAnd_neg])

theorem rfmtBitwise_holds_or {a b : Format} (ha : 1 ≤ a.width) (hb : 1 ≤ b.width) {x y : Int} (hx : a.holds x)
    (hy : b.holds y) : (rfmtBitwise a b).holds (intOr x y) :=
  rfmtBitwise_holds ha hb hx hy (op := or) rfl (bitOf_intOr x y) (by simp [intOr_neg])

theorem rfmtBitwise_holds_xor {a b : Format} (ha : 1 ≤ a.width) (hb : 1 ≤ b.width) {x y : Int} (hx : a.holds x)
    (hy : b.holds y) : (rfmtBitwise a b).holds (intXor x y) :=
  rfmtBitwise_holds ha hb hx hy (op := xor) rfl (bitOf_intXor x y) (by
    by_cases h1 : x < 0 <;> by_cases h2 : y < 0 <;> simp [intXor_neg, h1, h2])

/-! ### Shifts -/

/-- SHL loses no bit (R111). -/
theorem holds_shl {f : Format} (h : 1 ≤ f.width) {z : Int} (hz : f.holds z) (n : Nat) :
    Format.holds { variant := f.variant, width := f.width + n } (z * 2 ^ n) := by
  obtain ⟨v, w⟩ := f
  have p := two_pow_pos n
  cases v
  · simp only [Format.holds, Format.lo, Format.hi, pow_add] at *
    exact ⟨mul_nonneg hz.1 p.le, by nlinarith⟩
  · simp only [Format.holds, Format.lo, Format.hi] at *
    rw [show w + n - 1 = w - 1 + n by omega, pow_add]
    constructor <;> nlinarith

/-- SHR is the floor of the quotient by 2^n (R112). -/
theorem shiftRight_eq_floor (z : Int) (n : Nat) : z >>> n = z / 2 ^ n := by
  rw [Int.shiftRight_eq_div_pow]; norm_cast

theorem holds_shr {f : Format} {z : Int} (hz : f.holds z) (n : Nat) : f.holds (z >>> n) := by
  rw [shiftRight_eq_floor]
  have p := two_pow_pos n
  rcases le_or_gt 0 z with h | h
  · exact Format.holds_of_between hz (.inl ⟨Int.ediv_nonneg h p.le, Int.ediv_le_self _ h⟩)
  · refine Format.holds_of_between hz (.inr ⟨?_, ?_⟩)
    · rw [Int.le_ediv_iff_mul_le p]; nlinarith
    · exact (Int.ediv_neg_of_neg_of_pos h p).le

/-! ### Bit access -/

theorem setBit_lt {p i w : Nat} (hp : p < 2 ^ w) (hi : i < w) : setBit p i < 2 ^ w :=
  Nat.or_lt_two_pow hp (Nat.pow_lt_pow_right (by norm_num) hi)

theorem clearBit_lt {p w : Nat} (hp : p < 2 ^ w) (i : Nat) : clearBit p i < 2 ^ w :=
  Nat.lt_pow_two_of_testBit _ fun j hj => by
    simp [clearBit, testBit_natAndNot, Nat.testBit_lt_two_pow (lt_of_lt_of_le hp (Nat.pow_le_pow_right (by norm_num) hj))]

theorem testBit_setBit (p i j : Nat) : (setBit p i).testBit j = (p.testBit j || decide (i = j)) := by
  simp [setBit, Nat.testBit_two_pow]

theorem testBit_clearBit (p i j : Nat) : (clearBit p i).testBit j = (p.testBit j && !decide (i = j)) := by
  simp [clearBit, testBit_natAndNot, Nat.testBit_two_pow]

theorem reversePat_lt (p w : Nat) : reversePat p w < 2 ^ w := sumBits_lt _ _

theorem testBit_reversePat (p w j : Nat) : (reversePat p w).testBit j = (decide (j < w) && p.testBit (w - 1 - j)) :=
  testBit_sumBits _ _ _

/-- RANGE gives a value of its format, of width 1 to the operand's width (R124). -/
theorem Reg.range_holds (a : Reg) (h : 1 ≤ a.width) (l r : Nat) :
    1 ≤ (a.range l r).1.width ∧ (a.range l r).1.width ≤ a.width ∧ (a.range l r).1.holds (a.range l r).2 := by
  unfold Reg.range
  split
  · simp [Format.u1, Format.holds, Format.lo, Format.hi, h]
  · refine ⟨by simp, by simp only; omega, ?_⟩
    simp only [Format.holds, Format.lo, Format.hi]
    refine ⟨by positivity, Int.le_sub_one_of_lt ?_⟩
    exact_mod_cast sumBits_lt _ _

/-- U1 holds 0 and 1. -/
theorem Format.u1_holds (b : Bool) : Format.u1.holds (if b then 1 else 0) := by
  cases b <;> simp [Format.u1, Format.holds, Format.lo, Format.hi]

/-- U32 holds every count that fits 32 bits. -/
theorem Format.u32_holds {z : Int} (h0 : 0 ≤ z) (h : z < 2 ^ 32) : Format.u32.holds z := by
  simp only [Format.u32, Format.holds, Format.lo, Format.hi]; omega

/-- The digit count of a magnitude below 2^w is at most w (R128). -/
theorem significantDigits_le {bpd m w : Nat} (hb : 1 ≤ bpd) (hm : m < 2 ^ w) : significantDigits bpd m ≤ w := by
  unfold significantDigits
  split
  · omega
  · have := bitlen_le hm
    calc (bitlen m + bpd - 1) / bpd ≤ (bitlen m * bpd + bpd - 1) / bpd := by
          apply Nat.div_le_div_right
          have : bitlen m ≤ bitlen m * bpd := Nat.le_mul_of_pos_right _ hb
          omega
      _ = bitlen m := by
          rw [Nat.add_sub_assoc hb, Nat.mul_comm, Nat.mul_add_div (by omega), Nat.div_eq_of_lt (by omega)]; simp
      _ ≤ w := this

end Sys2Proof.Machine
end

