-- ==== Sys2Proof/Laws/Rules.lean ====
section
/-! SUPPORT. What each shared operation can do, and, from these, everything a command can do (one inversion lemma for
exec). -/

namespace Sys2Proof.Machine

variable {s : State}

/-! ### The shared checks -/

theorem withReg_readable {field : OperandField} {i : RegIx} (h : s.Readable i) (k : Reg → RuleEnd) :
    withReg s field i k = k (s.reg i) := if_neg h

theorem withReg_uninit {field : OperandField} {i : RegIx} (h : (s.reg i).sign = .uninit) (k : Reg → RuleEnd) :
    withReg s field i k = .raise .uninit (uninitInfo field i) s := if_pos h

theorem withFormat_fits {f : Format} (h : f.width ≤ s.params.wmax) (k : Format → RuleEnd) : withFormat s f k = k f :=
  if_neg (Nat.not_lt.mpr h)

theorem withFormat_wide {f : Format} (h : s.params.wmax < f.width) (k : Format → RuleEnd) :
    withFormat s f k = .raise .capacity (capacityInfo f.width) s := if_pos h

theorem withImmFormat_zero {v : Variant} {imm : Word32} (h : imm.toNat = 0) (k : Format → RuleEnd) :
    withImmFormat s v imm k = .raise .badWidth 0 s := if_pos h

theorem withImmFormat_pos {v : Variant} {imm : Word32} (h : imm.toNat ≠ 0) (k : Format → RuleEnd) :
    withImmFormat s v imm k = withFormat s { variant := v, width := imm.toNat } k := if_neg h

theorem withOperand2_reg {rb : RegIx} (h : s.Readable rb) (k : Int → RuleEnd) :
    withOperand2 s (.reg rb) k = k (s.reg rb).val := by
  unfold withOperand2; exact withReg_readable h _

theorem withOperand2_imm (imm : Word32) (k : Int → RuleEnd) : withOperand2 s (.imm imm) k = k (zext32 imm) := rfl

/-- A command always ends in a next state: a fault is one too (60_exceptions.md R147). -/
theorem RuleEnd.finish_next (r : RuleEnd) : ∃ t, r.finish = .next t := by
  cases r <;> exact ⟨_, rfl⟩

/-! ### Everything a command can do -/

/-- A write that keeps 10_state.md R23, when the registers it was computed from keep it. -/
def WriteOk (s : State) (f : Format) (z : Int) : Prop :=
  s.params.valid → (∀ i, (s.reg i).Wf s.params) → 1 ≤ f.width ∧ f.width ≤ s.params.wmax ∧ f.holds z

/-- DIV, MOD, DIVI or MODI with destination rd: the commands that raise E_DIV0 (60_exceptions.md R146). -/
def Divides (i : Instr) (rd : RegIx) : Prop :=
  (∃ ra rb, i = .div rd ra rb ∨ i = .mod rd ra rb) ∨ ∃ ra imm, i = .divi rd ra imm ∨ i = .modi rd ra imm

/-- The ends of a command's rule: nothing written (NOP), one register written, a comparison, an export, a fault with
nothing written, a division fault with Zero written (60_exceptions.md R148). -/
inductive CommandEffect (i : Instr) (s : State) : RuleEnd → Prop
  | nothing (hi : i = .nop) : CommandEffect i s (.done s)
  | write (rd : RegIx) (f : Format) (z : Int) (hd : destOf i = some rd) (hf : writesFlags i = false)
      (ok : WriteOk s f z) : CommandEffect i s (.done (s.writeReg rd f z))
  | compare (rd : RegIx) (x y : Int) (b : Bool) (hd : destOf i = some rd) (hf : writesFlags i = true) :
      CommandEffect i s (.done ((s.setFlags x y).writeReg rd Format.u1 (if b then 1 else 0)))
  | pack (ra : RegIx) (hi : i = .exportV ra) (hr : s.Readable ra) :
      CommandEffect i s (.done
        { s.memWrite 0 (32 * wordsOf (s.reg ra).width) (pat (s.reg ra).val (32 * wordsOf (s.reg ra).width)) with
          pbdesc := (s.reg ra).descriptor })
  | fault (c : Cause) (info : Word32) (hc : c ≠ .noFault) (hz : c ≠ .div0)
      (hu : c = .uninit → ∃ p ∈ readsOf i, (s.reg p.2).sign = .uninit) : CommandEffect i s (.raise c info s)
  | zeroed (rd : RegIx) (f : Format) (info : Word32) (hi : Divides i rd) (ok : WriteOk s f 0) :
      CommandEffect i s (.raise .div0 info (s.writeReg rd f 0))

theorem Divides.dest {i : Instr} {rd : RegIx} (h : Divides i rd) : destOf i = some rd := by
  rcases h with ⟨ra, rb, rfl | rfl⟩ | ⟨ra, imm, rfl | rfl⟩ <;> rfl

theorem withReg_effect {i : Instr} {field : OperandField} {j : RegIx} {k : Reg → RuleEnd}
    (hm : (field, j) ∈ readsOf i) (h : s.Readable j → CommandEffect i s (k (s.reg j))) : CommandEffect i s (withReg s field j k) := by
  by_cases hu : (s.reg j).sign = .uninit
  · rw [withReg_uninit hu]; exact .fault _ _ (by simp) (by simp) fun _ => ⟨_, hm, hu⟩
  · rw [withReg_readable hu]; exact h hu

theorem withFormat_effect {i : Instr} {f : Format} {k : Format → RuleEnd}
    (h : f.width ≤ s.params.wmax → CommandEffect i s (k f)) : CommandEffect i s (withFormat s f k) := by
  by_cases hw : s.params.wmax < f.width
  · rw [withFormat_wide hw]; exact .fault _ _ (by simp) (by simp) (by simp)
  · rw [withFormat_fits (Nat.not_lt.mp hw)]; exact h (Nat.not_lt.mp hw)

theorem withImmFormat_effect {i : Instr} {v : Variant} {imm : Word32} {k : Format → RuleEnd}
    (h : 1 ≤ imm.toNat → imm.toNat ≤ s.params.wmax → CommandEffect i s (k { variant := v, width := imm.toNat })) :
    CommandEffect i s (withImmFormat s v imm k) := by
  by_cases h0 : imm.toNat = 0
  · rw [withImmFormat_zero h0]; exact .fault _ _ (by simp) (by simp) (by simp)
  · rw [withImmFormat_pos h0]; exact withFormat_effect (h (Nat.one_le_iff_ne_zero.mpr h0))

theorem withOperand2_effect {i : Instr} {o : Operand2} {k : Int → RuleEnd}
    (hm : ∀ rb, o = .reg rb → (.rb, rb) ∈ readsOf i) (h : ∀ n, CommandEffect i s (k n)) : CommandEffect i s (withOperand2 s o k) := by
  cases o with
  | reg rb => unfold withOperand2; exact withReg_effect (hm rb rfl) fun _ => h _
  | imm n => exact h _

/-- The register invariant of a register that was read. -/
theorem State.wf_of_readable {j : RegIx} (h : s.Readable j) (hr : ∀ i, (s.reg i).Wf s.params) :
    1 ≤ (s.reg j).width ∧ (s.reg j).width ≤ s.params.wmax ∧ (s.reg j).fmt.holds (s.reg j).val :=
  let w := hr j h; ⟨w.1, w.2.1, w.2.2.2.2⟩

/-- The register an operand names, if it names one. -/
def Operand2.reads : Operand2 → List (OperandField × RegIx)
  | .reg rb => [(.rb, rb)]
  | .imm _ => []

theorem twoOperand_effect {i : Instr} {rd ra rb : RegIx} {rfmt : Format → Format → Format}
    {value : Format → Int → Int → Int} (hd : destOf i = some rd) (hf : writesFlags i = false)
    (hread : readsOf i = [(.ra, ra), (.rb, rb)])
    (hv : ∀ a b : Format, ∀ x y : Int, 1 ≤ a.width → 1 ≤ b.width → a.holds x → b.holds y →
      1 ≤ (rfmt a b).width ∧ (rfmt a b).holds (value (rfmt a b) x y)) :
    CommandEffect i s (twoOperand s rd ra rb rfmt value) :=
  withReg_effect (by simp [hread]) fun ha => withReg_effect (by simp [hread]) fun hb => withFormat_effect fun hw =>
    .write rd _ _ hd hf fun _ hr =>
      let wa := State.wf_of_readable ha hr
      let wb := State.wf_of_readable hb hr
      let v := hv _ _ _ _ wa.1 wb.1 wa.2.2 wb.2.2
      ⟨v.1, hw, v.2⟩

theorem dividing_effect {i : Instr} {rd ra rb : RegIx} {rfmt : Format → Format → Format} {m : Bool}
    {value : Int → Int → Int} (hi : Divides i rd) (hf : writesFlags i = false)
    (hread : readsOf i = [(.ra, ra), (.rb, rb)])
    (hv : ∀ a b : Format, ∀ x y : Int, 1 ≤ a.width → a.holds x → b.holds y →
      1 ≤ (rfmt a b).width ∧ (rfmt a b).holds (value x y)) :
    CommandEffect i s (dividing s rd ra rb rfmt m value) :=
  withReg_effect (by simp [hread]) fun ha => withReg_effect (by simp [hread]) fun hb => withFormat_effect fun hw => by
    have ok : ∀ z, WriteOk s (rfmt (s.reg ra).fmt (s.reg rb).fmt) z ∨ z ≠ 0 ∧ z ≠ value (s.reg ra).val (s.reg rb).val := by
      intro z
      by_cases h0 : z = 0
      · exact .inl fun _ hr =>
          let wa := State.wf_of_readable ha hr
          let wb := State.wf_of_readable hb hr
          ⟨(hv _ _ _ _ wa.1 wa.2.2 wb.2.2).1, hw, h0 ▸ Format.holds_zero⟩
      · by_cases h1 : z = value (s.reg ra).val (s.reg rb).val
        · exact .inl fun _ hr =>
            let wa := State.wf_of_readable ha hr
            let wb := State.wf_of_readable hb hr
            let v := hv _ _ _ _ wa.1 wa.2.2 wb.2.2
            ⟨v.1, hw, h1 ▸ v.2⟩
        · exact .inr ⟨h0, h1⟩
    split
    · exact .zeroed rd _ _ hi ((ok 0).resolve_right fun h => h.1 rfl)
    · exact .write rd _ _ hi.dest hf ((ok _).resolve_right fun h => h.2 rfl)

theorem oneOperand_effect {i : Instr} {rd ra : RegIx} {result : Reg → Format × Int} (hd : destOf i = some rd)
    (hf : writesFlags i = false)
    (hread : readsOf i = [(.ra, ra)])
    (hv : s.params.valid → ∀ a : Reg, 1 ≤ a.width → a.width ≤ s.params.wmax → a.fmt.holds a.val →
      1 ≤ (result a).1.width ∧ (result a).1.width ≤ s.params.wmax ∧ (result a).1.holds (result a).2) :
    CommandEffect i s (oneOperand s rd ra result) :=
  withReg_effect (by simp [hread]) fun ha => .write rd _ _ hd hf fun hp hr =>
    let wa := State.wf_of_readable ha hr
    hv hp _ wa.1 wa.2.1 wa.2.2

theorem dividingImm_effect {i : Instr} {rd ra : RegIx} {imm : Word32} {m : Bool} {value : Int → Int → Int}
    (hi : Divides i rd) (hf : writesFlags i = false)
    (hread : readsOf i = [(.ra, ra)])
    (hv : ∀ u k : Int, 0 ≤ k → (0 ≤ value u k ∧ value u k ≤ u) ∨ (u ≤ value u k ∧ value u k ≤ 0)) :
    CommandEffect i s (dividingImm s rd ra imm m value) :=
  withReg_effect (by simp [hread]) fun ha => by
    split
    · exact .zeroed rd _ _ hi fun _ hr =>
        let wa := State.wf_of_readable ha hr; ⟨wa.1, wa.2.1, Format.holds_zero⟩
    · exact .write rd _ _ hi.dest hf fun _ hr =>
        let wa := State.wf_of_readable ha hr
        ⟨wa.1, wa.2.1, Format.holds_of_between wa.2.2 (hv _ _ (by simp [zext32]))⟩

theorem shiftingLeft_effect {i : Instr} {rd ra : RegIx} {o : Operand2} (hd : destOf i = some rd)
    (hf : writesFlags i = false)
    (hread : readsOf i = (.ra, ra) :: o.reads) : CommandEffect i s (shiftingLeft s rd ra o) :=
  withReg_effect (by simp [hread]) fun ha => withOperand2_effect (by rintro rb rfl; simp [hread, Operand2.reads]) fun n => by
    split
    · exact .write rd _ _ hd hf fun _ hr => State.wf_of_readable ha hr
    · exact withFormat_effect fun hw => .write rd _ _ hd hf fun _ hr =>
        let wa := State.wf_of_readable ha hr
        ⟨by simp only; omega, hw, holds_shl (f := (s.reg ra).fmt) wa.1 wa.2.2 _⟩

theorem shiftingRight_effect {i : Instr} {rd ra : RegIx} {o : Operand2} (hd : destOf i = some rd)
    (hf : writesFlags i = false)
    (hread : readsOf i = (.ra, ra) :: o.reads) : CommandEffect i s (shiftingRight s rd ra o) :=
  withReg_effect (by simp [hread]) fun ha => withOperand2_effect (by rintro rb rfl; simp [hread, Operand2.reads]) fun n => by
    split
    · exact .write rd _ _ hd hf fun _ hr => State.wf_of_readable ha hr
    · exact .write rd _ _ hd hf fun _ hr =>
        let wa := State.wf_of_readable ha hr; ⟨wa.1, wa.2.1, holds_shr wa.2.2 _⟩

theorem testing_effect {i : Instr} {rd ra : RegIx} {o : Operand2} (hd : destOf i = some rd)
    (hf : writesFlags i = false)
    (hread : readsOf i = (.ra, ra) :: o.reads) : CommandEffect i s (testing s rd ra o) :=
  withReg_effect (by simp [hread]) fun _ => withOperand2_effect (by rintro rb rfl; simp [hread, Operand2.reads]) fun _ => .write rd _ _ hd hf fun hp _ =>
    ⟨le_rfl, le_trans (by norm_num [Format.u1]) hp.1, Format.u1_holds _⟩

theorem changingBit_effect {i : Instr} {rd ra : RegIx} {o : Operand2} {change : Nat → Nat → Nat}
    (hd : destOf i = some rd) (hf : writesFlags i = false)
    (hread : readsOf i = (.ra, ra) :: o.reads)
    (hc : ∀ p j w, p < 2 ^ w → j < w → change p j < 2 ^ w) : CommandEffect i s (changingBit s rd ra o change) :=
  withReg_effect (by simp [hread]) fun ha => withOperand2_effect (by rintro rb rfl; simp [hread, Operand2.reads]) fun n => .write rd _ _ hd hf fun _ hr => by
    have wa := State.wf_of_readable ha hr
    refine ⟨wa.1, wa.2.1, Format.unpat_holds wa.1 ?_⟩
    split
    · rename_i h
      exact hc _ _ _ (pat_lt _ _) (by have := h.1; have := h.2; simp only [Reg.fmt_width]; omega)
    · exact pat_lt _ _

theorem comparing_effect {i : Instr} {rd ra rb : RegIx} {c : Cond} {q : Reg → Int} (hd : destOf i = some rd)
    (hf : writesFlags i = true)
    (hread : readsOf i = [(.ra, ra), (.rb, rb)]) : CommandEffect i s (comparing s rd ra rb c q) :=
  withReg_effect (by simp [hread]) fun _ => withReg_effect (by simp [hread]) fun _ => .compare rd _ _ _ hd hf

theorem formatting_effect {i : Instr} {rd : RegIx} {v : Variant} {imm : Word32} (hd : destOf i = some rd)
    (hf : writesFlags i = false) : CommandEffect i s (formatting s rd v imm) :=
  withImmFormat_effect fun h1 h2 => .write rd _ _ hd hf fun _ _ => ⟨h1, h2, Format.holds_zero⟩

theorem importing_effect {i : Instr} {rd : RegIx} {v : Variant} {imm : Word32} (hd : destOf i = some rd)
    (hf : writesFlags i = false) : CommandEffect i s (importing s rd v imm) :=
  withImmFormat_effect fun h1 h2 => .write rd _ _ hd hf fun _ _ =>
    ⟨h1, h2, Format.unpat_holds h1 (s.memRead_lt _ _)⟩

theorem loading_effect {i : Instr} {rd : RegIx} {z : Int} (hd : destOf i = some rd)
    (hf : writesFlags i = false)
    (hread : readsOf i = [(.rd, rd)]) : CommandEffect i s (loading s rd z) :=
  withReg_effect (by simp [hread]) fun h => .write rd _ _ hd hf fun _ hr =>
    let w := State.wf_of_readable h hr; ⟨w.1, w.2.1, Format.fit_holds w.1 _⟩

/-- The receiver's format with a reduced value (00_scope.md R16). -/
theorem fitted_effect {i : Instr} {rd ra : RegIx} {g : Int → Int} (hd : destOf i = some rd)
    (hf : writesFlags i = false)
    (hread : readsOf i = [(.ra, ra)]) : CommandEffect i s (oneOperand s rd ra fun a => (a.fmt, a.fmt.fit (g a.val))) :=
  oneOperand_effect hd hf hread fun _ _ h1 h2 _ => ⟨h1, h2, Format.fit_holds h1 _⟩

/-- EVERYTHING A COMMAND CAN DO: its rule ends in one of the ways of `CommandEffect`. -/
theorem exec_effect (i : Instr) (s : State) : ∃ r, exec i s = r.finish ∧ CommandEffect i s r := by
  cases i with
  | nop => exact ⟨_, rfl, .nothing rfl⟩
  | fmtU | fmtS => exact ⟨_, rfl, formatting_effect rfl rfl⟩
  | ldiU | ldiS => exact ⟨_, rfl, loading_effect rfl rfl rfl⟩
  | mov => exact ⟨_, rfl, oneOperand_effect rfl rfl rfl fun _ _ h1 h2 h => ⟨h1, h2, h⟩⟩
  | castU =>
    refine ⟨_, rfl, oneOperand_effect rfl rfl rfl fun _ a h1 h2 h => ?_⟩
    split
    · exact ⟨h1, h2, h⟩
    · exact ⟨h1, h2, Format.fit_holds h1 _⟩
  | castS rd ra =>
    refine ⟨_, rfl, withReg_effect (by simp [readsOf]) fun ha => ?_⟩
    split
    · exact .write rd _ _ rfl rfl fun _ hr => State.wf_of_readable ha hr
    · refine withFormat_effect fun hw => .write rd _ _ rfl rfl fun _ hr => ?_
      have wa := State.wf_of_readable ha hr
      refine ⟨by simp, hw, Format.holds_signed le_rfl ?_⟩
      have hv : (s.reg ra).variant = .unsigned := by
        rename_i hn; cases h : (s.reg ra).variant <;> simp_all
      have := Format.holds_es wa.1 wa.2.2
      simpa [Format.es, hv] using this
  | cvt rd ra =>
    exact ⟨_, rfl, withReg_effect (by simp [readsOf]) fun _ => withReg_effect (by simp [readsOf]) fun hd => .write rd _ _ rfl rfl fun _ hr =>
      let w := State.wf_of_readable hd hr; ⟨w.1, w.2.1, Format.fit_holds w.1 _⟩⟩
  | importU | importS => exact ⟨_, rfl, importing_effect rfl rfl⟩
  | exportV ra => exact ⟨_, rfl, withReg_effect (by simp [readsOf]) fun h => .pack ra rfl h⟩
  | add | sub =>
    exact ⟨_, rfl, twoOperand_effect rfl rfl rfl fun a b _ _ _ _ _ _ =>
      ⟨rfmtAdd_width_pos a b, Format.fit_holds (rfmtAdd_width_pos a b) _⟩⟩
  | mul => exact ⟨_, rfl, twoOperand_effect rfl rfl rfl fun _ _ _ _ ha hb hx hy =>
      ⟨rfmtMul_width_pos ha, rfmtMul_holds ha hb hx hy⟩⟩
  | div => exact ⟨_, rfl, dividing_effect (.inl ⟨_, _, .inl rfl⟩) rfl rfl fun _ _ _ _ ha hx hy => ⟨rfmtDiv_width_pos ha, rfmtDiv_holds ha hx hy⟩⟩
  | mod => exact ⟨_, rfl, dividing_effect (.inl ⟨_, _, .inr rfl⟩) rfl rfl fun _ _ _ y ha hx _ => ⟨rfmtMod_width_pos ha, rfmtMod_holds ha hx y⟩⟩
  | neg rd ra =>
    exact ⟨_, rfl, withReg_effect (by simp [readsOf]) fun _ => withFormat_effect fun hw => .write rd _ _ rfl rfl fun _ _ =>
      ⟨by simp [rfmtNeg], hw, Format.fit_holds (by simp [rfmtNeg]) _⟩⟩
  | addi rd ra imm => exact ⟨_, rfl, fitted_effect (g := fun x => x + zext32 imm) rfl rfl rfl⟩
  | subi rd ra imm => exact ⟨_, rfl, fitted_effect (g := fun x => x - zext32 imm) rfl rfl rfl⟩
  | muli rd ra imm => exact ⟨_, rfl, fitted_effect (g := fun x => x * zext32 imm) rfl rfl rfl⟩
  | not rd ra => exact ⟨_, rfl, fitted_effect (g := fun x => -x - 1) rfl rfl rfl⟩
  | divi => exact ⟨_, rfl, dividingImm_effect (.inr ⟨_, _, .inl rfl⟩) rfl rfl fun _ _ hk => tdiv_between hk⟩
  | modi => exact ⟨_, rfl, dividingImm_effect (.inr ⟨_, _, .inr rfl⟩) rfl rfl fun u k _ => tmod_between u k⟩
  | and => exact ⟨_, rfl, twoOperand_effect rfl rfl rfl fun _ _ _ _ ha hb hx hy =>
      ⟨rfmtBitwise_width_pos ha, rfmtBitwise_holds_and ha hb hx hy⟩⟩
  | or => exact ⟨_, rfl, twoOperand_effect rfl rfl rfl fun _ _ _ _ ha hb hx hy =>
      ⟨rfmtBitwise_width_pos ha, rfmtBitwise_holds_or ha hb hx hy⟩⟩
  | xor => exact ⟨_, rfl, twoOperand_effect rfl rfl rfl fun _ _ _ _ ha hb hx hy =>
      ⟨rfmtBitwise_width_pos ha, rfmtBitwise_holds_xor ha hb hx hy⟩⟩
  | shl | shlImm => exact ⟨_, rfl, shiftingLeft_effect rfl rfl rfl⟩
  | shr | shrImm => exact ⟨_, rfl, shiftingRight_effect rfl rfl rfl⟩
  | cmpEq | cmpNe | cmpLt | cmpLe | cmpGt | cmpGe | cmpmEq | cmpmNe | cmpmLt | cmpmLe | cmpmGt | cmpmGe =>
    exact ⟨_, rfl, comparing_effect rfl rfl rfl⟩
  | tst | tstImm => exact ⟨_, rfl, testing_effect rfl rfl rfl⟩
  | bset | bsetImm => exact ⟨_, rfl, changingBit_effect rfl rfl rfl fun _ _ _ hp hj => setBit_lt hp hj⟩
  | bclr | bclrImm => exact ⟨_, rfl, changingBit_effect rfl rfl rfl fun _ _ _ hp _ => clearBit_lt hp _⟩
  | rev => exact ⟨_, rfl, oneOperand_effect rfl rfl rfl fun _ a h1 h2 _ =>
      ⟨h1, h2, Format.unpat_holds h1 (reversePat_lt _ _)⟩⟩
  | range _ _ l r =>
    exact ⟨_, rfl, oneOperand_effect rfl rfl rfl fun _ a h1 h2 _ =>
      let w := a.range_holds h1 l.toNat r.toNat; ⟨w.1, w.2.1.trans h2, w.2.2⟩⟩
  | sigd =>
    refine ⟨_, rfl, oneOperand_effect rfl rfl rfl fun hp a h1 h2 h => ⟨by norm_num [Format.u32], hp.1, Format.u32_holds (by positivity) ?_⟩⟩
    have hm : a.val.natAbs < 2 ^ (a.width + 1) := by
      have hb := Format.holds_es (f := a.fmt) h1 h
      have := two_pow_le (show a.fmt.es - 1 ≤ a.width + 1 by unfold Format.es; split <;> (simp; try omega))
      zify; rw [abs_lt]
      have := two_pow_pos (a.fmt.es - 1)
      have : (2 : Int) ^ (a.fmt.es - 1) < 2 ^ (a.width + 1) :=
        pow_lt_pow_right₀ (by norm_num) (by unfold Format.es; split <;> (simp; try omega))
      omega
    have := significantDigits_le (bpd := s.params.bpd) (by have := hp.2.2.1; omega) hm
    have := hp.2.1
    have h3 : a.width + 1 < 2 ^ 32 := by omega
    omega
  | clz =>
    refine ⟨_, rfl, oneOperand_effect rfl rfl rfl fun hp a h1 h2 h => ⟨by norm_num [Format.u32], hp.1, Format.u32_holds ?_ ?_⟩⟩
    · have := bitlen_le (pat_lt a.val a.width); simp only; omega
    · have := hp.2.1; simp only; omega

/-- A command always ends in a next state. -/
theorem exec_next (i : Instr) (s : State) : ∃ t, exec i s = .next t := by
  obtain ⟨r, h, -⟩ := exec_effect i s
  obtain ⟨t, ht⟩ := r.finish_next
  exact ⟨t, h.trans ht⟩

end Sys2Proof.Machine
end

