-- ==== Sys2Proof/Laws/Outcomes.lean ====
section
/-! SUPPORT. From the end of a command's rule to what the statements say of it: a register written, a fault taken
(10_state.md R24, R30; 60_exceptions.md R147, R148). -/

namespace Sys2Proof.Machine

variable {s : State} {i : Instr}

/-- STATUS as a number, and its FAULT bit (10_state.md R35). -/
theorem State.status_eq (s : State) : s.status =
    BitVec.ofNat 32 ((if s.run = .fault then 1 else 0) + (if s.eq then 2 else 0) + (if s.lt then 4 else 0)) := by
  simp only [State.status, State.errO]
  generalize s.eq = e; generalize s.lt = l; generalize s.run = r
  revert e l; cases r <;> decide

theorem State.status_bit0 (s : State) : s.status.getLsbD 0 = s.errO := by
  simp only [State.status]
  generalize s.eq = e; generalize s.lt = l; generalize s.errO = r
  revert e l r; decide

/-- The report of a fault entry that changes no flag, no packed state and no port state. -/
theorem State.faultEntered_enterFault (u : State) (c : Cause) (info : Word32) (hf : s.SameFlags u) (hp : s.SamePacked u)
    (hq : s.SamePort u) (hc : u.cmdcnt = s.cmdcnt) : s.FaultEntered (u.enterFault c info) c info where
  run := rfl
  status := by rw [State.status_bit0]; rfl
  cause := rfl
  info := rfl
  fcmdLo := hq.cmdLo
  fcmdHi := hq.cmdHi
  flags := hf
  packed := hp
  port := ⟨hq.params, hq.cmdLo, hq.cmdHi, hq.rst, hq.rdata, hq.draws, hq.events⟩
  count := hc

theorem State.samePort_refl : s.SamePort s := ⟨rfl, rfl, rfl, rfl, rfl, rfl, rfl⟩

theorem State.samePort_writeReg (rd : RegIx) (f : Format) (z : Int) : s.SamePort (s.writeReg rd f z) :=
  ⟨rfl, rfl, rfl, rfl, rfl, rfl, rfl⟩

/-- A rule that ends in one register write. -/
theorem State.gives_of_write {rd : RegIx} {f : Format} {z : Int}
    (h : exec i s = (RuleEnd.done (s.writeReg rd f z)).finish) : s.Gives i rd f z :=
  ⟨_, h, by simpa using Reg.make_is f z, fun j hj => by simp [State.reg_writeReg_ne s hj], ⟨rfl, rfl⟩,
    ⟨rfl, fun _ => rfl⟩, ⟨rfl, rfl, rfl, rfl, rfl⟩, ⟨rfl, rfl, rfl, rfl, rfl, rfl, rfl⟩, rfl⟩

/-- A rule that raises a fault with nothing written. -/
theorem State.raises_of_raise {c : Cause} {info : Word32} (h : exec i s = (RuleEnd.raise c info s).finish) :
    s.Raises i c info :=
  ⟨_, h, State.faultEntered_enterFault s c info ⟨rfl, rfl⟩ ⟨rfl, fun _ => rfl⟩ State.samePort_refl rfl, fun _ => rfl⟩

/-- A rule that writes Zero and raises E_DIV0. -/
theorem State.raisesDiv0_of_raise {rd : RegIx} {f : Format} {info : Word32}
    (h : exec i s = (RuleEnd.raise .div0 info (s.writeReg rd f 0)).finish) : s.RaisesDiv0 i rd f info :=
  ⟨_, h, State.faultEntered_enterFault _ _ info ⟨rfl, rfl⟩ ⟨rfl, fun _ => rfl⟩ (State.samePort_writeReg rd f 0) rfl,
    by simpa using Reg.make_is f 0, fun j hj => by simp [State.reg_writeReg_ne s hj]⟩

theorem State.gives_unique {rd : RegIx} {f : Format} {y z : Int} (h : s.Gives i rd f y) (hz : s.Gives i rd f z) : y = z := by
  obtain ⟨t, ht, hy, -⟩ := h
  obtain ⟨u, hu, hz, -⟩ := hz
  obtain rfl : t = u := by simpa [ht] using hu
  rw [← hy.val, ← hz.val]

/-! ### The INFO words (60_exceptions.md R141) -/

theorem uninitInfo_ra (ra : RegIx) : uninitInfo .ra ra = BitVec.ofNat 32 (16 + ra.toNat) := by revert ra; decide
theorem uninitInfo_rb (rb : RegIx) : uninitInfo .rb rb = BitVec.ofNat 32 (32 + rb.toNat) := by revert rb; decide
theorem uninitInfo_rd (rd : RegIx) : uninitInfo .rd rd = BitVec.ofNat 32 rd.toNat := by revert rd; decide

/-! ### The checks -/

/-- A rule that reads RA first. -/
theorem State.checksRa_of_withReg {ra : RegIx} {k : Reg → RuleEnd} (h : exec i s = (withReg s .ra ra k).finish) :
    s.ChecksRa i ra := fun hu =>
  State.raises_of_raise (by rw [h, withReg_uninit hu, uninitInfo_ra])

/-- A rule that reads RA, then RB. -/
theorem State.checksRaRb_of_withReg {ra rb : RegIx} {k : Reg → Reg → RuleEnd}
    (h : exec i s = (withReg s .ra ra fun a => withReg s .rb rb (k a)).finish) : s.ChecksRaRb i ra rb :=
  ⟨State.checksRa_of_withReg h, fun hr hu =>
    State.raises_of_raise (by rw [h, withReg_readable hr, withReg_uninit hu, uninitInfo_rb])⟩

/-- A rule that checks its result width against WMAX. -/
theorem State.upToWmax_of_withFormat {f : Format} {k : Format → RuleEnd} {does : Prop}
    (h : exec i s = (withFormat s f k).finish) (hd : exec i s = (k f).finish → does) : s.UpToWmax i f.width does :=
  ⟨fun hw => State.raises_of_raise (by rw [h, withFormat_wide hw]; rfl),
    fun hw => hd (by rw [h, withFormat_fits hw])⟩

/-- Reduction into a format of width at least 1. -/
theorem State.givesReduced_of_write {rd : RegIx} {f : Format} {z : Int} (hf : 1 ≤ f.width)
    (h : exec i s = (RuleEnd.done (s.writeReg rd f (f.fit z))).finish) : s.GivesReduced i rd f z :=
  ⟨_, State.gives_of_write h, Format.fit_holds hf z, Int.ModEq.dvd (Format.fit_emod f z).symm⟩

/-- A pattern read in a format of width at least 1. -/
theorem State.givesBits_of_write {rd : RegIx} {f : Format} {p : Nat} {bits : Nat → Bool} (hf : 1 ≤ f.width)
    (hp : p < 2 ^ f.width) (hb : ∀ j, j < f.width → p.testBit j = bits j)
    (h : exec i s = (RuleEnd.done (s.writeReg rd f (f.unpat p))).finish) : s.GivesBits i rd f bits :=
  ⟨_, State.gives_of_write h, Format.unpat_holds hf hp, fun j hj => by rw [Format.bitOf_unpat hp hj, hb j hj]⟩

end Sys2Proof.Machine
end

