-- ==== Sys2Proof/Laws/PerInstr.lean ====
section
/-! SUPPORT. Per instruction: its fields are a legal command word by the check of WellFormed.lean, which does not use the
decoder (30_encoding.md R64 to R67). -/

namespace Sys2Proof.Laws.Encoding

/-- The word the encoder gives the instruction is legal. -/
def Statement (i : Instr) : Prop := (CmdFields.ofBits (encode i)).wellFormed = true

theorem of_fields {i : Instr} (h : i.fields.wellFormed = true) : Statement i := by
  rw [Statement, encode, CmdFields.ofBits_toBits, h]

theorem nop : Statement (.nop) := of_fields rfl
theorem fmtU (rd : RegIx) (imm : Word32) : Statement (.fmtU rd imm) := of_fields rfl
theorem fmtS (rd : RegIx) (imm : Word32) : Statement (.fmtS rd imm) := of_fields rfl
theorem ldiU (rd : RegIx) (imm : Word32) : Statement (.ldiU rd imm) := of_fields rfl
theorem ldiS (rd : RegIx) (imm : Word32) : Statement (.ldiS rd imm) := of_fields rfl
theorem mov (rd ra : RegIx) : Statement (.mov rd ra) := of_fields rfl
theorem castU (rd ra : RegIx) : Statement (.castU rd ra) := of_fields rfl
theorem castS (rd ra : RegIx) : Statement (.castS rd ra) := of_fields rfl
theorem cvt (rd ra : RegIx) : Statement (.cvt rd ra) := of_fields rfl
theorem importU (rd : RegIx) (imm : Word32) : Statement (.importU rd imm) := of_fields rfl
theorem importS (rd : RegIx) (imm : Word32) : Statement (.importS rd imm) := of_fields rfl
theorem exportV (ra : RegIx) : Statement (.exportV ra) := of_fields rfl
theorem add (rd ra rb : RegIx) : Statement (.add rd ra rb) := of_fields rfl
theorem sub (rd ra rb : RegIx) : Statement (.sub rd ra rb) := of_fields rfl
theorem mul (rd ra rb : RegIx) : Statement (.mul rd ra rb) := of_fields rfl
theorem div (rd ra rb : RegIx) : Statement (.div rd ra rb) := of_fields rfl
theorem mod (rd ra rb : RegIx) : Statement (.mod rd ra rb) := of_fields rfl
theorem neg (rd ra : RegIx) : Statement (.neg rd ra) := of_fields rfl
theorem addi (rd ra : RegIx) (imm : Word32) : Statement (.addi rd ra imm) := of_fields rfl
theorem subi (rd ra : RegIx) (imm : Word32) : Statement (.subi rd ra imm) := of_fields rfl
theorem muli (rd ra : RegIx) (imm : Word32) : Statement (.muli rd ra imm) := of_fields rfl
theorem divi (rd ra : RegIx) (imm : Word32) : Statement (.divi rd ra imm) := of_fields rfl
theorem modi (rd ra : RegIx) (imm : Word32) : Statement (.modi rd ra imm) := of_fields rfl
theorem and (rd ra rb : RegIx) : Statement (.and rd ra rb) := of_fields rfl
theorem or (rd ra rb : RegIx) : Statement (.or rd ra rb) := of_fields rfl
theorem xor (rd ra rb : RegIx) : Statement (.xor rd ra rb) := of_fields rfl
theorem not (rd ra : RegIx) : Statement (.not rd ra) := of_fields rfl
theorem shl (rd ra rb : RegIx) : Statement (.shl rd ra rb) := of_fields rfl
theorem shlImm (rd ra : RegIx) (imm : Word32) : Statement (.shlImm rd ra imm) := of_fields rfl
theorem shr (rd ra rb : RegIx) : Statement (.shr rd ra rb) := of_fields rfl
theorem shrImm (rd ra : RegIx) (imm : Word32) : Statement (.shrImm rd ra imm) := of_fields rfl
theorem cmpEq (rd ra rb : RegIx) : Statement (.cmpEq rd ra rb) := of_fields rfl
theorem cmpNe (rd ra rb : RegIx) : Statement (.cmpNe rd ra rb) := of_fields rfl
theorem cmpLt (rd ra rb : RegIx) : Statement (.cmpLt rd ra rb) := of_fields rfl
theorem cmpLe (rd ra rb : RegIx) : Statement (.cmpLe rd ra rb) := of_fields rfl
theorem cmpGt (rd ra rb : RegIx) : Statement (.cmpGt rd ra rb) := of_fields rfl
theorem cmpGe (rd ra rb : RegIx) : Statement (.cmpGe rd ra rb) := of_fields rfl
theorem cmpmEq (rd ra rb : RegIx) : Statement (.cmpmEq rd ra rb) := of_fields rfl
theorem cmpmNe (rd ra rb : RegIx) : Statement (.cmpmNe rd ra rb) := of_fields rfl
theorem cmpmLt (rd ra rb : RegIx) : Statement (.cmpmLt rd ra rb) := of_fields rfl
theorem cmpmLe (rd ra rb : RegIx) : Statement (.cmpmLe rd ra rb) := of_fields rfl
theorem cmpmGt (rd ra rb : RegIx) : Statement (.cmpmGt rd ra rb) := of_fields rfl
theorem cmpmGe (rd ra rb : RegIx) : Statement (.cmpmGe rd ra rb) := of_fields rfl
theorem tst (rd ra rb : RegIx) : Statement (.tst rd ra rb) := of_fields rfl
theorem tstImm (rd ra : RegIx) (imm : Word32) : Statement (.tstImm rd ra imm) := of_fields rfl
theorem bset (rd ra rb : RegIx) : Statement (.bset rd ra rb) := of_fields rfl
theorem bsetImm (rd ra : RegIx) (imm : Word32) : Statement (.bsetImm rd ra imm) := of_fields rfl
theorem bclr (rd ra rb : RegIx) : Statement (.bclr rd ra rb) := of_fields rfl
theorem bclrImm (rd ra : RegIx) (imm : Word32) : Statement (.bclrImm rd ra imm) := of_fields rfl
theorem rev (rd ra : RegIx) : Statement (.rev rd ra) := of_fields rfl
theorem range (rd ra : RegIx) (l r : BitVec 16) : Statement (.range rd ra l r) := of_fields rfl
theorem sigd (rd ra : RegIx) : Statement (.sigd rd ra) := of_fields rfl
theorem clz (rd ra : RegIx) : Statement (.clz rd ra) := of_fields rfl

end Sys2Proof.Laws.Encoding
end

