-- ==== Sys2Proof/Laws/Port.lean ====
section
/-! SUPPORT. The host port: what a step does with each kind of input, and what an access does at each offset of the map
(20_memory.md R46, R47; 30_encoding.md R72; 70_reset_and_hazards.md R170). -/

namespace Sys2Proof.Machine

variable {s : State}

/-! ### One step -/

theorem step_idle (h : s.events = []) : step s = .next s := by simp only [step, h]

theorem step_pending (e : HostEvent) (rest : List HostEvent) :
    step (s.pending e rest) = serve { s with events := rest } e := rfl

/-- A host write at an offset from BASE. -/
theorem step_write (h : s.rst = false) (off data : Word32) (rest : List HostEvent) :
    step (s.pending (.write (s.params.base + off) data) rest) = hostWrite { s with events := rest } off.toNat data := by
  have ho : s.params.base + off - s.params.base = off := by
    rw [BitVec.add_comm, BitVec.add_sub_cancel]
  rw [step_pending, serve, if_neg (by simp [h]), State.offsetOf, ho]

/-- A host read at an offset from BASE. -/
theorem step_read (h : s.rst = false) (off : Word32) (rest : List HostEvent) :
    step (s.pending (.read (s.params.base + off)) rest) =
      .next { s with events := rest, rdata := s.hostRead off.toNat } := by
  have ho : s.params.base + off - s.params.base = off := by
    rw [BitVec.add_comm, BitVec.add_sub_cancel]
  rw [step_pending, serve, if_neg (by simp [h]), State.offsetOf, ho]
  rfl

theorem step_rst (level : Bool) (rest : List HostEvent) :
    step (s.pending (.rst level) rest) = .next (({ s with events := rest } : State).setRst level) := rfl

/-- A host access while `rst` is asserted. -/
theorem step_read_held (h : s.rst = true) (addr : Word32) (rest : List HostEvent) :
    step (s.pending (.read addr) rest) = .next { s with events := rest, rdata := 0 } := by
  rw [step_pending, serve, if_pos h]

theorem step_write_held (h : s.rst = true) (addr data : Word32) (rest : List HostEvent) :
    step (s.pending (.write addr data) rest) = .next { s with events := rest } := by
  rw [step_pending, serve, if_pos h]

/-! ### The map -/

theorem pbufIndex_pbuf {p : Params} {k : Nat} (h : k < p.npw) : pbufIndex p (0x100 + 4 * k) = some k := by
  rw [pbufIndex, if_pos ⟨by omega, by omega, by omega⟩]; congr 1; omega

theorem pbufIndex_some {p : Params} {off k : Nat} (h : pbufIndex p off = some k) : off = 0x100 + 4 * k ∧ k < p.npw := by
  unfold pbufIndex at h
  split at h
  · simp only [Option.some.injEq] at h; omega
  · cases h

theorem pbufIndex_low {p : Params} {off : Nat} (h : off < 0x100) : pbufIndex p off = none := if_neg (by omega)

theorem pbufIndex_misaligned {p : Params} {off : Nat} (h : off % 4 ≠ 0) : pbufIndex p off = none := if_neg (by omega)

theorem pbufIndex_high {p : Params} {off : Nat} (h : 0x100 + 4 * p.npw ≤ off) : pbufIndex p off = none :=
  if_neg (by omega)

theorem hostWrite_pbuf {k : Nat} (h : k < s.params.npw) (data : Word32) :
    hostWrite s (0x100 + 4 * k) data = .next (s.setPbufWord k data) := by
  simp only [hostWrite, pbufIndex_pbuf h]

theorem hostWrite_cmdLo (data : Word32) : hostWrite s 0x020 data = .next { s with cmdLo := data } := rfl

theorem hostWrite_cmdHi (data : Word32) : hostWrite s 0x024 data = issue { s with cmdHi := data } := rfl

theorem hostWrite_ctrl (data : Word32) :
    hostWrite s 0x028 data = if data.getLsbD 0 then .next s.softReset else .next s := rfl

/-- A write at every other offset has no effect (20_memory.md R54). -/
theorem hostWrite_ignored {off : Nat} (hp : pbufIndex s.params off = none) (h1 : off ≠ 0x020) (h2 : off ≠ 0x024)
    (h3 : off ≠ 0x028) (data : Word32) : hostWrite s off data = .next s := by
  simp only [hostWrite, hp]

theorem hostRead_pbuf {k : Nat} (h : k < s.params.npw) : s.hostRead (0x100 + 4 * k) = s.pbufWord k := by
  simp only [State.hostRead, pbufIndex_pbuf h]

theorem hostRead_csr {off : Nat} (h : off < 0x100) : s.hostRead off = s.csrRead off := by
  simp only [State.hostRead, pbufIndex_low h]

/-- A read at an offset with no register and no PBUF word gives 0 (20_memory.md R46, R47). -/
theorem hostRead_zero {off : Nat} (hp : pbufIndex s.params off = none)
    (h : off % 4 ≠ 0 ∨ off = 0x028 ∨ 0x030 ≤ off) : s.hostRead off = 0 := by
  simp only [State.hostRead, hp, State.csrRead]
  split <;> first | rfl | omega

/-! ### Issuing a command -/

theorem issue_fault (h : s.run = .fault) : issue s = .next s := by simp only [issue, h]

theorem issue_illegal (h : s.run = .ready) (hd : decode s.command = none) :
    issue s = .next (s.enterFault .illegal 0) := by simp only [issue, h, hd]; rfl

theorem issue_exec (h : s.run = .ready) {i : Instr} (hd : decode s.command = some i) : issue s = exec i s := by
  simp only [issue, h, hd]

/-- A step answers a next state, whatever the state. -/
theorem issue_next (s : State) : ∃ t, issue s = .next t := by
  unfold issue
  split
  · exact ⟨_, rfl⟩
  · split
    · exact ⟨_, rfl⟩
    · exact exec_next _ _

end Sys2Proof.Machine
end

