-- ==== Sys2Proof/Tests/Slice0.lean ====
section
/-! SUPPORT. The tests: ill-formed words, decoding, one or two vectors of the spec per command, the step, the assembler
syntax, and for each statement a witness that meets its hypotheses. Expected values come from spec/95_test_vectors.md or
are worked out by hand from the rule named. -/

namespace Sys2Proof.Tests

open Sys2Proof Sys2Proof.Machine

/-! ### Small states -/

/-- The reset state with some value registers written: (register, variant, width, value). -/
def start (rs : List (RegIx × Variant × Nat × Int)) : State :=
  rs.foldl (fun s r => s.writeReg r.1 { variant := r.2.1, width := r.2.2.1 } r.2.2.2) State.reset

/-- The state after a command. -/
def after (i : Instr) (s : State) : State :=
  match exec i s with
  | .next t => t
  | .fault _ => s
  | .refused _ => s

/-- Variant, width and value of a register after a command that completes. -/
def result (i : Instr) (s : State) (rd : RegIx) : Option (Variant × Nat × Int) :=
  let t := after i s
  if t.run = .ready ∧ t.cmdcnt = s.cmdcnt + 1 then some ((t.reg rd).variant, (t.reg rd).width, (t.reg rd).val) else none

/-- CAUSE and INFO after a command that faults. -/
def fault (i : Instr) (s : State) : Option (Cause × Word32) :=
  let t := after i s
  if t.run = .fault ∧ t.cmdcnt = s.cmdcnt then some (t.cause, t.info) else none

/-- EQ and LT after a command. -/
def flags (i : Instr) (s : State) : Bool × Bool := ((after i s).eq, (after i s).lt)

/-! ### Ill-formed words: each check of WellFormed refuses one (30_encoding.md R64, R66, R67) -/

theorem test_wellFormed_accepts_add : ({ op := 0x10, rd := 3, ra := 1, rb := 2 } : CmdFields).wellFormed = true := by
  decide
theorem test_wellFormed_opcode : ({ op := 0x08 } : CmdFields).wellFormed = false := by decide
theorem test_wellFormed_rd : ({ op := 0x07, rd := 1, ra := 1 } : CmdFields).wellFormed = false := by decide
theorem test_wellFormed_ra : ({ op := 0x01, ra := 1, imm := 8 } : CmdFields).wellFormed = false := by decide
theorem test_wellFormed_rb : ({ op := 0x03, rd := 2, ra := 1, rb := 1 } : CmdFields).wellFormed = false := by decide
theorem test_wellFormed_rb_with_imm :
    ({ op := 0x28, rd := 2, ra := 1, rb := 1, i := 1, imm := 2 } : CmdFields).wellFormed = false := by decide
theorem test_wellFormed_i : ({ op := 0x10, i := 1 } : CmdFields).wellFormed = false := by decide
theorem test_wellFormed_v : ({ op := 0x02, v := 1 } : CmdFields).wellFormed = false := by decide
theorem test_wellFormed_x : ({ op := 0x01, x := 1, imm := 8 } : CmdFields).wellFormed = false := by decide
theorem test_wellFormed_m : ({ op := 0x10, m := 1 } : CmdFields).wellFormed = false := by decide
theorem test_wellFormed_res : ({ op := 0x30, res := 1 } : CmdFields).wellFormed = false := by decide
theorem test_wellFormed_cc_unused : ({ op := 0x10, cc := 1 } : CmdFields).wellFormed = false := by decide
theorem test_wellFormed_cc_six : ({ op := 0x30, cc := 6 } : CmdFields).wellFormed = false := by decide
theorem test_wellFormed_cc_seven : ({ op := 0x30, m := 1, cc := 7 } : CmdFields).wellFormed = false := by decide
theorem test_wellFormed_imm : ({ op := 0x28, rd := 2, ra := 1, rb := 4, imm := 1 } : CmdFields).wellFormed = false := by
  decide

/-- The decoder refuses the same words: M2 and Q12 of 95_test_vectors.md, an unassigned opcode, a bit in RES. -/
theorem test_decode_refuses :
    decode 0x0010000000000000 = none ∧ decode 0x3031200600000000 = none ∧ decode 0x0800000000000000 = none ∧
    decode 0x1031200800000000 = none := by decide

/-! ### One word per family, field by field: OP RD RA RB I V X M RES CC IMM (30_encoding.md R60, R65) -/

theorem test_word_setup_move : decode
    (0b00000001#8 ++ 0b0101#4 ++ 0b0000#4 ++ 0b0000#4 ++ 0b0#1 ++ 0b1#1 ++ 0b0#1 ++ 0b0#1 ++ 0b00000#5 ++ 0b000#3 ++
      0x00000028#32) = some (.fmtS 5 40) := by decide
theorem test_word_arith : decode
    (0b00010001#8 ++ 0b1111#4 ++ 0b0111#4 ++ 0b1000#4 ++ 0b0#1 ++ 0b0#1 ++ 0b0#1 ++ 0b0#1 ++ 0b00000#5 ++ 0b000#3 ++
      0x00000000#32) = some (.sub 15 7 8) := by decide
theorem test_word_scalar : decode
    (0b00011100#8 ++ 0b0001#4 ++ 0b0010#4 ++ 0b0000#4 ++ 0b0#1 ++ 0b0#1 ++ 0b0#1 ++ 0b0#1 ++ 0b00000#5 ++ 0b000#3 ++
      0xDEADBEEF#32) = some (.modi 1 2 0xDEADBEEF) := by decide
theorem test_word_bitwise : decode
    (0b00100010#8 ++ 0b0001#4 ++ 0b0010#4 ++ 0b0011#4 ++ 0b0#1 ++ 0b0#1 ++ 0b0#1 ++ 0b0#1 ++ 0b00000#5 ++ 0b000#3 ++
      0x00000000#32) = some (.xor 1 2 3) := by decide
theorem test_word_shift : decode
    (0b00101001#8 ++ 0b0001#4 ++ 0b0010#4 ++ 0b0000#4 ++ 0b1#1 ++ 0b0#1 ++ 0b0#1 ++ 0b0#1 ++ 0b00000#5 ++ 0b000#3 ++
      0x80000001#32) = some (.shrImm 1 2 0x80000001) := by decide
theorem test_word_compare : decode
    (0b00110000#8 ++ 0b0001#4 ++ 0b0010#4 ++ 0b0011#4 ++ 0b0#1 ++ 0b0#1 ++ 0b0#1 ++ 0b1#1 ++ 0b00000#5 ++ 0b101#3 ++
      0x00000000#32) = some (.cmpmGe 1 2 3) := by decide
theorem test_word_bit_access : decode
    (0b00111100#8 ++ 0b0001#4 ++ 0b0010#4 ++ 0b0000#4 ++ 0b0#1 ++ 0b0#1 ++ 0b0#1 ++ 0b0#1 ++ 0b00000#5 ++ 0b000#3 ++
      0x0007#16 ++ 0x0004#16) = some (.range 1 2 7 4) := by decide
theorem test_word_packed : decode
    (0b00000110#8 ++ 0b0001#4 ++ 0b0000#4 ++ 0b0000#4 ++ 0b0#1 ++ 0b0#1 ++ 0b0#1 ++ 0b0#1 ++ 0b00000#5 ++ 0b000#3 ++
      0x00000040#32) = some (.importU 1 64) := by decide
theorem test_word_lzd : decode
    (0b01000001#8 ++ 0b0001#4 ++ 0b0010#4 ++ 0b0000#4 ++ 0b0#1 ++ 0b0#1 ++ 0b0#1 ++ 0b0#1 ++ 0b00000#5 ++ 0b000#3 ++
      0x00000000#32) = some (.clz 1 2) := by decide

/-! ### Every constructor's word, as 95_test_vectors.md section 3 prints it (CMPM.NE, LE, GE and BCLR of a register: from
30_encoding.md R65) -/

theorem test_decode_setup_move :
    decode 0x0000000000000000 = some .nop ∧
    decode 0x0110040000000008 = some (.fmtS 1 8) ∧
    decode 0x0110000000000001 = some (.fmtU 1 1) ∧
    decode 0x02000000000000FF = some (.ldiU 0 0xFF) ∧
    decode 0x02000200FFFFFFFF = some (.ldiS 0 0xFFFFFFFF) ∧
    decode 0x0321000000000000 = some (.mov 2 1) ∧
    decode 0x0421000000000000 = some (.castU 2 1) ∧
    decode 0x0421040000000000 = some (.castS 2 1) ∧
    decode 0x0521000000000000 = some (.cvt 2 1) := by decide

theorem test_decode_arith :
    decode 0x1031200000000000 = some (.add 3 1 2) ∧
    decode 0x1131200000000000 = some (.sub 3 1 2) ∧
    decode 0x1231200000000000 = some (.mul 3 1 2) ∧
    decode 0x1331200000000000 = some (.div 3 1 2) ∧
    decode 0x1431200000000000 = some (.mod 3 1 2) ∧
    decode 0x1521000000000000 = some (.neg 2 1) ∧
    decode 0x1821000000000001 = some (.addi 2 1 1) ∧
    decode 0x1921000000000001 = some (.subi 2 1 1) ∧
    decode 0x1A21000000000003 = some (.muli 2 1 3) ∧
    decode 0x1B21000000000002 = some (.divi 2 1 2) ∧
    decode 0x1C21000000000002 = some (.modi 2 1 2) := by decide

theorem test_decode_bitwise :
    decode 0x2031200000000000 = some (.and 3 1 2) ∧
    decode 0x2131200000000000 = some (.or 3 1 2) ∧
    decode 0x2231200000000000 = some (.xor 3 1 2) ∧
    decode 0x2321000000000000 = some (.not 2 1) := by decide

theorem test_decode_shift :
    decode 0x2821080000000002 = some (.shlImm 2 1 2) ∧
    decode 0x2821400000000000 = some (.shl 2 1 4) ∧
    decode 0x2921080000000001 = some (.shrImm 2 1 1) ∧
    decode 0x2921400000000000 = some (.shr 2 1 4) := by decide

theorem test_decode_compare :
    decode 0x3031200200000000 = some (.cmpLt 3 1 2) ∧
    decode 0x3031200000000000 = some (.cmpEq 3 1 2) ∧
    decode 0x3031200100000000 = some (.cmpNe 3 1 2) ∧
    decode 0x3031200300000000 = some (.cmpLe 3 1 2) ∧
    decode 0x3031200400000000 = some (.cmpGt 3 1 2) ∧
    decode 0x3031200500000000 = some (.cmpGe 3 1 2) ∧
    decode 0x3031210000000000 = some (.cmpmEq 3 1 2) ∧
    decode 0x3031210200000000 = some (.cmpmLt 3 1 2) ∧
    decode 0x3031210400000000 = some (.cmpmGt 3 1 2) ∧
    decode 0x3031210100000000 = some (.cmpmNe 3 1 2) ∧
    decode 0x3031210300000000 = some (.cmpmLe 3 1 2) ∧
    decode 0x3031210500000000 = some (.cmpmGe 3 1 2) := by decide

theorem test_decode_bit_access :
    decode 0x3821080000000007 = some (.tstImm 2 1 7) ∧
    decode 0x3821400000000000 = some (.tst 2 1 4) ∧
    decode 0x3921080000000007 = some (.bsetImm 2 1 7) ∧
    decode 0x3921400000000000 = some (.bset 2 1 4) ∧
    decode 0x3A21080000000000 = some (.bclrImm 2 1 0) ∧
    decode 0x3A21400000000000 = some (.bclr 2 1 4) ∧
    decode 0x3B21000000000000 = some (.rev 2 1) ∧
    decode 0x3C21000000030001 = some (.range 2 1 3 1) := by decide

theorem test_decode_packed :
    decode 0x0600040000000008 = some (.importS 0 8) ∧
    decode 0x0600000000000010 = some (.importU 0 16) ∧
    decode 0x0701000000000000 = some (.exportV 1) := by decide

theorem test_decode_lzd :
    decode 0x4021000000000000 = some (.sigd 2 1) ∧
    decode 0x4121000000000000 = some (.clz 2 1) := by decide

/-! ### One or two vectors per command -/

/-- 95_test_vectors.md vector M1. -/
theorem test_nop_1 :
    (after .nop (start [])).cmdcnt = 1 := by decide

/-- 95_test_vectors.md vector M3. -/
theorem test_fmtS_1 :
    result (.fmtS 1 8) (start []) 1 = some (.signed, 8, 0) := by decide

/-- 95_test_vectors.md vector M5. -/
theorem test_fmtU_1 :
    result (.fmtU 1 4096) (start []) 1 = some (.unsigned, 4096, 0) := by decide

/-- 95_test_vectors.md vector M4. -/
theorem test_fmtU_2 :
    result (.fmtU 1 1) (start []) 1 = some (.unsigned, 1, 0) := by decide

/-- 95_test_vectors.md vector M10. -/
theorem test_ldiU_1 :
    result (.ldiU 0 0x100) (start [(0, .signed, 8, 0)]) 0 = some (.signed, 8, 0) := by decide

/-- 95_test_vectors.md vector M9. -/
theorem test_ldiU_2 :
    result (.ldiU 0 0xFF) (start [(0, .signed, 8, 0)]) 0 = some (.signed, 8, -1) := by decide

/-- 95_test_vectors.md vector M11. -/
theorem test_ldiS_1 :
    result (.ldiS 0 0xFFFFFFFF) (start [(0, .unsigned, 8, 0)]) 0 = some (.unsigned, 8, 255) := by decide

/-- 95_test_vectors.md vector M12. -/
theorem test_ldiS_2 :
    result (.ldiS 0 0xFFFFFFFF) (start [(0, .signed, 40, 0)]) 0 = some (.signed, 40, -1) := by decide

/-- 95_test_vectors.md vector M17. -/
theorem test_mov_1 :
    result (.mov 1 1) (start [(1, .unsigned, 4, 10)]) 1 = some (.unsigned, 4, 10) := by decide

/-- 95_test_vectors.md vector M16. -/
theorem test_mov_2 :
    result (.mov 2 1) (start [(1, .unsigned, 4, 10)]) 2 = some (.unsigned, 4, 10) := by decide

/-- 95_test_vectors.md vector M20. -/
theorem test_castU_1 :
    result (.castU 2 1) (start [(1, .signed, 8, -128)]) 2 = some (.unsigned, 8, 128) := by decide

/-- 95_test_vectors.md vector M19. -/
theorem test_castU_2 :
    result (.castU 2 1) (start [(1, .signed, 8, -1)]) 2 = some (.unsigned, 8, 255) := by decide

/-- 95_test_vectors.md vector M21. -/
theorem test_castS_1 :
    result (.castS 2 1) (start [(1, .unsigned, 8, 255)]) 2 = some (.signed, 9, 255) := by decide

/-- 95_test_vectors.md vector M22. -/
theorem test_castS_2 :
    result (.castS 2 1) (start [(1, .signed, 8, -3)]) 2 = some (.signed, 8, -3) := by decide

/-- 95_test_vectors.md vector M24. -/
theorem test_cvt_1 :
    result (.cvt 2 1) (start [(1, .signed, 8, -1), (2, .unsigned, 4, 0)]) 2 = some (.unsigned, 4, 15) := by decide

/-- 95_test_vectors.md vector M28. -/
theorem test_cvt_2 :
    fault (.cvt 2 1) (start []) = some (.uninit, 0x11) := by decide

/-- 95_test_vectors.md vector X2. -/
theorem test_importU_1 :
    result (.importU 0 16) ((start []).setPbufWord 0 0x000000FB) 0 = some (.unsigned, 16, 251) := by decide

/-- 95_test_vectors.md vector X4. -/
theorem test_importS_1 :
    result (.importS 0 33) (((start []).setPbufWord 0 0xFFFFFFFF).setPbufWord 1 0xFFFFFFFE) 0 =
      some (.signed, 33, 4294967295) := by decide

/-- 95_test_vectors.md vector X10. -/
theorem test_exportV_1 :
    (after (.exportV 1) (start [(1, .signed, 40, -2)])).pbuf = [(0, 0xFFFFFFFE), (1, 0xFFFFFFFF)] ∧ (after (.exportV 1) (start [(1, .signed, 40, -2)])).pbdesc = 0x000D0028 := by decide

/-- 95_test_vectors.md vector X13. -/
theorem test_exportV_2 :
    (after (.exportV 1) (start [(1, .signed, 33, -4294967296)])).pbuf = [(0, 0x00000000), (1, 0xFFFFFFFF)] ∧ (after (.exportV 1) (start [(1, .signed, 33, -4294967296)])).pbdesc = 0x000D0021 := by decide

/-- 95_test_vectors.md vector A6. -/
theorem test_add_1 :
    result (.add 3 1 2) (start [(1, .signed, 4, -1), (2, .unsigned, 4, 15)]) 3 = some (.signed, 6, 14) := by decide

/-- 95_test_vectors.md vector A8. -/
theorem test_add_2 :
    result (.add 1 1 1) (start [(1, .signed, 8, 3)]) 1 = some (.signed, 9, 6) := by decide

/-- 95_test_vectors.md vector A13. -/
theorem test_sub_1 :
    result (.sub 3 1 2) (start [(1, .unsigned, 4, 3), (2, .unsigned, 4, 5)]) 3 = some (.unsigned, 5, 30) := by decide

/-- 95_test_vectors.md vector A14. -/
theorem test_sub_2 :
    result (.sub 3 1 2) (start [(1, .signed, 8, -128), (2, .signed, 8, 127)]) 3 = some (.signed, 9, -255) := by decide

/-- 95_test_vectors.md vector A20. -/
theorem test_mul_1 :
    result (.mul 3 1 2) (start [(1, .signed, 4, -8), (2, .unsigned, 4, 15)]) 3 = some (.signed, 9, -120) := by decide

/-- 95_test_vectors.md vector A22. -/
theorem test_mul_2 :
    result (.mul 3 1 2) (start [(1, .signed, 1, -1), (2, .signed, 1, -1)]) 3 = some (.signed, 2, 1) := by decide

/-- 95_test_vectors.md vector A27. -/
theorem test_div_1 :
    result (.div 3 1 2) (start [(1, .signed, 8, -128), (2, .signed, 8, -1)]) 3 = some (.signed, 9, 128) := by decide

/-- 95_test_vectors.md vector A33. -/
theorem test_div_2 :
    fault (.div 3 1 2) (start [(1, .signed, 8, 0), (2, .signed, 8, 0)]) = some (.div0, 0x1) ∧
    (after (.div 3 1 2) (start [(1, .signed, 8, 0), (2, .signed, 8, 0)])).reg 3 = Reg.make { variant := .signed, width := 9 } (0) := by decide

/-- 95_test_vectors.md vector A35. -/
theorem test_mod_1 :
    result (.mod 3 1 2) (start [(1, .signed, 8, -7), (2, .signed, 8, 2)]) 3 = some (.signed, 8, -1) := by decide

/-- 95_test_vectors.md vector A43. -/
theorem test_mod_2 :
    fault (.mod 3 1 2) (start [(1, .signed, 8, 0), (2, .signed, 8, 0)]) = some (.div0, 0x3) ∧
    (after (.mod 3 1 2) (start [(1, .signed, 8, 0), (2, .signed, 8, 0)])).reg 3 = Reg.make { variant := .signed, width := 8 } (0) := by decide

/-- 95_test_vectors.md vector A44. -/
theorem test_neg_1 :
    result (.neg 2 1) (start [(1, .signed, 8, -128)]) 2 = some (.signed, 9, 128) := by decide

/-- 95_test_vectors.md vector A46. -/
theorem test_neg_2 :
    result (.neg 2 1) (start [(1, .unsigned, 4, 5)]) 2 = some (.unsigned, 5, 27) := by decide

/-- 95_test_vectors.md vector K5. -/
theorem test_addi_1 :
    result (.addi 2 1 4294967295) (start [(1, .signed, 8, -1)]) 2 = some (.signed, 8, -2) := by decide

/-- 95_test_vectors.md vector K2. -/
theorem test_addi_2 :
    result (.addi 2 1 1) (start [(1, .unsigned, 8, 255)]) 2 = some (.unsigned, 8, 0) := by decide

/-- 95_test_vectors.md vector K7. -/
theorem test_subi_1 :
    result (.subi 2 1 1) (start [(1, .signed, 8, -128)]) 2 = some (.signed, 8, 127) := by decide

/-- 95_test_vectors.md vector K8. -/
theorem test_subi_2 :
    result (.subi 2 1 10) (start [(1, .signed, 8, 5)]) 2 = some (.signed, 8, -5) := by decide

/-- 95_test_vectors.md vector K9. -/
theorem test_muli_1 :
    result (.muli 2 1 3) (start [(1, .signed, 8, 100)]) 2 = some (.signed, 8, 44) := by decide

/-- 95_test_vectors.md vector K10. -/
theorem test_muli_2 :
    result (.muli 2 1 0) (start [(1, .signed, 8, -7)]) 2 = some (.signed, 8, 0) := by decide

/-- 95_test_vectors.md vector K12. -/
theorem test_divi_1 :
    result (.divi 2 1 2) (start [(1, .signed, 8, -7)]) 2 = some (.signed, 8, -3) := by decide

/-- 95_test_vectors.md vector K16. -/
theorem test_divi_2 :
    fault (.divi 2 1 0) (start [(1, .signed, 8, 0)]) = some (.div0, 0x1) ∧
    (after (.divi 2 1 0) (start [(1, .signed, 8, 0)])).reg 2 = Reg.make { variant := .signed, width := 8 } (0) := by decide

/-- 95_test_vectors.md vector K17. -/
theorem test_modi_1 :
    result (.modi 2 1 2) (start [(1, .signed, 8, -7)]) 2 = some (.signed, 8, -1) := by decide

/-- 95_test_vectors.md vector K20. -/
theorem test_modi_2 :
    fault (.modi 2 1 0) (start [(1, .signed, 8, 5)]) = some (.div0, 0x2) ∧
    (after (.modi 2 1 0) (start [(1, .signed, 8, 5)])).reg 2 = Reg.make { variant := .signed, width := 8 } (0) := by decide

/-- 95_test_vectors.md vector B2. -/
theorem test_and_1 :
    result (.and 3 1 2) (start [(1, .signed, 8, -1), (2, .unsigned, 4, 15)]) 3 = some (.signed, 8, 15) := by decide

/-- 95_test_vectors.md vector B3. -/
theorem test_and_2 :
    result (.and 3 1 2) (start [(1, .signed, 8, -1), (2, .signed, 4, -8)]) 3 = some (.signed, 8, -8) := by decide

/-- 95_test_vectors.md vector B5. -/
theorem test_or_1 :
    result (.or 3 1 2) (start [(1, .signed, 4, -8), (2, .signed, 4, 1)]) 3 = some (.signed, 4, -7) := by decide

/-- 95_test_vectors.md vector B6. -/
theorem test_or_2 :
    result (.or 3 1 2) (start [(1, .unsigned, 4, 8), (2, .signed, 4, -8)]) 3 = some (.signed, 5, -8) := by decide

/-- 95_test_vectors.md vector B9. -/
theorem test_xor_1 :
    result (.xor 3 1 2) (start [(1, .unsigned, 8, 255), (2, .signed, 8, -1)]) 3 = some (.signed, 9, -256) := by decide

/-- 95_test_vectors.md vector B10. -/
theorem test_xor_2 :
    result (.xor 3 1 2) (start [(1, .signed, 8, -7), (2, .signed, 8, -7)]) 3 = some (.signed, 8, 0) := by decide

/-- 95_test_vectors.md vector B11. -/
theorem test_not_1 :
    result (.not 2 1) (start [(1, .unsigned, 4, 10)]) 2 = some (.unsigned, 4, 5) := by decide

/-- 95_test_vectors.md vector B13. -/
theorem test_not_2 :
    result (.not 2 1) (start [(1, .signed, 8, -128)]) 2 = some (.signed, 8, 127) := by decide

/-- 95_test_vectors.md vector H8. -/
theorem test_shl_1 :
    result (.shl 2 1 4) (start [(1, .unsigned, 8, 1), (4, .signed, 8, -3)]) 2 = some (.unsigned, 8, 1) := by decide

/-- 95_test_vectors.md vector H9. -/
theorem test_shl_2 :
    result (.shl 2 1 4) (start [(1, .unsigned, 4, 1), (4, .unsigned, 8, 200)]) 2 =
      some (.unsigned, 204, 1606938044258990275541962092341162602522202993782792835301376) := by decide

/-- 95_test_vectors.md vector H1. -/
theorem test_shlImm_1 :
    result (.shlImm 2 1 2) (start [(1, .signed, 4, 7)]) 2 = some (.signed, 6, 28) := by decide

/-- 95_test_vectors.md vector H7. -/
theorem test_shlImm_2 :
    fault (.shlImm 2 1 4294967295) (start [(1, .signed, 8, 1)]) = some (.capacity, 0xFFFFFFFF) := by decide

/-- 95_test_vectors.md vector H17. -/
theorem test_shr_1 :
    result (.shr 2 1 4) (start [(1, .signed, 8, -5), (4, .signed, 8, -2)]) 2 = some (.signed, 8, -5) := by decide

/-- 95_test_vectors.md vector H18. -/
theorem test_shr_2 :
    result (.shr 2 1 4) (start [(1, .signed, 8, -5), (4, .unsigned, 1, 1)]) 2 = some (.signed, 8, -3) := by decide

/-- 95_test_vectors.md vector H10. -/
theorem test_shrImm_1 :
    result (.shrImm 2 1 1) (start [(1, .signed, 8, -5)]) 2 = some (.signed, 8, -3) := by decide

/-- 95_test_vectors.md vector H15. -/
theorem test_shrImm_2 :
    result (.shrImm 2 1 4294967295) (start [(1, .signed, 8, -1)]) 2 = some (.signed, 8, -1) := by decide

/-- 95_test_vectors.md vector Q3. -/
theorem test_cmpEq_1 :
    result (.cmpEq 3 1 2) (start [(1, .signed, 4, 0), (2, .unsigned, 16, 0)]) 3 = some (.unsigned, 1, 1) ∧
    flags (.cmpEq 3 1 2) (start [(1, .signed, 4, 0), (2, .unsigned, 16, 0)]) = (true, false) := by decide

/-- 95_test_vectors.md vector Q2. -/
theorem test_cmpEq_2 :
    result (.cmpEq 3 1 2) (start [(1, .signed, 4, 3), (2, .unsigned, 16, 3)]) 3 = some (.unsigned, 1, 1) ∧
    flags (.cmpEq 3 1 2) (start [(1, .signed, 4, 3), (2, .unsigned, 16, 3)]) = (true, false) := by decide

/-- 95_test_vectors.md vector Q4. -/
theorem test_cmpNe_1 :
    result (.cmpNe 3 1 2) (start [(1, .signed, 8, -5), (2, .signed, 8, 5)]) 3 = some (.unsigned, 1, 1) ∧
    flags (.cmpNe 3 1 2) (start [(1, .signed, 8, -5), (2, .signed, 8, 5)]) = (false, true) := by decide

/-- 95_test_vectors.md vector Q11. -/
theorem test_cmpLt_1 :
    result (.cmpLt 1 1 1) (start [(1, .signed, 8, 2)]) 1 = some (.unsigned, 1, 0) ∧
    flags (.cmpLt 1 1 1) (start [(1, .signed, 8, 2)]) = (true, false) := by decide

/-- 95_test_vectors.md vector Q1. -/
theorem test_cmpLt_2 :
    result (.cmpLt 3 1 2) (start [(1, .signed, 8, -1), (2, .unsigned, 8, 255)]) 3 = some (.unsigned, 1, 1) ∧
    flags (.cmpLt 3 1 2) (start [(1, .signed, 8, -1), (2, .unsigned, 8, 255)]) = (false, true) := by decide

/-- 95_test_vectors.md vector Q5. -/
theorem test_cmpLe_1 :
    result (.cmpLe 3 1 2) (start [(1, .signed, 8, 5), (2, .signed, 8, 5)]) 3 = some (.unsigned, 1, 1) ∧
    flags (.cmpLe 3 1 2) (start [(1, .signed, 8, 5), (2, .signed, 8, 5)]) = (true, false) := by decide

/-- 95_test_vectors.md vector Q6. -/
theorem test_cmpGt_1 :
    result (.cmpGt 3 1 2) (start [(1, .signed, 8, -5), (2, .signed, 8, 5)]) 3 = some (.unsigned, 1, 0) ∧
    flags (.cmpGt 3 1 2) (start [(1, .signed, 8, -5), (2, .signed, 8, 5)]) = (false, true) := by decide

/-- 95_test_vectors.md vector Q7. -/
theorem test_cmpGe_1 :
    result (.cmpGe 3 1 2) (start [(1, .unsigned, 8, 200), (2, .signed, 16, -300)]) 3 = some (.unsigned, 1, 1) ∧
    flags (.cmpGe 3 1 2) (start [(1, .unsigned, 8, 200), (2, .signed, 16, -300)]) = (false, false) := by decide

/-- 95_test_vectors.md vector Q8. -/
theorem test_cmpmEq_1 :
    result (.cmpmEq 3 1 2) (start [(1, .signed, 8, -5), (2, .signed, 8, 5)]) 3 = some (.unsigned, 1, 1) ∧
    flags (.cmpmEq 3 1 2) (start [(1, .signed, 8, -5), (2, .signed, 8, 5)]) = (true, false) := by decide

/-- 95_test_vectors.md vector Q9. -/
theorem test_cmpmLt_1 :
    result (.cmpmLt 3 1 2) (start [(1, .signed, 8, -5), (2, .signed, 8, 4)]) 3 = some (.unsigned, 1, 0) ∧
    flags (.cmpmLt 3 1 2) (start [(1, .signed, 8, -5), (2, .signed, 8, 4)]) = (false, false) := by decide

/-- 95_test_vectors.md vector Q10. -/
theorem test_cmpmGt_1 :
    result (.cmpmGt 3 1 2) (start [(1, .signed, 8, -128), (2, .unsigned, 8, 127)]) 3 = some (.unsigned, 1, 1) ∧
    flags (.cmpmGt 3 1 2) (start [(1, .signed, 8, -128), (2, .unsigned, 8, 127)]) = (false, false) := by decide

/-- 95_test_vectors.md vector T6. -/
theorem test_tst_1 :
    result (.tst 2 1 4) (start [(1, .signed, 8, -5), (4, .signed, 8, -1)]) 2 = some (.unsigned, 1, 1) := by decide

/-- 95_test_vectors.md vector T7. -/
theorem test_tst_2 :
    result (.tst 2 1 4) (start [(1, .signed, 8, 5), (4, .signed, 8, -1)]) 2 = some (.unsigned, 1, 0) := by decide

/-- 95_test_vectors.md vector T2. -/
theorem test_tstImm_1 :
    result (.tstImm 2 1 2) (start [(1, .signed, 8, -5)]) 2 = some (.unsigned, 1, 0) := by decide

/-- 95_test_vectors.md vector T3. -/
theorem test_tstImm_2 :
    result (.tstImm 2 1 100) (start [(1, .signed, 8, -5)]) 2 = some (.unsigned, 1, 1) := by decide

/-- 95_test_vectors.md vector T11. -/
theorem test_bset_1 :
    result (.bset 2 1 4) (start [(1, .signed, 8, 5), (4, .signed, 8, -1)]) 2 = some (.signed, 8, 5) := by decide

/-- 95_test_vectors.md vector T8. -/
theorem test_bsetImm_1 :
    result (.bsetImm 2 1 7) (start [(1, .signed, 8, 0)]) 2 = some (.signed, 8, -128) := by decide

/-- 95_test_vectors.md vector T10. -/
theorem test_bsetImm_2 :
    result (.bsetImm 2 1 8) (start [(1, .signed, 8, 5)]) 2 = some (.signed, 8, 5) := by decide

/-- 95_test_vectors.md vector T12. -/
theorem test_bclrImm_1 :
    result (.bclrImm 2 1 0) (start [(1, .signed, 8, -1)]) 2 = some (.signed, 8, -2) := by decide

/-- 95_test_vectors.md vector T14. -/
theorem test_bclrImm_2 :
    result (.bclrImm 2 1 7) (start [(1, .signed, 8, -1)]) 2 = some (.signed, 8, 127) := by decide

/-- 95_test_vectors.md vector T16. -/
theorem test_rev_1 :
    result (.rev 2 1) (start [(1, .unsigned, 4, 11)]) 2 = some (.unsigned, 4, 13) := by decide

/-- 95_test_vectors.md vector T17. -/
theorem test_rev_2 :
    result (.rev 2 1) (start [(1, .signed, 4, 1)]) 2 = some (.signed, 4, -8) := by decide

/-- 95_test_vectors.md vector T22. -/
theorem test_range_1 :
    result (.range 2 1 0 3) (start [(1, .unsigned, 4, 3)]) 2 = some (.unsigned, 4, 12) := by decide

/-- 95_test_vectors.md vector T25. -/
theorem test_range_2 :
    result (.range 2 1 6 2) (start [(1, .unsigned, 4, 11)]) 2 = some (.unsigned, 2, 2) := by decide

/-- 95_test_vectors.md vector Z1. -/
theorem test_sigd_1 :
    result (.sigd 2 1) (start [(1, .signed, 8, -1)]) 2 = some (.unsigned, 32, 1) := by decide

/-- 95_test_vectors.md vector Z2. -/
theorem test_sigd_2 :
    result (.sigd 2 1) (start [(1, .unsigned, 64, 4294967296)]) 2 = some (.unsigned, 32, 2) := by decide

/-- 95_test_vectors.md vector Z8. -/
theorem test_clz_1 :
    result (.clz 2 1) (start [(1, .signed, 8, -1)]) 2 = some (.unsigned, 32, 0) := by decide

/-- 95_test_vectors.md vector Z10. -/
theorem test_clz_2 :
    result (.clz 2 1) (start [(1, .signed, 16, 255)]) 2 = some (.unsigned, 32, 8) := by decide

/-- By hand from 44_compare.md R115 to R117: |-5| = |5|. -/
theorem test_cmpmNe_1 :
    result (.cmpmNe 3 1 2) (start [(1, .signed, 8, -5), (2, .signed, 8, 5)]) 3 = some (.unsigned, 1, 0) ∧
    flags (.cmpmNe 3 1 2) (start [(1, .signed, 8, -5), (2, .signed, 8, 5)]) = (true, false) := by decide

/-- By hand from 44_compare.md R115 to R117: |-5| < |6|. -/
theorem test_cmpmLe_1 :
    result (.cmpmLe 3 1 2) (start [(1, .signed, 8, -5), (2, .signed, 8, 6)]) 3 = some (.unsigned, 1, 1) ∧
    flags (.cmpmLe 3 1 2) (start [(1, .signed, 8, -5), (2, .signed, 8, 6)]) = (false, true) := by decide

/-- By hand from 44_compare.md R115 to R117: |-5| > |4|. -/
theorem test_cmpmGe_1 :
    result (.cmpmGe 3 1 2) (start [(1, .signed, 8, -5), (2, .signed, 8, 4)]) 3 = some (.unsigned, 1, 1) ∧
    flags (.cmpmGe 3 1 2) (start [(1, .signed, 8, -5), (2, .signed, 8, 4)]) = (false, false) := by decide

/-- By hand from 45_bit_access.md R122: bit 3 of S8 -1 cleared is the pattern 0xF7. -/
theorem test_bclr_1 :
    result (.bclr 2 1 4) (start [(1, .signed, 8, -1), (4, .unsigned, 4, 3)]) 2 = some (.signed, 8, -9) := by decide

/-! ### The host port, the step, the resets -/

/-- What a host read of an offset returns. -/
def readAt (s : State) (off : Word32) : Option Word32 :=
  match step (s.pending (.read (s.params.base + off)) []) with
  | .next t => some t.rdata
  | .fault _ => none
  | .refused _ => none

/-- A core in FAULT, as 95_test_vectors.md vector A32 leaves it. -/
def faulted : State := after (.div 3 1 2) { start [(1, .signed, 8, 5), (2, .signed, 8, 0)] with cmdHi := 0x13312000 }

/-- P3 of 95_test_vectors.md section 4, reads at step 6: STATUS 1, CAUSE 5, INFO 0, FCMD the faulting word. -/
theorem test_read_after_fault :
    readAt faulted 0x008 = some 1 ∧ readAt faulted 0x00C = some 5 ∧ readAt faulted 0x010 = some 0 ∧
    readAt faulted 0x014 = some 0 ∧ readAt faulted 0x018 = some 0x13312000 := by decide

/-- ID and PARAM of the default core (10_state.md R33, R34); a reserved, a misaligned and a write-only offset read 0. -/
theorem test_read_constants :
    readAt State.reset 0x000 = some 0x4C414234 ∧ readAt State.reset 0x004 = some 0x20101000 ∧
    readAt State.reset 0x030 = some 0 ∧ readAt State.reset 0x001 = some 0 ∧ readAt State.reset 0x028 = some 0 := by decide

/-- PARAM of a core with digits of 16 bits: 10_state.md R32 and R34 write 32, and 00_scope.md R5 lets only SIGD see BPD. -/
theorem test_param_digit_size : readAt (State.reset.withBpd 16) 0x004 = some 0x20101000 := by decide

/-- The digits of a magnitude, least significant first (10_state.md R22): 2^64 - 2 in two digits of 32 bits. -/
theorem test_digits : ((start [(1, .unsigned, 64, 18446744073709551614)]).reg 1).digits 32 = [0xFFFFFFFE, 0xFFFFFFFF] := by
  decide

/-- Vector A1 run by the very next step after withFetchWord (log 4). -/
theorem test_withFetchWord :
    (match step ((start [(1, .unsigned, 4, 10), (2, .unsigned, 4, 12)]).withFetchWord 64 0x1031200000000000) with
      | .next t => some ((t.reg 3).width, (t.reg 3).val, t.events, t.cmdHi)
      | _ => none) = some (5, 22, [], 0x10312000) := by decide

theorem test_decodeTableWord : decodeTableWord 64 0x1031200000000000 = some (.add 3 1 2) := by decide

/-- The word and commands of 30_encoding.md R70 and R71, from their text. -/
theorem test_assemble_command : assembleLine "ADD r3, r1, r2 ; sum" = some [.add 3 1 2] := by decide
theorem test_assemble_negative : assembleLine "LDI.S r1, #-5" = some [.ldiS 1 0xFFFFFFFB] := by decide
theorem test_assemble_hex : assembleLine "LDI.U r0, #0xFF" = some [.ldiU 0 255] := by decide
theorem test_assemble_range : assembleLine "RANGE r2, r1, #3, #1" = some [.range 2 1 3 1] := by decide
theorem test_assemble_pseudo : assembleLine "SUB.A r1, r2, r9" = some [.sub 9 1 2, .cvt 1 9] := by decide
theorem test_assemble_refuses : assembleLine "ADDI r3, r1, #-1" = none ∧ assembleLine "ADD r3, r1, r16" = none := by decide

/-- SUB.A then CVT (30_encoding.md R71): U4 3 - 5 wraps to U4 14 in the receiver's format. -/
theorem test_perform_compound :
    (match performAll (Pseudo.compound .sub 1 2 9).expand (start [(1, .unsigned, 4, 3), (2, .unsigned, 4, 5)]) with
      | .next t => some ((t.reg 1).width, (t.reg 1).val, (t.reg 9).width, (t.reg 9).val, t.cmdcnt)
      | _ => none) = some (4, 14, 5, 30, 2) := by decide

/-! ### Witnesses: for each statement a state and operands that meet its hypotheses, each clause at its boundaries -/

/-- V1 Signed negative, V2 Unsigned, V4 Signed -1, V6 Unsigned Zero, V7 Signed minimum, V0 and others UNINIT. -/
def sample : State :=
  start [(1, .signed, 8, -5), (2, .unsigned, 4, 3), (4, .signed, 8, -1), (6, .unsigned, 8, 0), (7, .signed, 8, -128)]

/-- A core with WMAX = 32 (the smallest of 00_scope.md R5) and registers at the edge of it. -/
def narrow : State :=
  [(1, Variant.unsigned, 31, 5), (2, .unsigned, 32, 9), (3, .signed, 32, -5), (4, .signed, 31, -5), (5, .unsigned, 1, 1),
    (6, .unsigned, 2, 2), (7, .unsigned, 31, 9), (8, .unsigned, 16, 7)].foldl
    (fun s (r : RegIx × Variant × Nat × Int) => s.writeReg r.1 { variant := r.2.1, width := r.2.2.1 } r.2.2.2)
    { State.reset with params := { Params.default with wmax := 32 } }

theorem witness_EncodeOfDecodeIsTheWord : decode 0x1031200000000000 = some (.add 3 1 2) := by
  decide
theorem witness_DecoderFollowsTheOpcodeTable : ∃ r ∈ opcodeTable, r.holds 0x1031200000000000 = true := by
  decide
theorem witness_StepRunsTheDecodedCommand :
    sample.rst = false ∧ sample.run = .ready ∧ decode ((0x10312000 : Word32) ++ sample.cmdLo) = some (.add 3 1 2) := by
  constructorm* _ ∧ _ <;> decide
theorem witness_WordMatchingNoRowRaisesIllegal :
    sample.rst = false ∧ sample.run = .ready ∧ (∀ r ∈ opcodeTable, r.holds ((0x08000000 : Word32) ++ sample.cmdLo) = false) ∧
    ({ op := 0x08 } : CmdFields).uses = none ∧
    (({ op := 0x03, imm := 1 } : CmdFields).uses = some FieldUse.twoRegs ∧
      ({ op := 0x03, imm := 1 } : CmdFields).unusedZero FieldUse.twoRegs = false) ∧
    (({ op := 0x30, cc := 6 } : CmdFields).op = 0x30 ∧ 6 ≤ ({ op := 0x30, cc := 6 } : CmdFields).cc.toNat) := by
  constructorm* _ ∧ _ <;> decide
/-- Both ends of every range of R66. -/
theorem witness_UnassignedOpcodesRaiseIllegal :
    sample.rst = false ∧ sample.run = .ready ∧
    ∀ op ∈ [0x08, 0x0F, 0x16, 0x17, 0x1D, 0x1F, 0x24, 0x27, 0x2A, 0x2F, 0x31, 0x37, 0x3D, 0x3F, 0x42, 0xFF],
      (0x08 ≤ op ∧ op ≤ 0x0F) ∨ op = 0x16 ∨ op = 0x17 ∨ (0x1D ≤ op ∧ op ≤ 0x1F) ∨ (0x24 ≤ op ∧ op ≤ 0x27) ∨
      (0x2A ≤ op ∧ op ≤ 0x2F) ∨ (0x31 ≤ op ∧ op ≤ 0x37) ∨ (0x3D ≤ op ∧ op ≤ 0x3F) ∨ 0x42 ≤ op := by
  constructorm* _ ∧ _ <;> decide
theorem witness_FaultStateIgnoresCommandsOnly :
    faulted.run = .fault ∧ faulted.rst = false ∧ faulted.params.valid ∧ 0 < faulted.params.npw ∧
    127 < faulted.params.npw ∧ (0x00C : Word32) ≠ faulted.params.base + 0x008 ∧
    ∃ t, step (({ faulted with run := .ready } : State).pending (.read 0x00C) []) = .next t :=
  ⟨by decide, by decide, by decide, by decide, by decide, by decide, _, rfl⟩
theorem witness_OnlyResetsLeaveFault :
    (∃ t, step (faulted.pending (.write 0x028 1) []) = .next t ∧ t.run = .ready) ∧
    (∃ t, step (faulted.pending (.rst true) []) = .next t ∧ t.run = .ready) ∧ sample.rst = false ∧
    (1 : Word32).getLsbD 0 = true := ⟨⟨_, rfl, rfl⟩, ⟨_, rfl, rfl⟩, by decide, by decide⟩
theorem witness_FaultIsStickyAlongEveryRun :
    faulted.run = .fault ∧ faulted.rst = false ∧
    (∀ e ∈ (faulted.pending (.write 0x024 0x10312000) [.read 0x008]).events, e.NoReset faulted.params.base) ∧
    ∃ t, Host.Core.run Sys2Proof.core 2 (faulted.pending (.write 0x024 0x10312000) [.read 0x008]) = .next t := by
  refine ⟨by decide, by decide, ?_, _, rfl⟩
  intro e he
  simp only [State.pending, List.mem_cons, List.not_mem_nil, or_false] at he
  rcases he with rfl | rfl
  · intro h; exact absurd h (by decide)
  · trivial

/-- A core held in reset. -/
def held : State := { State.reset with rst := true }

theorem held_atReset : held.AtReset where
  regs := by decide
  run := rfl
  status := by decide
  cause := by decide
  info := rfl
  fcmd := ⟨rfl, rfl⟩
  pbdesc := rfl
  cmd := ⟨rfl, rfl⟩
  cmdcnt := rfl
  errO := by decide

theorem witness_HardwareResetSetsTheTable :
    ((true = true ∨ sample.rst = true) ∧ (false = true ∨ held.rst = true)) ∧ held.rst = true ∧ held.AtReset ∧
    ∃ t, step (held.pending (.read 0) []) = .next t := ⟨by decide, by decide, held_atReset, _, rfl⟩
/-- Offsets at the edges: the first reserved, the last reserved, CTRL, the first and last PBUF word, the first above. -/
theorem witness_HostReadsHaveNoSideEffect :
    sample.rst = false ∧ sample.params.valid ∧ (0x101 : Word32).toNat % 4 ≠ 0 ∧
    0x030 ≤ (0x030 : Word32).toNat ∧ (0x0FC : Word32).toNat ≤ 0x0FC ∧
    0x100 + 4 * sample.params.npw ≤ (0x300 : Word32).toNat ∧ ¬(0x100 + 4 * sample.params.npw ≤ (0x2FC : Word32).toNat) ∧
    0 < sample.params.npw ∧ 127 < sample.params.npw ∧ (0x2FC : Word32) = BitVec.ofNat 32 (0x100 + 4 * 127) := by
  constructorm* _ ∧ _ <;> decide
theorem witness_ControlRegistersReadAsTheSpecSays :
    sample.rst = false ∧ sample.params.valid ∧ ∃ t, step sample = .next t := ⟨by decide, by decide, _, rfl⟩
theorem witness_OnlySigdSeesTheDigitSize :
    let s := sample.pending (.write (sample.params.base + 0x024) 0x10312000) []
    (∀ data rest rd ra, s.events = .write (s.params.base + 0x024) data :: rest →
      decode (data ++ s.cmdLo) ≠ some (.sigd rd ra)) ∧ ∃ t, step s = .next t := by
  refine ⟨fun data rest rd ra h => ?_, _, rfl⟩
  simp only [State.pending, List.cons.injEq, HostEvent.write.injEq] at h
  obtain ⟨⟨-, rfl⟩, -⟩ := h
  rw [show decode _ = some (.add 3 1 2) by decide]
  simp
theorem witness_HostWritesStoreOrDoNothing :
    sample.rst = false ∧ sample.params.valid ∧ 127 < sample.params.npw ∧ (0x022 : Word32).toNat % 4 ≠ 0 ∧
    (0x01C : Word32).toNat ≤ 0x01C ∧ (2 : Word32).getLsbD 0 = false ∧
    0x100 + 4 * sample.params.npw ≤ (0x300 : Word32).toNat := by
  constructorm* _ ∧ _ <;> decide
theorem witness_EveryStepAnswersANextState : State.reset.events = [] := rfl

/-- The invariant of a state with written registers. -/
theorem sample_inv : sample.Inv where
  params := by decide
  regs := by decide
  flags := by decide
  report := by decide
  cause := by decide
  pbdesc := by decide
  sorted := by decide
  bound := by decide
  held := fun h => absurd h (by decide)

theorem witness_EveryStepKeepsTheInvariant : ∃ s t : State, s.Inv ∧ step s = .next t := ⟨sample, _, sample_inv, rfl⟩
theorem witness_OnlyTheDestinationRegisterIsWritten :
    (∃ t, exec (.add 3 1 2) sample = .next t) ∧ destOf (.add 3 1 2) ≠ some 1 ∧ destOf .nop ≠ some 1 :=
  ⟨⟨_, rfl⟩, by decide, by decide⟩
theorem witness_OnlyCompareAndExportWriteFlagsAndBuffer :
    (∃ t, exec (.cmpEq 3 1 0) sample = .next t ∧ t.run = .fault) ∧ sample.run = .ready ∧
    writesFlags (.add 3 1 2) = false ∧ writesPacked (.cmpEq 3 1 2) = false := ⟨⟨_, rfl, rfl⟩, rfl, rfl, rfl⟩
theorem witness_CmdcntCountsCompletedCommands :
    (∃ t, exec (.add 3 1 2) sample = .next t) ∧ (∃ t, exec (.add 3 0 2) sample = .next t) ∧ sample.run = .ready ∧
    faulted.run = .fault ∧ faulted.rst = false ∧ ∃ t, step (faulted.pending (.write (faulted.params.base + 0x024) 0) []) = .next t :=
  ⟨⟨_, rfl⟩, ⟨_, rfl⟩, rfl, by decide, by decide, _, rfl⟩
theorem witness_FaultsArePrecise :
    sample.run = .ready ∧ (∃ t, exec (.mov 3 0) sample = .next t ∧ t.run = .fault) ∧
    (∃ t, exec (.divi 3 1 0) sample = .next t ∧ t.run = .fault) := ⟨rfl, ⟨_, rfl, rfl⟩, _, rfl, rfl⟩
theorem witness_NoCommandMakesARegisterUninit :
    (∃ t, exec (.mov 3 1) sample = .next t ∧ (sample.reg 3).sign = .uninit ∧ t.Readable 3) ∧ sample.Readable 1 :=
  ⟨⟨_, rfl, by decide, by decide⟩, by decide⟩
theorem witness_UninitContentsAreNeverRead :
    ∃ s t : State, s ≠ t ∧ s.Alike t := by
  refine ⟨sample, sample.setReg 0 { Reg.uninit with width := 7, mag := 3 }, by decide, ?_, rfl⟩
  show ∀ i, _ ∨ _
  decide
/-- The first UNINIT register is RA, RB and RD. -/
theorem witness_UninitOperandsFaultInOrder :
    (readsOf (.add 3 0 5)).find? (fun p => decide ((sample.reg p.2).sign = .uninit)) = some (.ra, 0) ∧
    (readsOf (.add 3 1 5)).find? (fun p => decide ((sample.reg p.2).sign = .uninit)) = some (.rb, 5) ∧
    (readsOf (.cvt 3 1)).find? (fun p => decide ((sample.reg p.2).sign = .uninit)) = some (.rd, 3) ∧
    ∃ t, exec (.cvt 3 1) sample = .next t ∧ t.run = .fault ∧ t.cause = .uninit :=
  ⟨by decide, by decide, by decide, _, rfl, rfl, rfl⟩
theorem witness_NopOnlyCounts :
    (1 : Command).extractLsb' 56 8 = 0 ∧ (1 : Command) ≠ 0 ∧ sample.rst = false ∧ sample.run = .ready := by
  constructorm* _ ∧ _ <;> decide
theorem witness_FmtConstructsZero :
    (1 : Word32) ≠ 0 ∧ (1 : Word32).toNat ≤ sample.params.wmax ∧ (4096 : Word32).toNat ≤ sample.params.wmax ∧
    sample.params.wmax < (4097 : Word32).toNat := by
  constructorm* _ ∧ _ <;> decide
theorem witness_LdiReducesIntoTheReceiver : (sample.reg 0).sign = .uninit ∧ sample.Good 1 ∧ sample.Good 2 := by
  constructorm* _ ∧ _ <;> decide
theorem witness_MovCopiesTheRegister : (sample.reg 0).sign = .uninit ∧ sample.Readable 1 := by
  constructorm* _ ∧ _ <;> decide
theorem witness_CastChangesTheVariant :
    (sample.reg 0).sign = .uninit ∧ (sample.Good 2 ∧ (sample.reg 2).variant = .unsigned) ∧
    (sample.Good 1 ∧ (sample.reg 1).variant = .signed) ∧ (narrow.Good 1 ∧ (narrow.reg 1).width + 1 ≤ narrow.params.wmax) ∧
    narrow.Good 2 ∧ narrow.params.wmax < (narrow.reg 2).width + 1 := by
  constructorm* _ ∧ _ <;> decide
theorem witness_CvtReducesIntoTheReceiver :
    (sample.reg 0).sign = .uninit ∧ sample.Readable 1 ∧ (sample.Good 4 ∧ (sample.reg 4).fmt.holds (sample.reg 1).val) ∧
    sample.Good 2 ∧ ¬(sample.reg 2).fmt.holds (sample.reg 1).val := by
  constructorm* _ ∧ _ <;> decide
theorem witness_ImportReadsThePattern :
    (1 : Word32) ≠ 0 ∧ (4096 : Word32).toNat ≤ sample.params.wmax ∧ sample.params.wmax < (4097 : Word32).toNat ∧
    sample.pbuf.read? 5 = none ∧ sample.params.valid ∧ sample.Good 1 ∧ sample.Good 2 := by
  constructorm* _ ∧ _ <;> decide
theorem witness_ExportWritesThePattern :
    (sample.reg 0).sign = .uninit ∧ sample.params.valid ∧ sample.Good 1 ∧ (1 - 1 < ((sample.reg 1).width + 31) / 32) ∧
    ((sample.reg 1).width + 31) / 32 ≤ 1 ∧ sample.Good 6 ∧ sample.Good 2 := by
  constructorm* _ ∧ _ <;> decide
theorem witness_AddIsExact :
    (sample.reg 0).sign = .uninit ∧ sample.Good 1 ∧ sample.Good 2 ∧ narrow.Good 1 ∧ narrow.Good 2 ∧ narrow.Good 7 ∧
    (rfmtAdd (narrow.reg 1).fmt (narrow.reg 7).fmt).width ≤ narrow.params.wmax ∧
    narrow.params.wmax < (rfmtAdd (narrow.reg 1).fmt (narrow.reg 2).fmt).width := by
  constructorm* _ ∧ _ <;> decide
/-- A Signed result, an Unsigned one without a borrow, with equal operands, and with a borrow. -/
theorem witness_SubIsExactOrWrapsUnsigned :
    (sample.reg 0).sign = .uninit ∧ sample.Good 1 ∧ sample.Good 2 ∧ sample.Good 6 ∧
    (rfmtAdd (sample.reg 1).fmt (sample.reg 2).fmt).variant = .signed ∧
    (rfmtAdd (sample.reg 2).fmt (sample.reg 6).fmt).variant = .unsigned ∧ (sample.reg 6).val ≤ (sample.reg 2).val ∧
    (sample.reg 2).val ≤ (sample.reg 2).val ∧ (sample.reg 6).val < (sample.reg 2).val ∧
    (rfmtAdd (narrow.reg 1).fmt (narrow.reg 7).fmt).width ≤ narrow.params.wmax ∧
    narrow.params.wmax < (rfmtAdd (narrow.reg 1).fmt (narrow.reg 2).fmt).width := by
  constructorm* _ ∧ _ <;> decide
theorem witness_MulIsExact :
    (sample.reg 0).sign = .uninit ∧ sample.Good 1 ∧ sample.Good 2 ∧ narrow.Good 1 ∧ narrow.Good 5 ∧ narrow.Good 6 ∧
    (rfmtMul (narrow.reg 1).fmt (narrow.reg 5).fmt).width ≤ narrow.params.wmax ∧
    narrow.params.wmax < (rfmtMul (narrow.reg 1).fmt (narrow.reg 6).fmt).width := by
  constructorm* _ ∧ _ <;> decide
theorem witness_DivTruncatesTowardZero :
    (sample.reg 0).sign = .uninit ∧ sample.Good 1 ∧ sample.Good 2 ∧ (sample.reg 2).val ≠ 0 ∧
    (sample.Good 6 ∧ (sample.reg 6).val = 0) ∧ narrow.Good 2 ∧ narrow.Good 1 ∧ narrow.Good 3 ∧
    (rfmtDiv (narrow.reg 2).fmt (narrow.reg 1).fmt).width ≤ narrow.params.wmax ∧
    narrow.params.wmax < (rfmtDiv (narrow.reg 3).fmt (narrow.reg 1).fmt).width := by
  constructorm* _ ∧ _ <;> decide
theorem witness_ModHasTheSignOfTheDividend :
    (sample.reg 0).sign = .uninit ∧ sample.Good 1 ∧ sample.Good 2 ∧ (sample.reg 2).val ≠ 0 ∧
    (sample.Good 6 ∧ (sample.reg 6).val = 0) ∧ narrow.Good 2 ∧ narrow.Good 1 ∧ narrow.Good 3 ∧
    (rfmtMod (narrow.reg 3).fmt (narrow.reg 1).fmt).width ≤ narrow.params.wmax ∧
    narrow.params.wmax < (rfmtMod (narrow.reg 2).fmt (narrow.reg 3).fmt).width := by
  constructorm* _ ∧ _ <;> decide
theorem witness_NegIsExactOrWrapsUnsigned :
    (sample.reg 0).sign = .uninit ∧ sample.Good 7 ∧ sample.Good 2 ∧ sample.Good 6 ∧
    (narrow.Good 1 ∧ (narrow.reg 1).width + 1 ≤ narrow.params.wmax) ∧
    narrow.Good 2 ∧ narrow.params.wmax < (narrow.reg 2).width + 1 := by
  constructorm* _ ∧ _ <;> decide
theorem witness_ScalarArithmeticWrapsInTheFormat : (sample.reg 0).sign = .uninit ∧ sample.Good 1 ∧ sample.Good 2 := by
  constructorm* _ ∧ _ <;> decide
theorem witness_ScalarDivisionKeepsTheFormat :
    (sample.reg 0).sign = .uninit ∧ sample.Good 1 ∧ sample.Good 6 ∧ (1 : Word32) ≠ 0 := by
  constructorm* _ ∧ _ <;> decide
theorem witness_BitwiseActsOnEveryBit :
    (sample.reg 0).sign = .uninit ∧ sample.Good 1 ∧ sample.Good 2 ∧ narrow.Good 1 ∧ narrow.Good 2 ∧ narrow.Good 3 ∧
    (rfmtBitwise (narrow.reg 1).fmt (narrow.reg 2).fmt).width ≤ narrow.params.wmax ∧
    narrow.params.wmax < (rfmtBitwise (narrow.reg 2).fmt (narrow.reg 3).fmt).width := by
  constructorm* _ ∧ _ <;> decide
theorem witness_NotComplementsTheFormat : (sample.reg 0).sign = .uninit ∧ sample.Good 1 ∧ sample.Good 2 := by
  constructorm* _ ∧ _ <;> decide
/-- A negative amount, 0, 1, and the widest and the first too wide result. -/
theorem witness_ShlWidensAndLosesNoBit :
    (sample.reg 0).sign = .uninit ∧ sample.Good 1 ∧ (sample.Readable 4 ∧ (sample.reg 4).val ≤ 0) ∧
    (sample.Readable 6 ∧ (sample.reg 6).val ≤ 0) ∧
    (narrow.Good 1 ∧ narrow.Readable 5 ∧ 0 < (narrow.reg 5).val ∧
      (narrow.reg 1).width + (narrow.reg 5).val.toNat ≤ narrow.params.wmax) ∧
    (narrow.Readable 6 ∧ narrow.params.wmax < (narrow.reg 1).width + (narrow.reg 6).val.toNat) ∧
    (3 : RegIx) ≠ 5 := by
  constructorm* _ ∧ _ <;> decide
theorem witness_ShrFloorsInTheFormat :
    (sample.reg 0).sign = .uninit ∧ sample.Good 1 ∧ (sample.Readable 4 ∧ (sample.reg 4).val ≤ 0) ∧
    (sample.Readable 6 ∧ (sample.reg 6).val ≤ 0) ∧ sample.Readable 2 ∧ 0 < (sample.reg 2).val := by
  constructorm* _ ∧ _ <;> decide
theorem witness_CompareWritesTruthAndFlags :
    ({ op := 0x30, cc := 6 } : CmdFields).op = 0x30 ∧ 6 ≤ ({ op := 0x30, cc := 6 } : CmdFields).cc.toNat ∧
    6 ≤ ({ op := 0x30, m := 1, cc := 7 } : CmdFields).cc.toNat ∧ sample.rst = false ∧ sample.run = .ready ∧
    (sample.reg 0).sign = .uninit ∧ sample.Readable 1 ∧ sample.Readable 2 := by
  constructorm* _ ∧ _ <;> decide
theorem witness_FlagsAreWrittenByCompareOnlyAndReadByNone :
    sample.compared (.cmpmLt 3 1 2) = some (5, 3) ∧ sample.run = .ready ∧
    (∃ t, exec (.cmpmLt 3 1 2) sample = .next t ∧ t.run = .ready) ∧
    ∃ t, step (sample.pending (.write (sample.params.base + 0x024) 0x10312000) []) = .next t :=
  ⟨by decide, rfl, ⟨_, rfl, rfl⟩, _, rfl⟩
/-- Index 0, the last bit, the first outside, and a negative one. -/
theorem witness_TstReadsOneBit :
    (sample.reg 0).sign = .uninit ∧ sample.Good 1 ∧ sample.Readable 2 ∧
    (∀ n ∈ [(0 : Int), 7], 0 ≤ n ∧ n < (sample.reg 1).width) ∧ ¬((8 : Int) < (sample.reg 1).width) ∧
    (sample.Readable 4 ∧ ¬(0 ≤ (sample.reg 4).val)) := by
  constructorm* _ ∧ _ <;> decide
theorem witness_BsetAndBclrChangeOneBit :
    (sample.reg 0).sign = .uninit ∧ sample.Good 1 ∧ sample.Readable 2 ∧ sample.Readable 4 ∧
    (sample.reg 2).val = ((3 : Nat) : Int) := by
  constructorm* _ ∧ _ <;> decide
theorem witness_RevMirrorsThePattern : (sample.reg 0).sign = .uninit ∧ sample.Good 1 ∧ sample.Good 2 := by
  constructorm* _ ∧ _ <;> decide
/-- Zero; both bounds at w; one bound at w - 1 and one at w, either way round. -/
theorem witness_RangeExtractsInEitherOrder :
    (sample.reg 0).sign = .uninit ∧ (sample.Good 6 ∧ (sample.reg 6).val = 0) ∧ (sample.Good 1 ∧ (sample.reg 1).val ≠ 0) ∧
    ((sample.reg 1).width ≤ (8 : BitVec 16).toNat ∧ (sample.reg 1).width ≤ (9 : BitVec 16).toNat) ∧
    ((7 : BitVec 16).toNat < (sample.reg 1).width ∧ ¬((8 : BitVec 16).toNat < (sample.reg 1).width)) := by
  constructorm* _ ∧ _ <;> decide
theorem witness_LeadingZeroCountsAreExact :
    (sample.reg 0).sign = .uninit ∧ sample.params.valid ∧ (sample.Good 6 ∧ (sample.reg 6).val.natAbs = 0) ∧
    sample.Good 2 ∧ (sample.reg 2).val.natAbs ≠ 0 := by
  constructorm* _ ∧ _ <;> decide
/-- Width 1: a value in range, one out of it, and both patterns. -/
theorem witness_FitIsTheUniqueReduction :
    let f : Format := { variant := .signed, width := 1 }
    1 ≤ f.width ∧ f.holds (-1) ∧ f.holds 0 ∧ ¬f.holds 1 ∧ 0 < 2 ^ f.width ∧ 1 < 2 ^ f.width ∧
    (2 : Int) ^ f.width ∣ (-1) - 1 := by
  constructorm* _ ∧ _ <;> decide
theorem witness_TruncatingDivisionLaws :
    (-2 : Int) ≠ 0 ∧ (2 : Int).natAbs = (-2 : Int).natAbs ∧ (-1 : Int).natAbs < (-2 : Int).natAbs := by
  constructorm* _ ∧ _ <;> decide
theorem witness_ResultFormatsHoldEveryExactResult :
    let a : Format := { variant := .signed, width := 8 }
    let b : Format := { variant := .unsigned, width := 1 }
    a.variant ≠ b.variant ∧ 1 ≤ a.width ∧ 1 ≤ b.width ∧ a.holds (-128) ∧ b.holds 1 ∧ (1 : Int) ≠ 0 ∧ b.holds 0 ∧
    (rfmtAdd a b).variant = .signed ∧ (rfmtNeg a).variant = .signed ∧ (rfmtAdd b b).variant = .unsigned ∧
    (0 : Int) ≤ 1 - 1 := by
  constructorm* _ ∧ _ <;> decide
theorem witness_AddThenSubGivesTheValueBack :
    sample.Good 1 ∧ sample.Good 2 ∧ (3 : RegIx) ≠ 2 ∧
    (rfmtAdd (rfmtAdd (sample.reg 1).fmt (sample.reg 2).fmt) (sample.reg 2).fmt).width ≤ sample.params.wmax := by
  constructorm* _ ∧ _ <;> decide
theorem witness_DivisionIdentityOfTheCommands :
    sample.Good 7 ∧ sample.Good 4 ∧ (sample.reg 4).val ≠ 0 ∧
    (rfmtDiv (sample.reg 7).fmt (sample.reg 4).fmt).width ≤ sample.params.wmax ∧
    (rfmtMod (sample.reg 7).fmt (sample.reg 4).fmt).width ≤ sample.params.wmax := by
  constructorm* _ ∧ _ <;> decide
theorem witness_PseudoInstructionsDoWhatTheyStandFor :
    sample.run = .ready ∧ sample.Good 1 ∧ sample.Good 2 ∧ (9 : RegIx) ≠ 1 ∧ (9 : RegIx) ≠ 2 ∧ (1 : RegIx) ≠ 2 ∧
    (sample.reg 2).val ≠ 0 ∧ (8 : Word32) ≠ 0 ∧ (8 : Word32).toNat ≤ sample.params.wmax ∧
    (CompoundOp.mul.resultFormat (sample.reg 1).fmt (sample.reg 2).fmt).width ≤ sample.params.wmax ∧
    (sample.reg 1).width + (sample.reg 2).val.toNat ≤ sample.params.wmax := by
  constructorm* _ ∧ _ <;> decide

end Sys2Proof.Tests
end

section
/-! PROOFS of the statements of 00_scope.md: reduction (O53), truncating division (O54), result formats (O55), the digit
size (O59). -/

namespace Sys2Proof.Machine

/-! ### Reduction into a format (R10, R12) -/

/-- fit is congruent to the number it reduces. -/
theorem Format.dvd_fit_sub (f : Format) (z : Int) : (2 : Int) ^ f.width ∣ f.fit z - z :=
  Int.ModEq.dvd (Format.fit_emod f z).symm

/-- A value in range that is congruent to z modulo 2^w is fit(z). -/
theorem Format.eq_fit_of_dvd {f : Format} (h : 1 ≤ f.width) {y z : Int} (hy : f.holds y)
    (hd : (2 : Int) ^ f.width ∣ y - z) : y = f.fit z := by
  have hyz : z % 2 ^ f.width = y % 2 ^ f.width := Int.modEq_iff_dvd.mpr hd
  exact Format.holds_unique h hy (Format.fit_holds h z) (hyz.symm.trans (Format.fit_emod f z).symm)

/-- unpat reads a Signed pattern: minus 2^w when bit w - 1 is set. -/
theorem Format.unpat_signed {f : Format} (hv : f.variant = .signed) (p : Nat) :
    f.unpat p = if p.testBit (f.width - 1) then (p : Int) - 2 ^ f.width else p := by
  simp only [Format.unpat, hv]

theorem Format.unpat_unsigned {f : Format} (hv : f.variant = .unsigned) (p : Nat) : f.unpat p = p := by
  simp only [Format.unpat, hv]

theorem Format.fit_signed {f : Format} (hv : f.variant = .signed) (z : Int) :
    f.fit z = (z + 2 ^ (f.width - 1)) % 2 ^ f.width - 2 ^ (f.width - 1) := by
  simp only [Format.fit, hv]

theorem Format.fit_unsigned {f : Format} (hv : f.variant = .unsigned) (z : Int) : f.fit z = z % 2 ^ f.width := by
  simp only [Format.fit, hv]

/-- Settles O53: existence and congruence are `fit_holds` and `fit_emod`, uniqueness is that two values in range with
one residue are equal. -/
theorem fitIsTheUniqueReduction : Obligations.FitIsTheUniqueReduction := by
  intro f z hw
  refine ⟨fun hv => Format.fit_unsigned hv z, fun hv => Format.fit_signed hv z, Format.fit_holds hw z,
    Format.dvd_fit_sub f z, fun y hy hd => Format.eq_fit_of_dvd hw hy hd, Format.fit_of_holds hw,
    fun p _ => ⟨fun hv => Format.unpat_unsigned hv p, fun hv => Format.unpat_signed hv p⟩,
    Format.unpat_pat hw z, fun hz => ?_⟩
  rw [Format.unpat_pat hw, Format.fit_of_holds hw hz]

/-! ### Truncating division (R13) -/

/-- The remainder is smaller than the divisor. -/
theorem tmod_natAbs_lt (u : Int) {v : Int} (hv : v ≠ 0) : (tmod u v).natAbs < v.natAbs := by
  rw [tmod_eq, Int.natAbs_tmod]
  exact Nat.mod_lt _ (Int.natAbs_pos.mpr hv)

/-- A remainder that is not 0 has the sign of the dividend. -/
theorem tmod_eq_zero_or_sign_eq (u v : Int) : tmod u v = 0 ∨ (tmod u v).sign = u.sign := by
  rcases eq_or_ne (tmod u v) 0 with h0 | h0
  · exact .inl h0
  · right
    rcases tmod_between u v with ⟨h1, h2⟩ | ⟨h1, h2⟩
    · rw [Int.sign_eq_one_of_pos (by omega), Int.sign_eq_one_of_pos (by omega)]
    · rw [Int.sign_eq_neg_one_of_neg (by omega), Int.sign_eq_neg_one_of_neg (by omega)]

/-- Operands of one magnitude: the quotient is 1 or -1 and nothing remains. -/
theorem tdiv_tmod_of_natAbs_eq {u v : Int} (hv : v ≠ 0) (h : u.natAbs = v.natAbs) :
    (tdiv u v = 1 ∨ tdiv u v = -1) ∧ tmod u v = 0 := by
  rw [tdiv_eq, tmod_eq]
  rcases Int.natAbs_eq_natAbs_iff.mp h with rfl | rfl
  · exact ⟨.inl (Int.tdiv_self hv), Int.tmod_self⟩
  · rw [Int.neg_tdiv, Int.tdiv_self hv, Int.neg_tmod, Int.tmod_self]
    exact ⟨.inr rfl, rfl⟩

/-- A dividend of smaller magnitude: the quotient is 0 and the dividend remains. -/
theorem tdiv_tmod_of_natAbs_lt {u v : Int} (h : u.natAbs < v.natAbs) : tdiv u v = 0 ∧ tmod u v = u := by
  have hq : tdiv u v = 0 := by simp [tdiv, Nat.div_eq_of_lt h]
  exact ⟨hq, by simp [tmod, hq]⟩

/-- Settles O54: the remainder is that of the library's truncating division, and lies between 0 and the dividend. -/
theorem truncatingDivisionLaws : Obligations.TruncatingDivisionLaws := by
  intro u v hv
  have hid : u = tdiv u v * v + tmod u v := by rw [tmod]; omega
  have hzero : u = 0 → tdiv u v = 0 := by rintro rfl; simp [tdiv]
  exact ⟨rfl, rfl, hid, tmod_natAbs_lt u hv, tmod_eq_zero_or_sign_eq u v, hzero, tdiv_tmod_of_natAbs_eq hv,
    tdiv_tmod_of_natAbs_lt⟩

/-! ### Result formats (R15) -/

/-- R15's table for two operands of one variant. -/
theorem rfmt_same_variant (v : Variant) (wa wb : Nat) :
    let f (w : Nat) : Format := { variant := v, width := w }
    rfmtAdd (f wa) (f wb) = f (max wa wb + 1) ∧ rfmtMul (f wa) (f wb) = f (wa + wb) ∧
    rfmtDiv (f wa) (f wb) = (if v = .signed then f (wa + 1) else f wa) ∧
    rfmtMod (f wa) (f wb) = f wa ∧ rfmtBitwise (f wa) (f wb) = f (max wa wb) ∧ rfmtNeg (f wa) = f (wa + 1) := by
  refine ⟨if_pos rfl, if_pos rfl, ?_, if_pos rfl, if_pos rfl, rfl⟩
  cases v <;> rfl

/-- R15's table for operands of different variants. -/
theorem rfmt_mixed_variants {a b : Format} (h : a.variant ≠ b.variant) :
    let s (w : Nat) : Format := { variant := .signed, width := w }
    rfmtAdd a b = s (max a.es b.es + 1) ∧ rfmtMul a b = s (a.es + b.es) ∧ rfmtDiv a b = s (a.width + 1) ∧
    rfmtMod a b = s a.es ∧ rfmtBitwise a b = s (max a.es b.es) :=
  have hu : ¬(a.variant = .unsigned ∧ b.variant = .unsigned) := fun ⟨ha, hb⟩ => h (ha.trans hb.symm)
  ⟨if_neg h, if_neg h, if_neg hu, if_neg h, if_neg h⟩

/-- A negation that is in the Unsigned range is that of Zero. -/
theorem Format.signed_or_eq_zero {a : Format} {x : Int} (hx : a.holds x) (h : a.variant = .signed ∨ 0 ≤ -x) :
    a.variant = .signed ∨ x = 0 := by
  rcases hv : a.variant with _ | _
  · have h0 : 0 ≤ x := by simpa only [Format.lo, hv] using hx.1
    have hn : 0 ≤ -x := h.resolve_left (by simp [hv])
    exact .inr (by omega)
  · exact .inl rfl

/-- Settles O55: the table by cases on the variants, the exactness from the lemma of each result format. -/
theorem resultFormatsHoldEveryExactResult : Obligations.ResultFormatsHoldEveryExactResult := by
  refine ⟨rfmt_same_variant, fun a b h => rfmt_mixed_variants h, fun a b x y ha hb hx hy => ?_⟩
  exact ⟨rfmtAdd_holds_add ha hb hx hy,
    fun h => rfmtAdd_holds_sub ha hb hx hy (h.imp_right Int.sub_nonneg.mp),
    rfmtMul_holds ha hb hx hy, fun _ => rfmtDiv_holds ha hx hy, fun _ => rfmtMod_holds ha hx y,
    rfmtBitwise_holds_and ha hb hx hy, rfmtBitwise_holds_or ha hb hx hy, rfmtBitwise_holds_xor ha hb hx hy,
    fun h => rfmtNeg_holds ha hx (Format.signed_or_eq_zero hx h)⟩

/-! ### The digit size (R5)

Every rule but SIGD's commutes with a change of BPD: one lemma per shared operation, then one case per command. -/

section DigitSize

variable {s : State} {bpd : Nat}

/-- The same end of a rule, of a core with another digit size. -/
def RuleEnd.withBpd (r : RuleEnd) (bpd : Nat) : RuleEnd :=
  match r with
  | .done s => .done (s.withBpd bpd)
  | .raise c info s => .raise c info (s.withBpd bpd)

/-- The two answers are next states that are the same but for the digit size of the second, `bpd`. -/
def SameButBpd (bpd : Nat) (r r' : Result) : Prop := ∃ t : State, r = .next t ∧ r' = .next (t.withBpd bpd)

theorem sameButBpd_next (t : State) : SameButBpd bpd (.next t) (.next (t.withBpd bpd)) := ⟨t, rfl, rfl⟩

theorem sameButBpd_finish {r r' : RuleEnd} (h : r' = r.withBpd bpd) : SameButBpd bpd r.finish r'.finish := by
  subst h
  cases r with
  | done t => exact sameButBpd_next t.countCommand
  | raise c info t => exact sameButBpd_next (t.enterFault c info)

/-! #### The packed buffer -/

theorem State.readWords_withBpd (k n : Nat) : (s.withBpd bpd).readWords k n = s.readWords k n := by
  induction n with
  | zero => rfl
  | succ n ih => simp only [State.readWords, ih]; rfl

theorem State.memRead_withBpd (k n : Nat) : (s.withBpd bpd).memRead k n = s.memRead k n := by
  rw [State.memRead, State.readWords_withBpd, State.memRead]

theorem State.writeWords_withBpd (k p n : Nat) :
    (s.withBpd bpd).writeWords k p n = (s.writeWords k p n).withBpd bpd := by
  induction n with
  | zero => rfl
  | succ n ih => simp only [State.writeWords, ih]; rfl

theorem State.memWrite_withBpd (k n p : Nat) : (s.withBpd bpd).memWrite k n p = (s.memWrite k n p).withBpd bpd :=
  State.writeWords_withBpd k p (n / 32)

/-! #### The shared operations -/

theorem withReg_withBpd {field : OperandField} {i : RegIx} {k k' : Reg → RuleEnd}
    (h : ∀ a, k' a = (k a).withBpd bpd) : withReg (s.withBpd bpd) field i k' = (withReg s field i k).withBpd bpd := by
  by_cases hu : (s.reg i).sign = .uninit
  · rw [withReg_uninit hu, withReg_uninit (s := s.withBpd bpd) hu]; rfl
  · rw [withReg_readable hu, withReg_readable (s := s.withBpd bpd) hu]; exact h _

theorem withFormat_withBpd {f : Format} {k k' : Format → RuleEnd} (h : ∀ f, k' f = (k f).withBpd bpd) :
    withFormat (s.withBpd bpd) f k' = (withFormat s f k).withBpd bpd := by
  by_cases hw : s.params.wmax < f.width
  · rw [withFormat_wide hw, withFormat_wide (s := s.withBpd bpd) hw]; rfl
  · have hw := Nat.not_lt.mp hw
    rw [withFormat_fits hw, withFormat_fits (s := s.withBpd bpd) hw]; exact h f

theorem withImmFormat_withBpd {v : Variant} {imm : Word32} {k k' : Format → RuleEnd}
    (h : ∀ f, k' f = (k f).withBpd bpd) :
    withImmFormat (s.withBpd bpd) v imm k' = (withImmFormat s v imm k).withBpd bpd := by
  by_cases h0 : imm.toNat = 0
  · rw [withImmFormat_zero h0, withImmFormat_zero h0]; rfl
  · rw [withImmFormat_pos h0, withImmFormat_pos h0]; exact withFormat_withBpd h

theorem withOperand2_withBpd {o : Operand2} {k k' : Int → RuleEnd} (h : ∀ n, k' n = (k n).withBpd bpd) :
    withOperand2 (s.withBpd bpd) o k' = (withOperand2 s o k).withBpd bpd := by
  cases o with
  | reg rb => exact withReg_withBpd fun b => h b.val
  | imm imm => exact h _

/-- A rule that branches, on a condition that BPD does not change. -/
theorem ite_withBpd {c : Prop} [Decidable c] {r₁ r₂ r₁' r₂' : RuleEnd} (h₁ : r₁' = r₁.withBpd bpd)
    (h₂ : r₂' = r₂.withBpd bpd) : (if c then r₁' else r₂') = (if c then r₁ else r₂).withBpd bpd := by
  rw [h₁, h₂, apply_ite (RuleEnd.withBpd · bpd)]

theorem oneOperand_withBpd {rd ra : RegIx} {result : Reg → Format × Int} :
    oneOperand (s.withBpd bpd) rd ra result = (oneOperand s rd ra result).withBpd bpd :=
  withReg_withBpd fun _ => rfl

theorem twoOperand_withBpd {rd ra rb : RegIx} {rfmt : Format → Format → Format} {value : Format → Int → Int → Int} :
    twoOperand (s.withBpd bpd) rd ra rb rfmt value = (twoOperand s rd ra rb rfmt value).withBpd bpd :=
  withReg_withBpd fun _ => withReg_withBpd fun _ => withFormat_withBpd fun _ => rfl

theorem dividing_withBpd {rd ra rb : RegIx} {rfmt : Format → Format → Format} {m : Bool} {value : Int → Int → Int} :
    dividing (s.withBpd bpd) rd ra rb rfmt m value = (dividing s rd ra rb rfmt m value).withBpd bpd :=
  withReg_withBpd fun _ => withReg_withBpd fun _ => withFormat_withBpd fun _ => ite_withBpd rfl rfl

theorem dividingImm_withBpd {rd ra : RegIx} {imm : Word32} {m : Bool} {value : Int → Int → Int} :
    dividingImm (s.withBpd bpd) rd ra imm m value = (dividingImm s rd ra imm m value).withBpd bpd :=
  withReg_withBpd fun _ => ite_withBpd rfl rfl

theorem shiftingLeft_withBpd {rd ra : RegIx} {o : Operand2} :
    shiftingLeft (s.withBpd bpd) rd ra o = (shiftingLeft s rd ra o).withBpd bpd :=
  withReg_withBpd fun _ => withOperand2_withBpd fun _ => ite_withBpd rfl (withFormat_withBpd fun _ => rfl)

theorem shiftingRight_withBpd {rd ra : RegIx} {o : Operand2} :
    shiftingRight (s.withBpd bpd) rd ra o = (shiftingRight s rd ra o).withBpd bpd :=
  withReg_withBpd fun _ => withOperand2_withBpd fun _ => ite_withBpd rfl rfl

theorem testing_withBpd {rd ra : RegIx} {o : Operand2} :
    testing (s.withBpd bpd) rd ra o = (testing s rd ra o).withBpd bpd :=
  withReg_withBpd fun _ => withOperand2_withBpd fun _ => rfl

theorem changingBit_withBpd {rd ra : RegIx} {o : Operand2} {change : Nat → Nat → Nat} :
    changingBit (s.withBpd bpd) rd ra o change = (changingBit s rd ra o change).withBpd bpd :=
  withReg_withBpd fun _ => withOperand2_withBpd fun _ => rfl

theorem comparing_withBpd {rd ra rb : RegIx} {c : Cond} {q : Reg → Int} :
    comparing (s.withBpd bpd) rd ra rb c q = (comparing s rd ra rb c q).withBpd bpd :=
  withReg_withBpd fun _ => withReg_withBpd fun _ => rfl

theorem formatting_withBpd {rd : RegIx} {v : Variant} {imm : Word32} :
    formatting (s.withBpd bpd) rd v imm = (formatting s rd v imm).withBpd bpd :=
  withImmFormat_withBpd fun _ => rfl

theorem importing_withBpd {rd : RegIx} {v : Variant} {imm : Word32} :
    importing (s.withBpd bpd) rd v imm = (importing s rd v imm).withBpd bpd :=
  withImmFormat_withBpd fun f => by rw [State.memRead_withBpd]; rfl

theorem loading_withBpd {rd : RegIx} {z : Int} : loading (s.withBpd bpd) rd z = (loading s rd z).withBpd bpd :=
  withReg_withBpd fun _ => rfl

/-! #### The commands -/

/-- Every command but SIGD does the same on a core with another digit size. -/
theorem exec_sameButBpd {i : Instr} (hi : ∀ rd ra, i ≠ .sigd rd ra) (s : State) (bpd : Nat) :
    SameButBpd bpd (exec i s) (exec i (s.withBpd bpd)) := by
  cases i with
  | sigd rd ra => exact absurd rfl (hi rd ra)
  | nop => exact sameButBpd_next s.countCommand
  | fmtU | fmtS => exact sameButBpd_finish formatting_withBpd
  | ldiU | ldiS => exact sameButBpd_finish loading_withBpd
  | mov | castU | addi | subi | muli | not | rev | range | clz => exact sameButBpd_finish oneOperand_withBpd
  | castS =>
    exact sameButBpd_finish (withReg_withBpd fun _ => ite_withBpd rfl (withFormat_withBpd fun _ => rfl))
  | cvt => exact sameButBpd_finish (withReg_withBpd fun _ => withReg_withBpd fun _ => rfl)
  | importU | importS => exact sameButBpd_finish importing_withBpd
  | exportV => exact sameButBpd_finish (withReg_withBpd fun a => by simp only [State.memWrite_withBpd]; rfl)
  | add | sub | mul | and | or | xor => exact sameButBpd_finish twoOperand_withBpd
  | div | mod => exact sameButBpd_finish dividing_withBpd
  | neg => exact sameButBpd_finish (withReg_withBpd fun _ => withFormat_withBpd fun _ => rfl)
  | divi | modi => exact sameButBpd_finish dividingImm_withBpd
  | shl | shlImm => exact sameButBpd_finish shiftingLeft_withBpd
  | shr | shrImm => exact sameButBpd_finish shiftingRight_withBpd
  | cmpEq | cmpNe | cmpLt | cmpLe | cmpGt | cmpGe | cmpmEq | cmpmNe | cmpmLt | cmpmLe | cmpmGt | cmpmGe =>
    exact sameButBpd_finish comparing_withBpd
  | tst | tstImm => exact sameButBpd_finish testing_withBpd
  | bset | bsetImm | bclr | bclrImm => exact sameButBpd_finish changingBit_withBpd

/-! #### The host port -/

/-- The issue of a word that is not a SIGD. -/
theorem issue_sameButBpd (h : ∀ rd ra, decode s.command ≠ some (.sigd rd ra)) (bpd : Nat) :
    SameButBpd bpd (issue s) (issue (s.withBpd bpd)) := by
  cases hr : s.run with
  | fault =>
    rw [issue_fault hr, issue_fault (s := s.withBpd bpd) hr]
    exact sameButBpd_next s
  | ready =>
    cases hd : decode s.command with
    | none =>
      rw [issue_illegal hr hd, issue_illegal (s := s.withBpd bpd) hr hd]
      exact sameButBpd_next (s.enterFault .illegal 0)
    | some i =>
      rw [issue_exec hr hd, issue_exec (s := s.withBpd bpd) hr hd]
      exact exec_sameButBpd (fun rd ra hi => h rd ra (hd.trans (congrArg some hi))) s bpd

/-- A host write that does not issue a SIGD. -/
theorem hostWrite_sameButBpd {off : Nat} {data : Word32}
    (h : off = 0x024 → ∀ rd ra, decode (data ++ s.cmdLo) ≠ some (.sigd rd ra)) (bpd : Nat) :
    SameButBpd bpd (hostWrite s off data) (hostWrite (s.withBpd bpd) off data) := by
  cases hp : pbufIndex s.params off with
  | some k =>
    obtain ⟨rfl, hk⟩ := pbufIndex_some hp
    rw [hostWrite_pbuf hk, hostWrite_pbuf (s := s.withBpd bpd) hk]
    exact sameButBpd_next (s.setPbufWord k data)
  | none =>
    by_cases h20 : off = 0x020
    · subst h20
      exact sameButBpd_next { s with cmdLo := data }
    by_cases h24 : off = 0x024
    · subst h24
      exact issue_sameButBpd (s := { s with cmdHi := data }) (h rfl) bpd
    by_cases h28 : off = 0x028
    · subst h28
      rw [hostWrite_ctrl, hostWrite_ctrl]
      split
      · exact sameButBpd_next s.softReset
      · exact sameButBpd_next s
    rw [hostWrite_ignored hp h20 h24 h28, hostWrite_ignored (s := s.withBpd bpd) hp h20 h24 h28]
    exact sameButBpd_next s

theorem State.setRst_withBpd (level : Bool) : (s.withBpd bpd).setRst level = (s.setRst level).withBpd bpd := by
  simp only [State.setRst, show (s.withBpd bpd).rst = s.rst from rfl]
  split
  · rfl
  · rfl

/-- Only the address BASE + `off` has offset `off` (20_memory.md R47). -/
theorem State.eq_busAddr_of_offsetOf {s : State} {addr off : Word32} (h : s.offsetOf addr = off.toNat) :
    addr = s.busAddr off := by
  have hoff : addr - s.params.base = off := BitVec.eq_of_toNat_eq h
  rw [State.busAddr, ← hoff, BitVec.add_comm, BitVec.sub_add_cancel]

/-- A write while `rst` is not asserted. -/
theorem serve_write {s : State} (h : s.rst = false) (addr data : Word32) :
    serve s (.write addr data) = hostWrite s (s.offsetOf addr) data := if_neg (by simp [h])

/-- Serving an input that does not issue a SIGD. -/
theorem serve_sameButBpd {e : HostEvent}
    (h : ∀ data rd ra, e = .write (s.busAddr 0x024) data → decode (data ++ s.cmdLo) ≠ some (.sigd rd ra)) (bpd : Nat) :
    SameButBpd bpd (serve s e) (serve (s.withBpd bpd) e) := by
  cases e with
  | rst level => exact ⟨_, rfl, congrArg _ (State.setRst_withBpd level)⟩
  | read addr =>
    -- No read sees the digit size: PARAM[31:24] is 32 for each (log 19).
    exact ⟨_, rfl, rfl⟩
  | write addr data =>
    cases hr : s.rst with
    | true => exact ⟨s, if_pos hr, if_pos hr⟩
    | false =>
      rw [serve_write hr, serve_write (s := s.withBpd bpd) hr]
      refine hostWrite_sameButBpd (fun hoff rd ra => h data rd ra ?_) bpd
      rw [State.eq_busAddr_of_offsetOf (off := 0x024) hoff]

end DigitSize

/-- Settles O59: every step that is not the issue of a SIGD commutes with the change of the digit size. -/
theorem onlySigdSeesTheDigitSize : Obligations.OnlySigdSeesTheDigitSize := by
  intro s t bpd hsigd hstep
  have hsame : SameButBpd bpd (step s) (step (s.withBpd bpd)) := by
    cases he : s.events with
    | nil =>
      rw [step_idle he, step_idle (s := s.withBpd bpd) he]
      exact sameButBpd_next s
    | cons e rest =>
      have hs : s = ({ s with events := rest } : State).pending e rest := by rw [State.pending, ← he]
      rw [hs]
      refine serve_sameButBpd (s := { s with events := rest }) (fun data rd ra hw => ?_) bpd
      exact hsigd data rest rd ra (by rw [he, hw]; rfl)
  obtain ⟨u, hu, hu'⟩ := hsame
  obtain rfl : t = u := by simpa [hstep] using hu
  exact hu'

end Sys2Proof.Machine
end

section
/-! PROOFS of the statements of 10_state.md: the invariant (O18), UNINIT contents (O24, O23), the step (O16), what a
command leaves unchanged (O20, O21), the control registers (O14). -/

namespace Sys2Proof.Machine

variable {s t : State} {i : Instr} {r : RuleEnd}

/-! ### The state a command leaves -/

/-- The state after the end of a command (30_encoding.md R72): the command is counted, or its fault is taken. -/
def RuleEnd.after : RuleEnd → State
  | .done s => s.countCommand
  | .raise c info s => s.enterFault c info

theorem RuleEnd.finish_eq (r : RuleEnd) : r.finish = .next r.after := by
  cases r with
  | done => rfl
  | raise => rfl

/-- The inversion lemma of exec: the state after a command is that after one of the ends of `CommandEffect`. -/
theorem exec_cases (h : exec i s = .next t) : ∃ r, CommandEffect i s r ∧ t = r.after := by
  obtain ⟨r, hr, he⟩ := exec_effect i s
  rw [hr, RuleEnd.finish_eq] at h
  cases h
  exact ⟨r, he, rfl⟩

theorem CommandEffect.samePort (h : CommandEffect i s r) : s.SamePort r.after := by
  cases h with
  | nothing | write | compare | fault | zeroed => exact ⟨rfl, rfl, rfl, rfl, rfl, rfl, rfl⟩
  | pack =>
    exact ⟨s.memWrite_params _ _ _, s.memWrite_cmdLo _ _ _, s.memWrite_cmdHi _ _ _, s.memWrite_rst _ _ _,
      s.memWrite_rdata _ _ _, s.memWrite_draws _ _ _, s.memWrite_events _ _ _⟩

theorem CommandEffect.sameFlags (h : CommandEffect i s r) (hi : writesFlags i = false) : s.SameFlags r.after := by
  cases h with
  | nothing | write | fault | zeroed => exact ⟨rfl, rfl⟩
  | compare _ _ _ _ _ hf => simp [hf] at hi
  | pack => exact ⟨s.memWrite_eq _ _ _, s.memWrite_lt _ _ _⟩

theorem CommandEffect.samePacked (h : CommandEffect i s r) (hi : writesPacked i = false) : s.SamePacked r.after := by
  cases h with
  | nothing | write | compare | fault | zeroed => exact ⟨rfl, fun _ => rfl⟩
  | pack _ hx => simp [hx, writesPacked] at hi

/-- A command completes and is counted, or enters FAULT with a cause (60_exceptions.md R147). -/
theorem CommandEffect.completes_or_faults (h : CommandEffect i s r) :
    (s.SameReport r.after ∧ r.after.cmdcnt = s.cmdcnt + 1) ∨
      ∃ c info, c ≠ .noFault ∧ s.FaultEntered r.after c info := by
  cases h with
  | nothing | write | compare => exact .inl ⟨⟨rfl, rfl, rfl, rfl, rfl⟩, rfl⟩
  | pack =>
    refine .inl ⟨⟨s.memWrite_run _ _ _, s.memWrite_cause _ _ _, s.memWrite_info _ _ _, s.memWrite_fcmdLo _ _ _,
      s.memWrite_fcmdHi _ _ _⟩, ?_⟩
    exact congrArg (· + 1) (s.memWrite_cmdcnt _ _ _)
  | fault c info hc =>
    exact .inr ⟨c, info, hc, State.faultEntered_enterFault s c info ⟨rfl, rfl⟩ ⟨rfl, fun _ => rfl⟩
      State.samePort_refl rfl⟩
  | zeroed rd f info =>
    exact .inr ⟨.div0, info, by simp, State.faultEntered_enterFault _ .div0 info ⟨rfl, rfl⟩ ⟨rfl, fun _ => rfl⟩
      (State.samePort_writeReg rd f 0) rfl⟩

/-- A register write, seen from one register. -/
theorem State.reg_writeReg_cases {rd : RegIx} {f : Format} {z : Int} (hd : destOf i = some rd) (ok : WriteOk s f z)
    (j : RegIx) :
    (s.writeReg rd f z).reg j = s.reg j ∨
      destOf i = some j ∧ ∃ f' z', (s.writeReg rd f z).reg j = Reg.make f' z' ∧ WriteOk s f' z' := by
  by_cases h : j = rd
  · subst h
    exact .inr ⟨hd, f, z, State.reg_writeReg_self s j f z, ok⟩
  · exact .inl (State.reg_writeReg_ne s h f z)

/-- U1 with 0 or 1 can always be written. -/
theorem writeOk_u1 (s : State) (b : Bool) : WriteOk s Format.u1 (if b then 1 else 0) := fun hp _ =>
  ⟨le_rfl, le_trans (by simp [Format.u1]) hp.1, Format.u1_holds b⟩

/-- After a command a register is as it was, or is the command's RD and holds what the rule wrote. -/
theorem CommandEffect.reg_cases (h : CommandEffect i s r) (j : RegIx) :
    r.after.reg j = s.reg j ∨
      destOf i = some j ∧ ∃ f z, r.after.reg j = Reg.make f z ∧ WriteOk s f z := by
  cases h with
  | nothing | fault => exact .inl rfl
  | pack => exact .inl (s.reg_memWrite _ _ _ j)
  | write rd f z hd _ ok => exact State.reg_writeReg_cases hd ok j
  | compare rd x y b hd => exact State.reg_writeReg_cases (s := s.setFlags x y) hd (writeOk_u1 s b) j
  | zeroed rd f _ hi ok => exact State.reg_writeReg_cases hi.dest ok j

/-! ### What a command leaves unchanged -/

/-- Settles O20, from the frame lemmas of `CommandEffect`: a faulting command leaves flags and buffer because every
fault entry does. -/
theorem onlyCompareAndExportWriteFlagsAndBuffer : Obligations.OnlyCompareAndExportWriteFlagsAndBuffer := by
  intro i s t h
  obtain ⟨r, he, rfl⟩ := exec_cases h
  refine ⟨he.sameFlags, he.samePacked, fun hs ht => ?_, he.samePort⟩
  rcases he.completes_or_faults with ⟨hsame, -⟩ | ⟨c, info, -, hfault⟩
  · simp [hsame.run, hs] at ht
  · exact ⟨hfault.flags, hfault.packed⟩

/-- Settles O21: a command that completes keeps the run state and is counted, one that faults enters FAULT uncounted. -/
theorem cmdcntCountsCompletedCommands : Obligations.CmdcntCountsCompletedCommands := by
  refine ⟨fun i s t hs h => ?_, fun s t data rest hf hr h => ?_, rfl⟩
  · obtain ⟨r, he, rfl⟩ := exec_cases h
    rcases he.completes_or_faults with ⟨hsame, hcnt⟩ | ⟨c, info, -, hfault⟩
    · refine .inl ⟨hsame.run.trans hs, hcnt.trans (BitVec.eq_of_toNat_eq ?_)⟩
      simp [BitVec.toNat_add]
    · exact .inr ⟨hfault.run, hfault.count⟩
  · have hw : hostWrite { s with events := rest } 0x024 data = .next { s with cmdHi := data, events := rest } :=
      issue_fault (s := { s with cmdHi := data, events := rest }) hf
    have hstep := (step_write hr 0x024 data rest).symm.trans h
    cases hw.symm.trans hstep
    rfl

/-- Settles O23: a register that a command changes is its RD, and holds the record of a value. -/
theorem noCommandMakesARegisterUninit : Obligations.NoCommandMakesARegisterUninit := by
  refine ⟨fun i s t h j hj => ?_, fun i s t h j hu ht => ?_, fun j => ?_⟩
  · obtain ⟨r, he, rfl⟩ := exec_cases h
    rcases he.reg_cases j with hsame | ⟨-, f, z, hmake, -⟩
    · rwa [State.Readable, hsame]
    · rw [State.Readable, hmake]
      exact signOf_ne_uninit z
  · obtain ⟨r, he, rfl⟩ := exec_cases h
    rcases he.reg_cases j with hsame | ⟨hd, -⟩
    · exact absurd (hsame ▸ hu) ht
    · exact hd
  · exact congrArg Reg.sign (State.reg_clear State.reset j)

/-! ### Everything a step can do -/

/-- What the issue of a word can do (30_encoding.md R72): nothing in FAULT, the fault of an illegal word, a command. -/
inductive IssueEffect (s : State) : State → Prop
  | ignored (hf : s.run = .fault) : IssueEffect s s
  | illegal (hf : s.run = .ready) : IssueEffect s (s.enterFault .illegal 0)
  | command (i : Instr) (r : RuleEnd) (hf : s.run = .ready) (he : CommandEffect i s r) : IssueEffect s r.after

/-- What the port drives for a read (20_memory.md R46; 0 while `rst` is asserted, 70_reset_and_hazards.md R170). -/
def State.readData (s : State) (addr : Word32) : Word32 := if s.rst then 0 else s.hostRead (s.offsetOf addr)

theorem serve_read (s : State) (addr : Word32) : serve s (.read addr) = .next { s with rdata := s.readData addr } := rfl

/-- What serving one input can do: a hardware reset, a read, nothing, a stored PBUF word or CMD_LO, the issue of a word,
a soft reset. Writes reach the core only while `rst` is not asserted (70_reset_and_hazards.md R170). -/
inductive InputEffect (s : State) : HostEvent → State → Prop
  | hardwareReset (level : Bool) (hl : level = true ∨ s.rst = true) :
      InputEffect s (.rst level) { s.hardwareReset with rst := level }
  | read (addr : Word32) : InputEffect s (.read addr) { s with rdata := s.readData addr }
  | nothing (e : HostEvent) : InputEffect s e s
  | storeWord (addr data : Word32) (k : Nat) (hr : s.rst = false) (ho : s.offsetOf addr = 0x100 + 4 * k)
      (hk : k < s.params.npw) : InputEffect s (.write addr data) (s.setPbufWord k data)
  | storeCmdLo (addr data : Word32) (hr : s.rst = false) (ho : s.offsetOf addr = 0x020) :
      InputEffect s (.write addr data) { s with cmdLo := data }
  | issue (addr data : Word32) (t : State) (hr : s.rst = false) (ho : s.offsetOf addr = 0x024)
      (hi : IssueEffect { s with cmdHi := data } t) : InputEffect s (.write addr data) t
  | softReset (addr data : Word32) (hr : s.rst = false) (ho : s.offsetOf addr = 0x028) (hd : data.getLsbD 0 = true) :
      InputEffect s (.write addr data) s.softReset

/-- The offsets a host write tells apart (20_memory.md R47, R54). -/
theorem writeOffset_cases (p : Params) (off : Nat) :
    (∃ k, off = 0x100 + 4 * k ∧ k < p.npw) ∨ off = 0x020 ∨ off = 0x024 ∨ off = 0x028 ∨
      (pbufIndex p off = none ∧ off ≠ 0x020 ∧ off ≠ 0x024 ∧ off ≠ 0x028) := by
  cases hp : pbufIndex p off with
  | some k => exact .inl ⟨k, pbufIndex_some hp⟩
  | none =>
    right
    by_cases h20 : off = 0x020
    · exact .inl h20
    by_cases h24 : off = 0x024
    · exact .inr (.inl h24)
    by_cases h28 : off = 0x028
    · exact .inr (.inr (.inl h28))
    exact .inr (.inr (.inr ⟨rfl, h20, h24, h28⟩))

theorem issue_effect (s : State) : ∃ t, issue s = .next t ∧ IssueEffect s t := by
  cases hf : s.run with
  | fault => exact ⟨s, issue_fault hf, .ignored hf⟩
  | ready =>
    cases hd : decode s.command with
    | none => exact ⟨_, issue_illegal hf hd, .illegal hf⟩
    | some i =>
      obtain ⟨r, hx, he⟩ := exec_effect i s
      exact ⟨r.after, (issue_exec hf hd).trans (hx.trans r.finish_eq), .command i r hf he⟩

theorem hostWrite_effect (hr : s.rst = false) (addr data : Word32) :
    ∃ t, hostWrite s (s.offsetOf addr) data = .next t ∧ InputEffect s (.write addr data) t := by
  rcases writeOffset_cases s.params (s.offsetOf addr) with ⟨k, ho, hk⟩ | ho | ho | ho | ⟨hp, h20, h24, h28⟩
  · exact ⟨_, ho ▸ hostWrite_pbuf hk data, .storeWord addr data k hr ho hk⟩
  · exact ⟨_, ho ▸ hostWrite_cmdLo data, .storeCmdLo addr data hr ho⟩
  · obtain ⟨t, ht, heff⟩ := issue_effect { s with cmdHi := data }
    exact ⟨t, ho ▸ ht, .issue addr data t hr ho heff⟩
  · by_cases hd : data.getLsbD 0 = true
    · exact ⟨_, ho ▸ (hostWrite_ctrl data).trans (if_pos hd), .softReset addr data hr ho hd⟩
    · exact ⟨_, ho ▸ (hostWrite_ctrl data).trans (if_neg hd), .nothing _⟩
  · exact ⟨s, hostWrite_ignored hp h20 h24 h28 data, .nothing _⟩

theorem serve_effect (s : State) (e : HostEvent) : ∃ t, serve s e = .next t ∧ InputEffect s e t := by
  cases e with
  | rst level =>
    refine ⟨_, rfl, ?_⟩
    unfold State.setRst
    split
    next hl => exact .hardwareReset level (by simpa using hl)
    next => exact .nothing _
  | read addr => exact ⟨_, serve_read s addr, .read addr⟩
  | write addr data =>
    cases hr : s.rst with
    | true => exact ⟨s, if_pos hr, .nothing _⟩
    | false => exact serve_write hr addr data ▸ hostWrite_effect hr addr data

/-- EVERYTHING A STEP CAN DO: stay when nothing is pending, or serve the oldest input. -/
theorem step_effect (s : State) :
    (s.events = [] ∧ step s = .next s) ∨
      ∃ e rest t, s.events = e :: rest ∧ step s = .next t ∧ InputEffect { s with events := rest } e t := by
  cases he : s.events with
  | nil => exact .inl ⟨rfl, step_idle he⟩
  | cons e rest =>
    obtain ⟨t, ht, heff⟩ := serve_effect { s with events := rest } e
    exact .inr ⟨e, rest, t, rfl, by simpa only [step, he] using ht, heff⟩

/-- Settles O16: idle or served, the step answers a next state. -/
theorem everyStepAnswersANextState : Obligations.EveryStepAnswersANextState := by
  refine ⟨fun s => ?_, fun s h => step_idle h⟩
  rcases step_effect s with ⟨-, h⟩ | ⟨e, rest, t, -, h, -⟩
  · exact ⟨s, h⟩
  · exact ⟨t, h⟩

/-! ### The invariant (O18) -/

/-! #### Resets and host accesses -/

/-- Both resets leave every item of the table at its reset value (70_reset_and_hazards.md R170, R171). -/
theorem State.clear_atReset (s : State) : s.clear.AtReset where
  regs i := congrArg Reg.sign (s.reg_clear i)
  run := rfl
  status := by rw [State.status_eq]; rfl
  cause := by simp [State.causeWord, Cause.code]
  info := rfl
  fcmd := ⟨rfl, rfl⟩
  pbdesc := rfl
  cmd := ⟨rfl, rfl⟩
  cmdcnt := rfl
  errO := rfl

/-- A soft reset keeps the invariant: PBUF is all it does not set. -/
theorem State.Inv.softReset (h : s.Inv) : s.softReset.Inv where
  params := h.params
  regs i := by rw [State.reg_softReset]; exact Reg.uninit_wf _
  flags := by simp
  report _ := ⟨rfl, rfl, rfl, rfl⟩
  cause hf := by simp at hf
  pbdesc := by simp
  sorted := h.sorted
  bound := h.bound
  held _ := s.clear_atReset

theorem State.Inv.hardwareReset (h : s.Inv) (level : Bool) : ({ s.hardwareReset with rst := level } : State).Inv :=
  { h.softReset with
    sorted := .nil
    bound := by simp
    held := fun _ => { s.clear_atReset with } }

/-- The pending inputs and the read data are free. -/
theorem State.Inv.with_port (h : s.Inv) (d : Word32) (es : List HostEvent) :
    ({ s with rdata := d, events := es } : State).Inv :=
  { h with held := fun hr => { h.held hr with } }

/-- CMD_LO and CMD_HI are free while `rst` is not asserted. -/
theorem State.Inv.with_command (h : s.Inv) (hr : s.rst = false) (lo hi : Word32) :
    ({ s with cmdLo := lo, cmdHi := hi } : State).Inv :=
  { h with held := fun hr' => nomatch hr.symm.trans hr' }

theorem State.Inv.setPbufWord (h : s.Inv) (hr : s.rst = false) {k : Nat} (hk : k < s.params.npw) (w : Word32) :
    (s.setPbufWord k w).Inv :=
  { h with
    sorted := Memory.write_wf h.sorted k w
    bound := Memory.write_bound h.bound hk w
    held := fun hr' => nomatch hr.symm.trans hr' }

/-- Fault entry with a cause keeps the invariant. -/
theorem State.Inv.enterFault (h : s.Inv) (hr : s.rst = false) {c : Cause} (hc : c ≠ .noFault) (info : Word32) :
    (s.enterFault c info).Inv :=
  { h with
    report := by simp
    cause := fun _ => hc
    held := fun hr' => nomatch hr.symm.trans hr' }

/-! #### Commands -/

/-- What the invariant says of PBDESC (10_state.md R39). -/
def PbdescOk (d : Word32) : Prop :=
  d.extractLsb' 20 12 = 0 ∧ d.extractLsb' 17 2 ≠ 3 ∧ (d.getLsbD 19 = false → d = 0)

/-- The descriptor of a register that holds a value is legal: VALID is 1 and SIGN is 0, 1 or 2. -/
theorem Reg.descriptor_ok {a : Reg} (h : a.sign ≠ .uninit) : PbdescOk a.descriptor := by
  have hreserved : a.descriptor.extractLsb' 20 12 = 0 :=
    (extract_append_high (n := 16) _ _ 4).trans <| (extract_append_high (n := 1) _ _ 3).trans <|
      (extract_append_high (n := 2) _ _ 1).trans <| (extract_append_high (n := 1) _ _ 0).trans <|
        BitVec.extractLsb'_eq_self
  have hsign : a.descriptor.extractLsb' 17 2 = a.sign.code :=
    (extract_append_high (n := 16) _ _ 1).trans <| (extract_append_high (n := 1) _ _ 0).trans <|
      extract_append_low _ _
  have hvalid : a.descriptor.getLsbD 19 = true := by
    simp only [Reg.descriptor, BitVec.getLsbD_append]
    rfl
  refine ⟨hreserved, ?_, by simp [hvalid]⟩
  rw [hsign]
  cases hs : a.sign with
  | uninit => exact absurd hs h
  | zero | pos | neg => decide

/-- An exported register needs no more words than PBUF has. -/
theorem wordsOf_le_npw {p : Params} {w : Nat} (h : w ≤ p.wmax) : wordsOf w ≤ p.npw :=
  Nat.div_le_div_right (by omega)

theorem CommandEffect.packed_inv (h : CommandEffect i s r) (hs : s.Inv) :
    PbdescOk r.after.pbdesc ∧ r.after.pbuf.wf ∧ ∀ e ∈ r.after.pbuf, e.1 < s.params.npw := by
  cases h with
  | nothing | write | compare | fault | zeroed => exact ⟨hs.pbdesc, hs.sorted, hs.bound⟩
  | pack ra hi hr =>
    obtain ⟨-, hw, -⟩ := State.wf_of_readable hr hs.regs
    refine ⟨Reg.descriptor_ok hr, State.writeWords_wf hs.sorted _ _ _, State.writeWords_bound hs.bound ?_ _⟩
    have := wordsOf_le_npw hw
    omega

/-- EQ and LT are those of a state that had them apart, or of one comparison. -/
theorem CommandEffect.flags_inv (h : CommandEffect i s r) (hs : ¬(s.eq = true ∧ s.lt = true)) :
    ¬(r.after.eq = true ∧ r.after.lt = true) := by
  cases h with
  | nothing | write | fault | zeroed => exact hs
  | pack =>
    rwa [← s.memWrite_eq, ← s.memWrite_lt] at hs
  | compare rd x y b =>
    show ¬(decide (x = y) = true ∧ decide (x < y) = true)
    simp only [decide_eq_true_eq]
    omega

theorem CommandEffect.regs_inv (h : CommandEffect i s r) (hs : s.Inv) (j : RegIx) : (r.after.reg j).Wf s.params := by
  rcases h.reg_cases j with hsame | ⟨-, f, z, hmake, ok⟩
  · rw [hsame]
    exact hs.regs j
  · obtain ⟨h1, h2, h3⟩ := ok hs.params hs.regs
    rw [hmake]
    exact Reg.make_wf h1 h2 h3

/-- A command keeps the invariant. -/
theorem CommandEffect.inv (h : CommandEffect i s r) (hr : s.rst = false) (hs : s.Inv) : r.after.Inv := by
  have hparams := h.samePort.params
  obtain ⟨hdesc, hsorted, hbound⟩ := h.packed_inv hs
  have hreport : (r.after.run = .ready →
        r.after.cause = .noFault ∧ r.after.info = 0 ∧ r.after.fcmdLo = 0 ∧ r.after.fcmdHi = 0) ∧
      (r.after.run = .fault → r.after.cause ≠ .noFault) := by
    rcases h.completes_or_faults with ⟨⟨h1, h2, h3, h4, h5⟩, -⟩ | ⟨c, info, hc, hfault⟩
    · rw [h1, h2, h3, h4, h5]
      exact ⟨hs.report, hs.cause⟩
    · rw [hfault.run, hfault.cause]
      exact ⟨by simp, fun _ => hc⟩
  exact {
    params := hparams ▸ hs.params
    regs := hparams ▸ h.regs_inv hs
    flags := h.flags_inv hs.flags
    report := hreport.1
    cause := hreport.2
    pbdesc := hdesc
    sorted := hsorted
    bound := hparams ▸ hbound
    held := fun hr' => nomatch (h.samePort.rst.trans hr).symm.trans hr' }

/-! #### Steps -/

theorem IssueEffect.inv (h : IssueEffect s t) (hr : s.rst = false) (hs : s.Inv) : t.Inv := by
  cases h with
  | ignored => exact hs
  | illegal => exact hs.enterFault hr (by simp) 0
  | command _ _ _ he => exact he.inv hr hs

theorem InputEffect.inv {e : HostEvent} (h : InputEffect s e t) (hs : s.Inv) : t.Inv := by
  cases h with
  | hardwareReset level => exact hs.hardwareReset level
  | read addr => exact hs.with_port (s.readData addr) s.events
  | nothing => exact hs
  | storeWord _ data k hr _ hk => exact hs.setPbufWord hr hk data
  | storeCmdLo _ data hr => exact hs.with_command hr data s.cmdHi
  | issue _ data _ hr _ hi => exact hi.inv hr (hs.with_command hr s.cmdLo data)
  | softReset => exact hs.softReset

/-- Settles O18, by cases on what the step did. -/
theorem everyStepKeepsTheInvariant : Obligations.EveryStepKeepsTheInvariant := by
  intro s t hs h
  rcases step_effect s with ⟨-, h'⟩ | ⟨e, rest, u, -, h', heff⟩
  · cases h.symm.trans h'
    exact hs
  · cases h.symm.trans h'
    exact heff.inv (hs.with_port s.rdata rest)

/-! ### The control registers (O14) -/

/-- PARAM as a number, for a WMAX that fits its field (10_state.md R34). -/
theorem paramWord_eq {p : Params} (h : p.wmax < 2 ^ 16) :
    paramWord p = BitVec.ofNat 32 (p.wmax + 16 * 2 ^ 16 + 32 * 2 ^ 24) := by
  have hw : p.wmax % 2 ^ 16 = p.wmax := Nat.mod_eq_of_lt h
  have hhigh : ((32 : BitVec 8) ++ (16 : BitVec 8)).toNat = 32 * 2 ^ 8 + 16 := rfl
  apply BitVec.eq_of_toNat_eq
  rw [paramWord, BitVec.toNat_append, hhigh, BitVec.toNat_ofNat, BitVec.toNat_ofNat, hw,
    ← Nat.shiftLeft_add_eq_or_of_lt h, Nat.shiftLeft_eq]
  omega

/-- CAUSE as a number (10_state.md R36). -/
theorem State.causeWord_eq (s : State) : s.causeWord = (match s.cause with
    | .noFault => 0 | .illegal => 1 | .uninit => 2 | .badWidth => 3 | .capacity => 4 | .div0 => 5) := by
  unfold State.causeWord
  cases s.cause <;> rfl

theorem IssueEffect.params_eq (h : IssueEffect s t) : t.params = s.params := by
  cases h with
  | ignored | illegal => rfl
  | command _ _ _ he => exact he.samePort.params

theorem InputEffect.params_eq {e : HostEvent} (h : InputEffect s e t) : t.params = s.params := by
  cases h with
  | hardwareReset | read | nothing | storeWord | storeCmdLo | softReset => rfl
  | issue _ _ _ _ _ hi => exact hi.params_eq

theorem step_params (h : step s = .next t) : t.params = s.params := by
  rcases step_effect s with ⟨-, h'⟩ | ⟨e, rest, u, -, h', heff⟩
  · cases h.symm.trans h'
    rfl
  · cases h.symm.trans h'
    exact heff.params_eq

/-- A host read of a control register. -/
theorem step_readCsr (h : s.rst = false) {off d : Word32} (rest : List HostEvent) (hoff : off.toNat < 0x100)
    (hd : s.csrRead off.toNat = d) :
    step (s.pending (.read (s.params.base + off)) rest) = .next { s with events := rest, rdata := d } := by
  rw [step_read h, hostRead_csr hoff, hd]

/-- ID, PARAM and STATUS ignore writes (10_state.md R33 to R35). -/
theorem step_writeReadOnly (h : s.rst = false) {off : Word32} (ho : off ∈ [(0x000 : Word32), 0x004, 0x008])
    (data : Word32) (rest : List HostEvent) :
    step (s.pending (.write (s.params.base + off) data) rest) = .next { s with events := rest } := by
  have hlow : off.toNat ≤ 8 := by
    simp only [List.mem_cons, List.not_mem_nil, or_false] at ho
    rcases ho with rfl | rfl | rfl <;> decide
  rw [step_write h]
  exact hostWrite_ignored (pbufIndex_low (by omega)) (by omega) (by omega) (by omega) data

/-- Settles O14: one read of the map per register, with PARAM, STATUS and CAUSE as numbers. -/
theorem controlRegistersReadAsTheSpecSays : Obligations.ControlRegistersReadAsTheSpecSays := by
  refine ⟨fun s rest hr hp => ?_, fun s => s.status_bit0.symm, rfl, ?_, fun s t h => step_params h⟩
  · have csr {off d : Word32} (hd : s.csrRead off.toNat = d) (hoff : off.toNat < 0x100 := by decide) :=
      step_readCsr hr rest hoff hd
    exact ⟨csr rfl, csr (paramWord_eq (Nat.lt_succ_of_le hp.2.1)), csr s.status_eq, csr s.causeWord_eq, csr rfl,
      csr rfl, csr rfl, csr rfl, csr rfl, csr rfl, csr rfl, csr rfl,
      fun data off ho => step_writeReadOnly hr ho data rest⟩
  · rw [State.status_eq]
    rfl

/-! ### What an UNINIT register holds (O24) -/

section Alike

variable {s' t' : State}

theorem Reg.Alike.refl (a : Reg) : a.Alike a := .inl rfl

/-- A register that holds a value is the same in both states. -/
theorem Reg.Alike.eq_of_readable {a b : Reg} (h : a.Alike b) (ha : a.sign ≠ .uninit) : a = b :=
  h.resolve_right fun hu => ha hu.1

theorem Reg.Alike.uninit {a b : Reg} (h : a.Alike b) (ha : a.sign = .uninit) : b.sign = .uninit := by
  rcases h with rfl | ⟨-, hb⟩
  · exact ha
  · exact hb

/-! #### Fields and updates of alike states -/

theorem State.Alike.refl (s : State) : s.Alike s := ⟨fun _ => .refl _, rfl⟩

/-- What does not depend on the value registers is the same in both states. -/
theorem State.Alike.congr {α : Type} (h : s.Alike s') {f : State → α}
    (hf : ∀ (u : State) (v : Vector Reg 16), f { u with regs := v } = f u) : f s' = f s := by
  rw [← h.rest, hf]

theorem State.Alike.params (h : s.Alike s') : s'.params = s.params := h.congr fun _ _ => rfl
theorem State.Alike.run (h : s.Alike s') : s'.run = s.run := h.congr fun _ _ => rfl
theorem State.Alike.rst (h : s.Alike s') : s'.rst = s.rst := h.congr fun _ _ => rfl
theorem State.Alike.events (h : s.Alike s') : s'.events = s.events := h.congr fun _ _ => rfl
theorem State.Alike.command (h : s.Alike s') : s'.command = s.command := h.congr fun _ _ => rfl
theorem State.Alike.pbufWord (h : s.Alike s') (k : Nat) : s'.pbufWord k = s.pbufWord k :=
  h.congr (f := (State.pbufWord · k)) fun _ _ => rfl

theorem State.Alike.memRead (h : s.Alike s') (k n : Nat) : s'.memRead k n = s.memRead k n := by
  have hwords (m : Nat) : s'.readWords k m = s.readWords k m := by
    induction m with
    | zero => rfl
    | succ m ih => rw [State.readWords, ih, h.pbufWord, State.readWords]
  rw [State.memRead, hwords, State.memRead]

/-- An update that neither reads nor writes the value registers. -/
theorem State.Alike.update (h : s.Alike s') {g : State → State}
    (hg : ∀ (u : State) (v : Vector Reg 16), g { u with regs := v } = { g u with regs := v }) : (g s).Alike (g s') := by
  have hregs (u : State) : (g u).regs = u.regs := (congrArg State.regs (hg u u.regs) :)
  refine ⟨fun j => ?_, ?_⟩
  · simpa only [State.reg, hregs] using h.regs j
  · rw [hregs, ← hg, h.rest]

theorem State.Alike.setReg (h : s.Alike s') (j : RegIx) (a : Reg) : (s.setReg j a).Alike (s'.setReg j a) := by
  refine ⟨fun k => ?_, congrArg (State.setReg · j a) h.rest⟩
  rw [State.reg_setReg, State.reg_setReg]
  split
  · exact .refl a
  · exact h.regs k

theorem State.Alike.writeReg (h : s.Alike s') (j : RegIx) (f : Format) (z : Int) :
    (s.writeReg j f z).Alike (s'.writeReg j f z) := h.setReg j _

theorem State.Alike.setPbufWord (h : s.Alike s') (k : Nat) (w : Word32) :
    (s.setPbufWord k w).Alike (s'.setPbufWord k w) := h.update (g := (State.setPbufWord · k w)) fun _ _ => rfl

theorem State.Alike.memWrite (h : s.Alike s') (k n p : Nat) : (s.memWrite k n p).Alike (s'.memWrite k n p) := by
  unfold State.memWrite
  generalize n / 32 = m
  induction m with
  | zero => exact h
  | succ m ih => exact ih.setPbufWord _ _

theorem State.Alike.with_pbdesc (h : s.Alike s') (d : Word32) :
    ({ s with pbdesc := d } : State).Alike { s' with pbdesc := d } :=
  h.update (g := fun u => { u with pbdesc := d }) fun _ _ => rfl

theorem State.Alike.softReset (h : s.Alike s') : s.softReset.Alike s'.softReset := by
  rw [h.congr (f := State.softReset) fun _ _ => rfl]
  exact .refl _

theorem State.Alike.setRst (h : s.Alike s') (level : Bool) : (s.setRst level).Alike (s'.setRst level) := by
  unfold State.setRst
  rw [h.rst]
  split
  · rw [h.congr (f := State.hardwareReset) fun _ _ => rfl]
    exact .refl _
  · exact h

/-! #### The ends of rules -/

/-- Two rules end alike: both complete, or both raise the same fault, in alike states. -/
inductive RuleEnd.Alike : RuleEnd → RuleEnd → Prop
  | done {s s' : State} (h : s.Alike s') : RuleEnd.Alike (.done s) (.done s')
  | raise {s s' : State} (c : Cause) (info : Word32) (h : s.Alike s') :
      RuleEnd.Alike (.raise c info s) (.raise c info s')

/-- Two answers are alike next states. -/
def AnswersAlike (r r' : Result) : Prop := ∃ t t' : State, r = .next t ∧ r' = .next t' ∧ t.Alike t'

theorem answersAlike_next (h : s.Alike s') : AnswersAlike (.next s) (.next s') := ⟨s, s', rfl, rfl, h⟩

theorem RuleEnd.Alike.finish {r r' : RuleEnd} (h : r.Alike r') : AnswersAlike r.finish r'.finish := by
  cases h with
  | done h => exact answersAlike_next (h.update (g := State.countCommand) fun _ _ => rfl)
  | raise c info h => exact answersAlike_next (h.update (g := (State.enterFault · c info)) fun _ _ => rfl)

theorem ite_alike {c : Prop} [Decidable c] {r₁ r₂ r₁' r₂' : RuleEnd} (h₁ : r₁.Alike r₁') (h₂ : r₂.Alike r₂') :
    RuleEnd.Alike (if c then r₁ else r₂) (if c then r₁' else r₂') := by
  split
  · exact h₁
  · exact h₂

/-! #### The shared operations -/

variable (h : s.Alike s')
include h

/-- The one place where a register is read: an UNINIT one faults in both states, any other is the same in both. -/
theorem withReg_alike {field : OperandField} {j : RegIx} {k k' : Reg → RuleEnd} (hk : ∀ a, (k a).Alike (k' a)) :
    (withReg s field j k).Alike (withReg s' field j k') := by
  by_cases hu : (s.reg j).sign = .uninit
  · rw [withReg_uninit hu, withReg_uninit ((h.regs j).uninit hu)]
    exact .raise _ _ h
  · have he := (h.regs j).eq_of_readable hu
    rw [withReg_readable hu, withReg_readable (by rwa [State.Readable, ← he]), ← he]
    exact hk _

theorem withFormat_alike {f : Format} {k k' : Format → RuleEnd} (hk : ∀ f, (k f).Alike (k' f)) :
    (withFormat s f k).Alike (withFormat s' f k') := by
  unfold withFormat
  rw [h.params]
  exact ite_alike (.raise _ _ h) (hk f)

theorem withImmFormat_alike {v : Variant} {imm : Word32} {k k' : Format → RuleEnd} (hk : ∀ f, (k f).Alike (k' f)) :
    (withImmFormat s v imm k).Alike (withImmFormat s' v imm k') :=
  ite_alike (.raise _ _ h) (withFormat_alike h hk)

theorem withOperand2_alike {o : Operand2} {k k' : Int → RuleEnd} (hk : ∀ n, (k n).Alike (k' n)) :
    (withOperand2 s o k).Alike (withOperand2 s' o k') := by
  cases o with
  | reg rb => exact withReg_alike h fun b => hk b.val
  | imm imm => exact hk _

theorem write_alike (rd : RegIx) (f : Format) (z : Int) :
    (RuleEnd.done (s.writeReg rd f z)).Alike (.done (s'.writeReg rd f z)) := .done (h.writeReg rd f z)

theorem oneOperand_alike {rd ra : RegIx} {result : Reg → Format × Int} :
    (oneOperand s rd ra result).Alike (oneOperand s' rd ra result) :=
  withReg_alike h fun _ => write_alike h _ _ _

theorem twoOperand_alike {rd ra rb : RegIx} {rfmt : Format → Format → Format} {value : Format → Int → Int → Int} :
    (twoOperand s rd ra rb rfmt value).Alike (twoOperand s' rd ra rb rfmt value) :=
  withReg_alike h fun _ => withReg_alike h fun _ => withFormat_alike h fun _ => write_alike h _ _ _

theorem dividing_alike {rd ra rb : RegIx} {rfmt : Format → Format → Format} {m : Bool} {value : Int → Int → Int} :
    (dividing s rd ra rb rfmt m value).Alike (dividing s' rd ra rb rfmt m value) :=
  withReg_alike h fun _ => withReg_alike h fun _ => withFormat_alike h fun _ =>
    ite_alike (.raise _ _ (h.writeReg _ _ _)) (write_alike h _ _ _)

theorem dividingImm_alike {rd ra : RegIx} {imm : Word32} {m : Bool} {value : Int → Int → Int} :
    (dividingImm s rd ra imm m value).Alike (dividingImm s' rd ra imm m value) :=
  withReg_alike h fun _ => ite_alike (.raise _ _ (h.writeReg _ _ _)) (write_alike h _ _ _)

theorem shiftingLeft_alike {rd ra : RegIx} {o : Operand2} :
    (shiftingLeft s rd ra o).Alike (shiftingLeft s' rd ra o) :=
  withReg_alike h fun _ => withOperand2_alike h fun _ =>
    ite_alike (write_alike h _ _ _) (withFormat_alike h fun _ => write_alike h _ _ _)

theorem shiftingRight_alike {rd ra : RegIx} {o : Operand2} :
    (shiftingRight s rd ra o).Alike (shiftingRight s' rd ra o) :=
  withReg_alike h fun _ => withOperand2_alike h fun _ => ite_alike (write_alike h _ _ _) (write_alike h _ _ _)

theorem testing_alike {rd ra : RegIx} {o : Operand2} : (testing s rd ra o).Alike (testing s' rd ra o) :=
  withReg_alike h fun _ => withOperand2_alike h fun _ => write_alike h _ _ _

theorem changingBit_alike {rd ra : RegIx} {o : Operand2} {change : Nat → Nat → Nat} :
    (changingBit s rd ra o change).Alike (changingBit s' rd ra o change) :=
  withReg_alike h fun _ => withOperand2_alike h fun _ => write_alike h _ _ _

theorem comparing_alike {rd ra rb : RegIx} {c : Cond} {q : Reg → Int} :
    (comparing s rd ra rb c q).Alike (comparing s' rd ra rb c q) :=
  withReg_alike h fun a => withReg_alike h fun b =>
    write_alike (h.update (g := (State.setFlags · (q a) (q b))) fun _ _ => rfl) _ _ _

theorem formatting_alike {rd : RegIx} {v : Variant} {imm : Word32} :
    (formatting s rd v imm).Alike (formatting s' rd v imm) :=
  withImmFormat_alike h fun _ => write_alike h _ _ _

theorem importing_alike {rd : RegIx} {v : Variant} {imm : Word32} :
    (importing s rd v imm).Alike (importing s' rd v imm) :=
  withImmFormat_alike h fun f => by rw [h.memRead]; exact write_alike h _ _ _

theorem loading_alike {rd : RegIx} {z : Int} : (loading s rd z).Alike (loading s' rd z) :=
  withReg_alike h fun _ => write_alike h _ _ _

/-! #### Commands and the host port -/

/-- A command answers alike in alike states. -/
theorem exec_alike (i : Instr) : AnswersAlike (exec i s) (exec i s') := by
  cases i with
  | nop => exact (RuleEnd.Alike.done h).finish
  | fmtU | fmtS => exact (formatting_alike h).finish
  | ldiU | ldiS => exact (loading_alike h).finish
  | mov | castU | addi | subi | muli | not | rev | range | clz => exact (oneOperand_alike h).finish
  | sigd =>
    unfold exec execSigd
    rw [h.params]
    exact (oneOperand_alike h).finish
  | castS =>
    exact RuleEnd.Alike.finish <| withReg_alike h fun _ =>
      ite_alike (write_alike h _ _ _) (withFormat_alike h fun _ => write_alike h _ _ _)
  | cvt => exact RuleEnd.Alike.finish <| withReg_alike h fun _ => withReg_alike h fun _ => write_alike h _ _ _
  | importU | importS => exact (importing_alike h).finish
  | exportV =>
    exact RuleEnd.Alike.finish <| withReg_alike h fun a =>
      .done ((h.memWrite 0 (32 * wordsOf a.width) (pat a.val (32 * wordsOf a.width))).with_pbdesc a.descriptor)
  | add | sub | mul | and | or | xor => exact (twoOperand_alike h).finish
  | div | mod => exact (dividing_alike h).finish
  | neg => exact RuleEnd.Alike.finish <| withReg_alike h fun _ => withFormat_alike h fun _ => write_alike h _ _ _
  | divi | modi => exact (dividingImm_alike h).finish
  | shl | shlImm => exact (shiftingLeft_alike h).finish
  | shr | shrImm => exact (shiftingRight_alike h).finish
  | cmpEq | cmpNe | cmpLt | cmpLe | cmpGt | cmpGe | cmpmEq | cmpmNe | cmpmLt | cmpmLe | cmpmGt | cmpmGe =>
    exact (comparing_alike h).finish
  | tst | tstImm => exact (testing_alike h).finish
  | bset | bsetImm | bclr | bclrImm => exact (changingBit_alike h).finish

theorem issue_alike : AnswersAlike (issue s) (issue s') := by
  cases hr : s.run with
  | fault =>
    rw [issue_fault hr, issue_fault (h.run.trans hr)]
    exact answersAlike_next h
  | ready =>
    have hc : decode s'.command = decode s.command := congrArg decode h.command
    cases hd : decode s.command with
    | none =>
      rw [issue_illegal hr hd, issue_illegal (h.run.trans hr) (hc.trans hd)]
      exact (RuleEnd.Alike.raise .illegal 0 h).finish
    | some i =>
      rw [issue_exec hr hd, issue_exec (h.run.trans hr) (hc.trans hd)]
      exact exec_alike h i

theorem hostWrite_alike (off : Nat) (data : Word32) :
    AnswersAlike (hostWrite s off data) (hostWrite s' off data) := by
  rcases writeOffset_cases s.params off with ⟨k, rfl, hk⟩ | rfl | rfl | rfl | ⟨hp, h20, h24, h28⟩
  · rw [hostWrite_pbuf hk, hostWrite_pbuf (h.params ▸ hk)]
    exact answersAlike_next (h.setPbufWord k data)
  · exact answersAlike_next (h.update (g := fun u => { u with cmdLo := data }) fun _ _ => rfl)
  · exact issue_alike (h.update (g := fun u => { u with cmdHi := data }) fun _ _ => rfl)
  · rw [hostWrite_ctrl, hostWrite_ctrl]
    split
    · exact answersAlike_next h.softReset
    · exact answersAlike_next h
  · rw [hostWrite_ignored hp h20 h24 h28, hostWrite_ignored (h.params ▸ hp) h20 h24 h28]
    exact answersAlike_next h

theorem serve_alike (e : HostEvent) : AnswersAlike (serve s e) (serve s' e) := by
  cases e with
  | rst level => exact answersAlike_next (h.setRst level)
  | read addr =>
    rw [serve_read, serve_read, h.congr (f := (State.readData · addr)) fun _ _ => rfl]
    exact answersAlike_next (h.update (g := fun u => { u with rdata := s.readData addr }) fun _ _ => rfl)
  | write addr data =>
    cases hr : s.rst with
    | true =>
      rw [serve, serve, if_pos hr, if_pos (h.rst.trans hr)]
      exact answersAlike_next h
    | false =>
      rw [serve_write hr, serve_write (h.rst.trans hr), State.offsetOf, State.offsetOf, h.params]
      exact hostWrite_alike h _ data

end Alike

/-- Settles O24: alike states serve the same input, and every rule keeps states alike because `withReg` alone reads
registers. -/
theorem uninitContentsAreNeverRead : Obligations.UninitContentsAreNeverRead := by
  intro s s' h
  show AnswersAlike (step s) (step s')
  cases he : s.events with
  | nil =>
    rw [step_idle he, step_idle (h.events.trans he)]
    exact answersAlike_next h
  | cons e rest =>
    simp only [step, he, h.events]
    exact serve_alike (h.update (g := fun u => { u with events := rest }) fun _ _ => rfl) e

end Sys2Proof.Machine
end

section
/-! PROOFS of the statements of 20_memory.md: what a host read drives (O13), and what a host write stores (O15). -/

namespace Sys2Proof.Machine

variable {s : State}

/-! ### The map by offset (20_memory.md R47) -/

/-- The offset of a PBUF word is not cut off by the width of a bus address: a legal core has at most 2048 words. -/
theorem toNat_pbufOffset {p : Params} (hp : p.valid) {k : Nat} (hk : k < p.npw) :
    (BitVec.ofNat 32 (0x100 + 4 * k)).toNat = 0x100 + 4 * k := by
  obtain ⟨-, hmax, -⟩ := hp
  unfold Params.npw at hk
  exact Nat.mod_eq_of_lt (by omega)

/-- No PBUF word stands at a misaligned offset, below 0x100, or at and above 0x100 + 4*NPW. -/
theorem pbufIndex_eq_none {p : Params} {off : Nat} (h : off % 4 ≠ 0 ∨ off < 0x100 ∨ 0x100 + 4 * p.npw ≤ off) :
    pbufIndex p off = none := by
  rcases h with h | h | h
  · exact pbufIndex_misaligned h
  · exact pbufIndex_low h
  · exact pbufIndex_high h

/-! ### Host reads (O13) -/

/-- A read is 0 at a misaligned offset, at CTRL, at a reserved offset and at an unmapped one (20_memory.md R46, R47). -/
theorem hostRead_eq_zero {off : Nat} (h : off % 4 ≠ 0 ∨ off = 0x028 ∨ (0x030 ≤ off ∧ off ≤ 0x0FC) ∨
    0x100 + 4 * s.params.npw ≤ off) : s.hostRead off = 0 :=
  hostRead_zero (pbufIndex_eq_none (by omega)) (by omega)

/-- Settles O13: the data is the map's, 0 by `hostRead_eq_zero` or a PBUF word by `hostRead_pbuf`. -/
theorem hostReadsHaveNoSideEffect : Obligations.HostReadsHaveNoSideEffect := by
  intro s rest off hr hp
  refine ⟨s.hostRead off.toNat, step_read hr off rest, fun hoff => hostRead_eq_zero ?_, fun k hk hoff => ?_⟩
  · exact hoff.imp_right (Or.imp_left (congrArg BitVec.toNat))
  · rw [hoff, toNat_pbufOffset hp hk, hostRead_pbuf hk]

/-! ### Host writes (O15) -/

/-- CTRL ignores a write with bit 0 clear (10_state.md R41). -/
theorem hostWrite_ctrl_clear {data : Word32} (h : data.getLsbD 0 = false) : hostWrite s 0x028 data = .next s :=
  (hostWrite_ctrl data).trans (if_neg (Bool.eq_false_iff.mp h))

/-- A write has no effect where neither a PBUF word nor CMD_LO, CMD_HI or CTRL stands: at a misaligned offset, a
read-only register, a reserved offset, an unmapped one (20_memory.md R46, R54). -/
theorem hostWrite_noStore {off : Nat}
    (h : off % 4 ≠ 0 ∨ off ≤ 0x01C ∨ off = 0x02C ∨ (0x030 ≤ off ∧ off ≤ 0x0FC) ∨ 0x100 + 4 * s.params.npw ≤ off)
    (data : Word32) : hostWrite s off data = .next s :=
  hostWrite_ignored (pbufIndex_eq_none (by omega)) (by omega) (by omega) (by omega) data

/-- Every write that is no reset, issues no command and stores nothing leaves the whole state as it is. -/
theorem hostWrite_noEffect {off data : Word32}
    (h : off.toNat % 4 ≠ 0 ∨ off.toNat ≤ 0x01C ∨ (off = 0x028 ∧ data.getLsbD 0 = false) ∨ off = 0x02C ∨
      (0x030 ≤ off.toNat ∧ off.toNat ≤ 0x0FC) ∨ 0x100 + 4 * s.params.npw ≤ off.toNat) :
    hostWrite s off.toNat data = .next s := by
  rcases h with hmis | hro | ⟨rfl, hd⟩ | rfl | hfree
  · exact hostWrite_noStore (.inl hmis) data
  · exact hostWrite_noStore (.inr (.inl hro)) data
  · exact hostWrite_ctrl_clear hd
  · exact hostWrite_noStore (.inr (.inr (.inl rfl))) data
  · exact hostWrite_noStore (.inr (.inr (.inr hfree))) data

/-- Settles O15: the step is `hostWrite` at the offset, which stores CMD_LO, stores one PBUF word, or does nothing. -/
theorem hostWritesStoreOrDoNothing : Obligations.HostWritesStoreOrDoNothing := by
  intro s data rest off hr hp
  rw [step_write hr]
  refine ⟨?cmdLo, ?pbuf, hostWrite_noEffect (s := { s with events := rest })⟩
  case cmdLo =>
    rintro rfl
    exact hostWrite_cmdLo data
  case pbuf =>
    intro k hk hoff
    rw [hoff, toNat_pbufOffset hp hk]
    exact ⟨_, hostWrite_pbuf (s := { s with events := rest }) hk data,
      (State.pbufWord_setPbufWord { s with events := rest } k · data), rfl⟩

end Sys2Proof.Machine
end

section
/-! PROOFS of the statements of 30_encoding.md about the decoder: the round trips (O1, O2), the legal words (O3), the
opcode table (O4), the words of the spec (O5). -/

namespace Sys2Proof

variable {f g : CmdFields} {i j : Instr} {c : Command}

/-! ### The round trips (O1, O2) -/

theorem CmdFields.exactly_of_eq (h : f = g) : f.exactly g i = some i := if_pos h

theorem CmdFields.exactly_eq_some (h : f.exactly g j = some i) : f = g ∧ j = i := by
  unfold CmdFields.exactly at h
  split at h
  next hrow => exact ⟨hrow, Option.some.inj h⟩
  next => cases h

/-- The decoder reads every command from its own fields. -/
theorem decodeFields_fields (i : Instr) : decodeFields i.fields = some i := by
  cases i with
  | range rd ra l r =>
    have hrow : decodeFields (Instr.range rd ra l r).fields =
        some (.range rd ra ((l ++ r).extractLsb' 16 16) ((l ++ r).extractLsb' 0 16)) := CmdFields.exactly_of_eq rfl
    have hl : (l ++ r).extractLsb' 16 16 = l := (extract_append_high l r 0).trans BitVec.extractLsb'_eq_self
    rw [hrow, hl, extract_append_low]
  | _ => exact CmdFields.exactly_of_eq rfl

/-- `o` gives no command but the one with the fields `f`. -/
def GivesFields (f : CmdFields) (o : Option Instr) : Prop := ∀ i, o = some i → i.fields = f

theorem givesFields_none : GivesFields f none := fun _ h => nomatch h

/-- A row gives its command only for its own word: no bit is ignored (30_encoding.md R64). -/
theorem givesFields_exactly (h : j.fields = g) : GivesFields f (f.exactly g j) := fun i hi => by
  obtain ⟨rfl, rfl⟩ := CmdFields.exactly_eq_some hi
  exact h

theorem givesFields_ite {p : Prop} [Decidable p] {o o' : Option Instr} (h : GivesFields f o) (h' : GivesFields f o') :
    GivesFields f (if p then o else o') := by
  split
  · exact h
  · exact h'

theorem givesFields_regOrImm (hreg : i.fields = f.threeRegs) (himm : j.fields = { f.regImm with i := 1 }) :
    GivesFields f (f.regOrImm i j) :=
  givesFields_ite (givesFields_exactly himm) (givesFields_exactly hreg)

theorem givesFields_compare (hop : f.op = 0x30) : GivesFields f f.compare := by
  obtain ⟨op, rd, ra, rb, i, v, x, m, res, cc, imm⟩ := f
  obtain rfl : op = 0x30 := hop
  unfold CmdFields.compare
  split
  case h_13 => exact givesFields_none
  all_goals exact givesFields_exactly rfl

/-- The two bounds of RANGE are the whole immediate. -/
theorem givesFields_range (hop : f.op = 0x3C) : GivesFields f
    (f.exactly f.regImm (.range f.rd f.ra (f.imm.extractLsb' 16 16) (f.imm.extractLsb' 0 16))) := by
  have himm : f.imm.extractLsb' 16 16 ++ f.imm.extractLsb' 0 16 = f.imm :=
    (extract_append_extract (i := 0) f.imm).trans BitVec.extractLsb'_eq_self
  refine givesFields_exactly ?_
  rw [Instr.fields, himm, ← hop, CmdFields.regImm]

/-- The decoder gives no command but the one with the fields it read, row by row of R65. -/
theorem givesFields_decodeFields (f : CmdFields) : GivesFields f (decodeFields f) := by
  obtain ⟨op, rd, ra, rb, i, v, x, m, res, cc, imm⟩ := f
  unfold decodeFields
  split
  -- An opcode in no row.
  case h_34 => exact givesFields_none
  all_goals
    rename_i hop
    obtain ⟨-, rfl⟩ := BitVec.toNat_eq_nat.mp hop
  -- FMT, LDI, CAST and IMPORT: V or X selects the command.
  case h_2 | h_3 | h_5 | h_7 => exact givesFields_ite (givesFields_exactly rfl) (givesFields_exactly rfl)
  -- SHL, SHR, TST, BSET and BCLR: I selects it.
  case h_24 | h_25 | h_27 | h_28 | h_29 => exact givesFields_regOrImm rfl rfl
  -- CMP and CMPM.
  case h_26 => exact givesFields_compare rfl
  case h_31 => exact givesFields_range rfl
  all_goals exact givesFields_exactly rfl

theorem decode_encode (i : Instr) : decode (encode i) = some i := by
  rw [decode, encode, CmdFields.ofBits_toBits, decodeFields_fields]

theorem fields_of_decode (h : decode c = some i) : i.fields = CmdFields.ofBits c :=
  givesFields_decodeFields (CmdFields.ofBits c) i h

theorem encode_of_decode (h : decode c = some i) : encode i = c := by
  rw [encode, fields_of_decode h, CmdFields.toBits_ofBits]

/-! ### The legal words (O3) -/

/-- The fields of `f` that `u` uses, with 0 in every other field. -/
def CmdFields.restrict (f : CmdFields) (u : FieldUse) : CmdFields :=
  { op := f.op
    rd := if u.rd then f.rd else 0
    ra := if u.ra then f.ra else 0
    rb := if u.rb then f.rb else 0
    i := if u.i then f.i else 0
    v := if u.v then f.v else 0
    x := if u.x then f.x else 0
    m := if u.m then f.m else 0
    cc := if u.cc then f.cc else 0
    imm := if u.imm then f.imm else 0 }

/-- A field that is used or 0 is what `restrict` keeps of it. -/
theorem used_or_zero_iff {n : Nat} (b : Bool) (x : BitVec n) : (b || x == 0) = true ↔ x = if b then x else 0 := by
  cases b <;> simp

theorem CmdFields.unusedZero_iff (f : CmdFields) (u : FieldUse) : f.unusedZero u = true ↔ f = f.restrict u := by
  obtain ⟨op, rd, ra, rb, i, v, x, m, res, cc, imm⟩ := f
  simp only [CmdFields.unusedZero, CmdFields.restrict, Bool.and_eq_true, used_or_zero_iff, beq_iff_eq,
    CmdFields.mk.injEq, true_and, and_assoc]

theorem CmdFields.wellFormed_iff (f : CmdFields) :
    f.wellFormed = true ↔ ∃ u, f.uses = some u ∧ f = f.restrict u ∧ f.cc.toNat ≤ 5 := by
  unfold CmdFields.wellFormed
  cases f.uses with
  | none => simp
  | some u => simp [CmdFields.unusedZero_iff, CmdFields.ccLegal]

theorem wellFormed_fields (i : Instr) : i.fields.wellFormed = true := by cases i <;> rfl

/-- R67: the six condition codes. -/
theorem cc_cases (cc : BitVec 3) (h : cc.toNat ≤ 5) :
    cc = 0 ∨ cc = 1 ∨ cc = 2 ∨ cc = 3 ∨ cc = 4 ∨ cc = 5 := by
  revert cc; decide

theorem compare_of_legal (h : f = f.restrict { rd := true, ra := true, rb := true, m := true, cc := true })
    (hcc : f.cc.toNat ≤ 5) : ∃ i, f.compare = some i := by
  obtain ⟨op, rd, ra, rb, i, v, x, m, res, cc, imm⟩ := f
  rcases BitVec.eq_zero_or_eq_one m with rfl | rfl
  all_goals rcases cc_cases cc hcc with rfl | rfl | rfl | rfl | rfl | rfl
  all_goals exact ⟨_, CmdFields.exactly_of_eq h⟩

theorem regOrImm_of_legal (h : f = f.restrict (FieldUse.regOrImm f.i)) : ∃ k, f.regOrImm i j = some k := by
  obtain ⟨op, rd, ra, rb, i, v, x, m, res, cc, imm⟩ := f
  rcases BitVec.eq_zero_or_eq_one i with rfl | rfl
  all_goals exact ⟨_, CmdFields.exactly_of_eq h⟩

/-- Every legal word is in a row of the decoder. -/
theorem decodeFields_of_wellFormed (h : f.wellFormed = true) : ∃ i, decodeFields f = some i := by
  obtain ⟨u, hu, hz, hcc⟩ := f.wellFormed_iff.mp h
  obtain ⟨op, rd, ra, rb, i, v, x, m, res, cc, imm⟩ := f
  unfold CmdFields.uses at hu
  split at hu
  -- An opcode in no row.
  case h_34 => cases hu
  all_goals
    rename_i hop
    obtain ⟨-, rfl⟩ := BitVec.toNat_eq_nat.mp hop
    cases hu
  -- FMT, CAST and IMPORT; LDI; SHL, SHR, TST, BSET and BCLR; CMP and CMPM.
  case h_2 | h_5 | h_7 =>
    rcases BitVec.eq_zero_or_eq_one v with rfl | rfl
    all_goals exact ⟨_, CmdFields.exactly_of_eq hz⟩
  case h_3 =>
    rcases BitVec.eq_zero_or_eq_one x with rfl | rfl
    all_goals exact ⟨_, CmdFields.exactly_of_eq hz⟩
  case h_24 | h_25 | h_27 | h_28 | h_29 => exact regOrImm_of_legal hz
  case h_26 => exact compare_of_legal hz hcc
  all_goals exact ⟨_, CmdFields.exactly_of_eq hz⟩

theorem decode_eq_none_of_uses (h : (CmdFields.ofBits c).uses = none) : decode c = none := by
  cases hd : decode c with
  | none => rfl
  | some i =>
    have hw := wellFormed_fields i
    rw [fields_of_decode hd, CmdFields.wellFormed, h] at hw
    cases hw

/-- Settles O1: each command's fields stand in its row of the decoder. -/
theorem decodeOfEncodeIsTheCommand : Obligations.DecodeOfEncodeIsTheCommand := decode_encode

/-- Settles O2: a row of the decoder gives its command only for the command's own word. -/
theorem encodeOfDecodeIsTheWord : Obligations.EncodeOfDecodeIsTheWord := fun _ _ h => encode_of_decode h

/-- Settles O3: the fields of every command are legal, and every legal word stands in a row of the decoder. -/
theorem decoderAcceptsExactlyTheLegalWords : Obligations.DecoderAcceptsExactlyTheLegalWords := by
  intro c
  rw [Bool.eq_iff_iff, Option.isSome_iff_exists]
  constructor
  · rintro ⟨i, hi⟩
    rw [← fields_of_decode hi]
    exact wellFormed_fields i
  · exact decodeFields_of_wellFormed

/-! ### The opcode table (O4) -/

/-- The fields of a word with its operands RD, RA, RB and IMM at 0: the fields that select a row. -/
def CmdFields.bare (f : CmdFields) : CmdFields := { f with rd := 0, ra := 0, rb := 0, imm := 0 }

/-- The mask of a row that uses `u`: every bit but those of the operands it uses (30_encoding.md R64). -/
def FieldUse.mask (u : FieldUse) : CmdFields :=
  { op := .allOnes 8, i := .allOnes 1, v := .allOnes 1, x := .allOnes 1, m := .allOnes 1, res := .allOnes 5,
    cc := .allOnes 3
    rd := if u.rd then 0 else .allOnes 4
    ra := if u.ra then 0 else .allOnes 4
    rb := if u.rb then 0 else .allOnes 4
    imm := if u.imm then 0 else .allOnes 32 }

/-- AND, field by field. -/
def CmdFields.and (f g : CmdFields) : CmdFields :=
  { op := f.op &&& g.op, rd := f.rd &&& g.rd, ra := f.ra &&& g.ra, rb := f.rb &&& g.rb, i := f.i &&& g.i,
    v := f.v &&& g.v, x := f.x &&& g.x, m := f.m &&& g.m, res := f.res &&& g.res, cc := f.cc &&& g.cc,
    imm := f.imm &&& g.imm }

theorem append_and_append {m n : Nat} {a b c : BitVec m} (h : a &&& b = c) (x y : BitVec n) :
    (a ++ x) &&& (b ++ y) = c ++ (x &&& y) := by
  rw [BitVec.and_append, h]

theorem CmdFields.toBits_and (f g : CmdFields) : f.toBits &&& g.toBits = (f.and g).toBits :=
  append_and_append (append_and_append (append_and_append (append_and_append (append_and_append (append_and_append
    (append_and_append (append_and_append (append_and_append (append_and_append rfl _ _) _ _) _ _) _ _) _ _) _ _)
    _ _) _ _) _ _) _ _

theorem CmdFields.toBits_injective : Function.Injective CmdFields.toBits :=
  Function.LeftInverse.injective CmdFields.ofBits_toBits

/-- An operand under the mask is 0, if the row uses it. -/
theorem and_mask_operand {n : Nat} (b : Bool) (x : BitVec n) :
    x &&& (if b then 0 else .allOnes n) = if b then 0 else x := by
  cases b <;> simp

/-- A field that is not used is 0 exactly when the mask leaves nothing of it. -/
theorem eq_used_iff {n : Nat} (b : Bool) (x : BitVec n) : (x = if b then x else 0) ↔ (if b then 0 else x) = 0 := by
  cases b <;> simp

/-- A word is a row's word if its selecting fields are and the mask leaves nothing else. -/
theorem CmdFields.eq_restrict_iff (f : CmdFields) (u : FieldUse) :
    f = f.restrict u ↔ f.bare = f.bare.restrict u ∧ f.and u.mask = f.bare := by
  obtain ⟨op, rd, ra, rb, i, v, x, m, res, cc, imm⟩ := f
  simp only [CmdFields.restrict, CmdFields.bare, CmdFields.and, FieldUse.mask, CmdFields.mk.injEq, and_mask_operand,
    BitVec.and_allOnes, ite_self, true_and, and_true, eq_used_iff _ rd, eq_used_iff _ ra, eq_used_iff _ rb,
    eq_used_iff _ imm]
  tauto

/-- The mask keeps the selecting fields. -/
theorem CmdFields.bare_and_mask (f : CmdFields) (u : FieldUse) : (f.and u.mask).bare = f.bare := by
  simp only [CmdFields.bare, CmdFields.and, FieldUse.mask, BitVec.and_allOnes]

theorem CmdFields.bare_bare (f : CmdFields) : f.bare.bare = f.bare := rfl

theorem CmdFields.bare_uses (f : CmdFields) : f.bare.uses = f.uses := rfl

/-- The row of a command: its selecting fields, and the mask of the fields its row of R65 uses. -/
def Instr.row (i : Instr) : OpcodeRow :=
  { mnemonic := i.mnemonic, mask := (i.fields.bare.uses.getD {}).mask.toBits, value := i.fields.bare.toBits }

/-- A word matches the row of a command exactly when it decodes to a command with the same selecting fields. -/
theorem Instr.row_holds_iff (i : Instr) (c : Command) :
    i.row.holds c = true ↔ ∃ j, decode c = some j ∧ j.fields.bare = i.fields.bare := by
  obtain ⟨u, hu, hz, hcc⟩ := (CmdFields.wellFormed_iff _).mp (wellFormed_fields i)
  have hholds : i.row.holds c = true ↔ (CmdFields.ofBits c).and u.mask = i.fields.bare := by
    rw [OpcodeRow.holds, beq_iff_eq, Instr.row, CmdFields.bare_uses, hu, Option.getD_some,
      ← CmdFields.toBits_injective.eq_iff, ← CmdFields.toBits_and, CmdFields.toBits_ofBits]
  rw [hholds]
  constructor
  · intro h
    have hbare : (CmdFields.ofBits c).bare = i.fields.bare := by
      rw [← CmdFields.bare_and_mask _ u, h, CmdFields.bare_bare]
    have hrestrict : CmdFields.ofBits c = (CmdFields.ofBits c).restrict u :=
      (CmdFields.eq_restrict_iff _ u).mpr ⟨hbare ▸ ((CmdFields.eq_restrict_iff _ u).mp hz).1, h.trans hbare.symm⟩
    have huses : (CmdFields.ofBits c).uses = some u := (congrArg CmdFields.uses hbare).trans hu
    have hcc' : (CmdFields.ofBits c).cc.toNat ≤ 5 := (congrArg (CmdFields.cc · |>.toNat) hbare).trans_le hcc
    obtain ⟨j, hj⟩ := decodeFields_of_wellFormed ((CmdFields.wellFormed_iff _).mpr ⟨u, huses, hrestrict, hcc'⟩)
    exact ⟨j, hj, (congrArg CmdFields.bare (fields_of_decode hj)).trans hbare⟩
  · rintro ⟨j, hj, hbare⟩
    obtain ⟨w, hw, hzj, -⟩ := (CmdFields.wellFormed_iff _).mp (wellFormed_fields j)
    obtain rfl : w = u := Option.some.inj (hw.symm.trans ((congrArg CmdFields.uses hbare).trans hu))
    rw [← fields_of_decode hj, ← hbare]
    exact ((CmdFields.eq_restrict_iff _ w).mp hzj).2

/-- The selecting fields of a command, looked up in opcode_table.json, find the row of the command. -/
theorem Instr.find_row (i : Instr) : opcodeTable.find? (fun r => r.value == i.fields.bare.toBits) = some i.row := by
  cases i
  all_goals
    simp only [Instr.row, Instr.fields, CmdFields.bare, Instr.mnemonic]
    decide

theorem Instr.row_mem (i : Instr) : i.row ∈ opcodeTable := List.mem_of_find?_eq_some i.find_row

theorem Instr.row_eq_of_bare_eq (h : i.fields.bare = j.fields.bare) : i.row = j.row :=
  Option.some.inj (by rw [← i.find_row, h, j.find_row])

/-- Every row of opcode_table.json is the row of the command of its pattern. -/
theorem opcodeTable_rows : ∀ r ∈ opcodeTable, (decode r.value).map Instr.row = some r := by decide

/-- A word matches a row exactly when it decodes to a command of that row. -/
theorem OpcodeRow.holds_iff {r : OpcodeRow} (hr : r ∈ opcodeTable) (c : Command) :
    r.holds c = true ↔ ∃ i, decode c = some i ∧ i.row = r := by
  obtain ⟨i, -, rfl⟩ := Option.map_eq_some_iff.mp (opcodeTable_rows r hr)
  rw [i.row_holds_iff]
  refine exists_congr fun j => and_congr_right fun _ => ⟨Instr.row_eq_of_bare_eq, fun h => ?_⟩
  exact CmdFields.toBits_injective (congrArg OpcodeRow.value h)

/-- Settles O4: matching a row is decoding to a command of the row, and a word decodes to at most one command. -/
theorem decoderFollowsTheOpcodeTable : Obligations.DecoderFollowsTheOpcodeTable := by
  refine ⟨fun c r hr h => ?_, fun c i hi => ?_, fun c r hr q hq h h' => ?_⟩
  · obtain ⟨i, hi, rfl⟩ := (OpcodeRow.holds_iff hr c).mp h
    exact ⟨i, hi, rfl⟩
  · exact ⟨i.row, i.row_mem, (OpcodeRow.holds_iff i.row_mem c).mpr ⟨i, hi, rfl⟩, rfl⟩
  · obtain ⟨i, hi, rfl⟩ := (OpcodeRow.holds_iff hr c).mp h
    obtain ⟨j, hj, rfl⟩ := (OpcodeRow.holds_iff hq c).mp h'
    cases hi.symm.trans hj
    rfl

/-! ### The words of the spec (O5) -/

/-- Settles O5: the decoder run on each word. -/
theorem wordsOfTheSpecDecode : Obligations.WordsOfTheSpecDecode := by
  unfold Obligations.WordsOfTheSpecDecode
  decide

end Sys2Proof
end

section
/-! PROOFS of the statements of 30_encoding.md about the machine: the step of a command (O6), unassigned opcodes (O8),
RD (O19), the pseudo-instructions (O58). -/

namespace Sys2Proof.Machine

variable {s t : State} {i : Instr}

/-! ### The step of a command (O6, O8) -/

/-- A host write to CMD_HI issues the word, with its high half stored (30_encoding.md R72). -/
theorem step_writeCmdHi (hr : s.rst = false) (data : Word32) (rest : List HostEvent) :
    step (s.pending (.write (s.params.base + 0x024) data) rest) = issue { s with events := rest, cmdHi := data } := by
  rw [step_write hr]
  exact hostWrite_cmdHi data

/-- Settles O6: the write issues the word, and a READY core performs it. -/
theorem stepRunsTheDecodedCommand : Obligations.StepRunsTheDecodedCommand := by
  intro s data rest i hr hrun hd
  exact (step_writeCmdHi hr data rest).trans (issue_exec (s := { s with events := rest, cmdHi := data }) hrun hd)

/-- OP is the top byte of CMD_HI (30_encoding.md R60). -/
theorem op_of_command (hi lo : Word32) : (CmdFields.ofBits (hi ++ lo)).op.toNat = (hi >>> 24).toNat := by
  have hop : (CmdFields.ofBits (hi ++ lo)).op = hi.extractLsb' 24 8 := extract_append_high hi lo 24
  have hlt : hi.toNat >>> 24 < 2 ^ 8 := by
    have := hi.isLt
    rw [Nat.shiftRight_eq_div_pow]
    omega
  rw [hop, BitVec.extractLsb'_toNat, Nat.mod_eq_of_lt hlt, BitVec.toNat_ushiftRight]

/-- The opcodes that R66 lists are in no row of R65. -/
theorem uses_eq_none_of_unassigned {f : CmdFields} {op : Nat} (hop : f.op.toNat = op)
    (h : (0x08 ≤ op ∧ op ≤ 0x0F) ∨ op = 0x16 ∨ op = 0x17 ∨ (0x1D ≤ op ∧ op ≤ 0x1F) ∨ (0x24 ≤ op ∧ op ≤ 0x27) ∨
      (0x2A ≤ op ∧ op ≤ 0x2F) ∨ (0x31 ≤ op ∧ op ≤ 0x37) ∨ (0x3D ≤ op ∧ op ≤ 0x3F) ∨ 0x42 ≤ op) : f.uses = none := by
  subst hop
  unfold CmdFields.uses
  split
  case h_34 => rfl
  all_goals omega

/-- Settles O8: a word with such an opcode decodes to nothing, so its issue takes the fault E_ILLEGAL. -/
theorem unassignedOpcodesRaiseIllegal : Obligations.UnassignedOpcodesRaiseIllegal := by
  intro s data rest hr hrun hop
  have hd : decode (data ++ s.cmdLo) = none :=
    decode_eq_none_of_uses (uses_eq_none_of_unassigned (op_of_command data s.cmdLo) hop)
  rw [step_writeCmdHi hr]
  exact ⟨_, issue_illegal hrun hd, State.faultEntered_enterFault _ .illegal 0 ⟨rfl, rfl⟩ ⟨rfl, fun _ => rfl⟩
    State.samePort_refl rfl, fun _ => rfl⟩

/-! ### RD (O19) -/

/-- Settles O19: a register that a command changes is its RD. -/
theorem onlyTheDestinationRegisterIsWritten : Obligations.OnlyTheDestinationRegisterIsWritten := by
  intro i s t h j hj
  obtain ⟨r, he, rfl⟩ := exec_cases h
  exact (he.reg_cases j).resolve_right fun hd => hj hd.1

/-! ### Pseudo-instructions (O58) -/

/-! #### Performing one command of an expansion -/

/-- The word of the command in CMD_LO and CMD_HI, as the host's two writes leave it (30_encoding.md R61). -/
def State.withCommand (s : State) (i : Instr) : State :=
  { s with cmdLo := (encode i).extractLsb' 0 32, cmdHi := (encode i).extractLsb' 32 32 }

theorem State.command_withCommand (s : State) (i : Instr) : (s.withCommand i).command = encode i :=
  (extract_append_extract (i := 0) (encode i)).trans BitVec.extractLsb'_eq_self

/-- The host's two writes perform the command. -/
theorem perform_ready (hrun : s.run = .ready) (i : Instr) : perform i s = exec i (s.withCommand i) := by
  have hd : decode (s.withCommand i).command = some i := by rw [State.command_withCommand, decode_encode]
  exact issue_exec (s := s.withCommand i) hrun hd

/-- The state after the host's writes for a command that leaves value z in format f in V[rd]. -/
def State.wrote (s : State) (i : Instr) (rd : RegIx) (f : Format) (z : Int) : State :=
  ((s.withCommand i).writeReg rd f z).countCommand

/-- The host's writes for the command leave value z in format f in V[rd], and the command completes. -/
def State.Performs (s : State) (i : Instr) (rd : RegIx) (f : Format) (z : Int) : Prop :=
  perform i s = .next (s.wrote i rd f z)

@[simp] theorem State.reg_wrote_self (s : State) (i : Instr) (rd : RegIx) (f : Format) (z : Int) :
    (s.wrote i rd f z).reg rd = Reg.make f z := State.reg_writeReg_self _ rd f z

theorem State.reg_wrote_ne (s : State) (i : Instr) {rd j : RegIx} (h : j ≠ rd) (f : Format) (z : Int) :
    (s.wrote i rd f z).reg j = s.reg j := State.reg_writeReg_ne _ h f z

theorem State.readable_of_make {j : RegIx} {f : Format} {z : Int} (h : s.reg j = Reg.make f z) : s.Readable j := by
  rw [State.Readable, h]
  exact signOf_ne_uninit z

/-- A rule that ends in one register write, performed from READY. -/
theorem State.performs_of_done (hrun : s.run = .ready) {rd : RegIx} {f : Format} {z : Int} {r : RuleEnd}
    (hexec : exec i (s.withCommand i) = r.finish) (h : r = .done ((s.withCommand i).writeReg rd f z)) :
    s.Performs i rd f z := by
  rw [State.Performs, perform_ready hrun, hexec, h]
  rfl

/-! #### What a list of commands leaves -/

theorem State.leaves_nil (hrun : s.run = .ready) : s.Leaves [] [] :=
  ⟨s, rfl, hrun, by simp, fun _ _ => rfl⟩

theorem performAll_cons {u : State} (h : perform i s = .next u) (rest : List Instr) :
    performAll (i :: rest) s = performAll rest u := by
  rw [performAll, h]

section Cons

variable {rest : List Instr} {results : List (RegIx × Format × Int)} {rd : RegIx} {f : Format} {y z : Int}

/-- A command whose result the rest of the list leaves as it is. -/
theorem State.leaves_cons (hi : s.Performs i rd f y) (hrest : (s.wrote i rd f y).Leaves rest results)
    (hrd : ∀ r ∈ results, r.1 ≠ rd) (hy : f.holds y) (hz : (2 : Int) ^ f.width ∣ y - z) :
    s.Leaves (i :: rest) ((rd, f, z) :: results) := by
  obtain ⟨t, ht, hrun, hres, hframe⟩ := hrest
  refine ⟨t, (performAll_cons hi rest).trans ht, hrun, ?_, fun j hj => ?_⟩
  · refine List.forall_mem_cons.mpr ⟨⟨y, ?_, hy, hz⟩, hres⟩
    rw [hframe rd hrd, State.reg_wrote_self]
    exact Reg.make_is f y
  · obtain ⟨hne, hj⟩ := List.forall_mem_cons.mp hj
    rw [hframe j hj, State.reg_wrote_ne s i hne.symm]

/-- A command whose result the rest of the list overwrites. -/
theorem State.leaves_cons_overwritten (hi : s.Performs i rd f y) (hrest : (s.wrote i rd f y).Leaves rest results)
    (hrd : ∃ r ∈ results, r.1 = rd) : s.Leaves (i :: rest) results := by
  obtain ⟨t, ht, hrun, hres, hframe⟩ := hrest
  refine ⟨t, (performAll_cons hi rest).trans ht, hrun, hres, fun j hj => ?_⟩
  obtain ⟨r, hr, rfl⟩ := hrd
  rw [hframe j hj, State.reg_wrote_ne s i (hj r hr).symm]

/-- An expansion of one command. -/
theorem State.leaves_one (hrun : s.run = .ready) (hi : s.Performs i rd f y) (hy : f.holds y)
    (hz : (2 : Int) ^ f.width ∣ y - z) : s.Leaves [i] [(rd, f, z)] :=
  State.leaves_cons hi (State.leaves_nil hrun) (by simp) hy hz

/-- A last command that reduces its number into a format. -/
theorem State.leaves_fit (hrun : s.run = .ready) (hf : 1 ≤ f.width) (hi : s.Performs i rd f (f.fit z)) :
    s.Leaves [i] [(rd, f, z)] :=
  State.leaves_one hrun hi (Format.fit_holds hf z) (Format.dvd_fit_sub f z)

end Cons

/-! #### Registers that hold a value -/

/-- A register that holds a value: its format is no wider than WMAX and holds the value (10_state.md R22, R23). -/
theorem State.bounds_of_good {j : RegIx} (h : s.Good j) :
    1 ≤ (s.reg j).fmt.width ∧ (s.reg j).fmt.width ≤ s.params.wmax ∧ (s.reg j).fmt.holds (s.reg j).val := by
  obtain ⟨hr, hwf⟩ := h
  obtain ⟨h1, h2, -, -, h3⟩ := hwf hr
  exact ⟨h1, h2, h3⟩

/-- A register that is as in a state with the same parameters. -/
theorem State.good_of_reg_eq {j : RegIx} (hreg : t.reg j = s.reg j) (hp : t.params = s.params) (h : s.Good j) :
    t.Good j := by
  rw [State.Good, State.Readable, hreg, hp]
  exact h

/-- Only one record holds value z in format f. -/
theorem Reg.Is.eq_make {r : Reg} {f : Format} {z : Int} (h : r.Is f z) : r = Reg.make f z := by
  obtain ⟨hv, hw, hm, hp, hn, hz⟩ := h
  have hs : r.sign = signOf z := by
    rcases lt_trichotomy 0 z with h0 | h0 | h0
    · rw [hp h0, signOf_pos h0]
    · rw [hz h0.symm, ← h0, signOf_zero]
    · rw [hn h0, signOf_neg h0]
  exact Reg.mk.injEq .. |>.mpr ⟨hv, hs, hw, hm⟩

/-- A register is the record of its own format and value (10_state.md R24). -/
theorem Reg.make_fmt_val {p : Params} {r : Reg} (hr : r.sign ≠ .uninit) (h : r.Wf p) : Reg.make r.fmt r.val = r := by
  obtain ⟨-, -, hzero, -, -⟩ := h hr
  obtain ⟨v, sg, w, m⟩ := r
  cases sg with
  | uninit => exact absurd rfl hr
  | zero =>
    obtain rfl : m = 0 := hzero.mp rfl
    rfl
  | pos =>
    have hm : 0 < m := Nat.pos_of_ne_zero fun h0 => nomatch hzero.mpr h0
    simp [Reg.make, Reg.fmt, Reg.val, signOf_pos, hm]
  | neg =>
    have hm : 0 < m := Nat.pos_of_ne_zero fun h0 => nomatch hzero.mpr h0
    simp [Reg.make, Reg.fmt, Reg.val, signOf_neg, hm]

/-! #### INC, DEC, ZERO, POSTINC, POSTDEC -/

section OneOperand

variable {ra : RegIx} (hrun : s.run = .ready) (h : s.Good ra)
include hrun h

/-- A command of one operand, performed from READY. -/
theorem State.performs_oneOperand {rd : RegIx} {result : Reg → Format × Int} {f : Format} {z : Int}
    (hexec : exec i (s.withCommand i) = (oneOperand (s.withCommand i) rd ra result).finish)
    (hresult : result (s.reg ra) = (f, z)) : s.Performs i rd f z := by
  have hi := State.performs_of_done hrun hexec (withReg_readable (s := s.withCommand i) h.1 _)
  rwa [show (s.withCommand i).reg ra = s.reg ra from rfl, hresult] at hi

theorem State.leaves_inc : s.Leaves (Pseudo.inc ra).expand [(ra, (s.reg ra).fmt, (s.reg ra).val + 1)] :=
  State.leaves_fit hrun (State.bounds_of_good h).1 (State.performs_oneOperand hrun h rfl rfl)

theorem State.leaves_dec : s.Leaves (Pseudo.dec ra).expand [(ra, (s.reg ra).fmt, (s.reg ra).val - 1)] :=
  State.leaves_fit hrun (State.bounds_of_good h).1 (State.performs_oneOperand hrun h rfl rfl)

theorem State.leaves_zero : s.Leaves (Pseudo.zero ra).expand [(ra, (s.reg ra).fmt, 0)] := by
  have hmul : s.Performs (.muli ra ra 0) ra (s.reg ra).fmt ((s.reg ra).fmt.fit ((s.reg ra).val * zext32 0)) :=
    State.performs_oneOperand hrun h rfl rfl
  rw [show zext32 0 = 0 from rfl, mul_zero] at hmul
  exact State.leaves_fit hrun (State.bounds_of_good h).1 hmul

theorem State.performs_mov (rd : RegIx) : s.Performs (.mov rd ra) rd (s.reg ra).fmt (s.reg ra).val :=
  State.performs_oneOperand hrun h rfl rfl

omit hrun in
/-- MOV leaves its source as it was, also when it is the destination. -/
theorem State.reg_wrote_mov (rd : RegIx) :
    (s.wrote (.mov rd ra) rd (s.reg ra).fmt (s.reg ra).val).reg ra = s.reg ra := by
  by_cases hd : ra = rd
  · subst hd
    rw [State.reg_wrote_self, Reg.make_fmt_val h.1 h.2]
  · exact State.reg_wrote_ne s _ hd _ _

/-- POSTINC and POSTDEC: a copy, then the change `c` of V[ra]; a copy onto ra itself is overwritten. -/
theorem State.leaves_post {rd : RegIx} {c : Instr} {z : Int}
    (hc : ∀ t : State, t.run = .ready → t.Good ra → t.reg ra = s.reg ra → t.Leaves [c] [(ra, (s.reg ra).fmt, z)]) :
    (rd ≠ ra → s.Leaves [.mov rd ra, c] [(rd, (s.reg ra).fmt, (s.reg ra).val), (ra, (s.reg ra).fmt, z)]) ∧
      s.Leaves [.mov ra ra, c] [(ra, (s.reg ra).fmt, z)] := by
  have hrest (j : RegIx) := hc (s.wrote (.mov j ra) j (s.reg ra).fmt (s.reg ra).val) hrun
    (State.good_of_reg_eq (State.reg_wrote_mov h j) rfl h) (State.reg_wrote_mov h j)
  refine ⟨fun hd => ?_, ?_⟩
  · exact State.leaves_cons (State.performs_mov hrun h rd) (hrest rd) (by simp [hd.symm]) (State.bounds_of_good h).2.2
      (by simp)
  · exact State.leaves_cons_overwritten (State.performs_mov hrun h ra) (hrest ra) (by simp)

end OneOperand

/-! #### LI -/

/-- FMT in a width that R81 allows. -/
theorem formatting_eq {rd : RegIx} {v : Variant} {w : Word32} (h0 : w.toNat ≠ 0) (hw : w.toNat ≤ s.params.wmax) :
    formatting s rd v w = .done (s.writeReg rd { variant := v, width := w.toNat } 0) :=
  (withImmFormat_pos h0 _).trans (withFormat_fits hw _)

/-- LDI reduces its number into the format V[rd] has (R82). -/
theorem State.performs_loading {rd : RegIx} {f : Format} {y z : Int} (hrun : s.run = .ready)
    (hreg : s.reg rd = Reg.make f y) (hexec : exec i (s.withCommand i) = (loading (s.withCommand i) rd z).finish) :
    s.Performs i rd f (f.fit z) := by
  have h := State.performs_of_done hrun hexec
    (withReg_readable (s := s.withCommand i) (State.readable_of_make hreg) _)
  rwa [show (s.withCommand i).reg rd = Reg.make f y from hreg] at h

/-- LI.U and LI.S: FMT of width w, then LDI of z. -/
theorem State.leaves_li {rd : RegIx} {v : Variant} {w : Word32} {c load : Instr} {z : Int} (hrun : s.run = .ready)
    (h0 : w ≠ 0) (hw : w.toNat ≤ s.params.wmax)
    (hc : exec c (s.withCommand c) = (formatting (s.withCommand c) rd v w).finish)
    (hload : ∀ t : State, exec load t = (loading t rd z).finish) :
    s.Leaves [c, load] [(rd, { variant := v, width := w.toNat }, z)] := by
  have hpos : w.toNat ≠ 0 := fun h => h0 (BitVec.eq_of_toNat_eq h)
  have hfmt := State.performs_of_done hrun hc (formatting_eq (s := s.withCommand c) hpos hw)
  refine State.leaves_cons_overwritten hfmt (State.leaves_fit hrun (Nat.one_le_iff_ne_zero.mpr hpos) ?_) (by simp)
  exact State.performs_loading hrun (State.reg_wrote_self ..) (hload _)

/-! #### The shifts -/

section Shifts

variable {ra rb : RegIx} (hrun : s.run = .ready) (ha : s.Good ra) (hb : s.Good rb)
include hrun ha hb

theorem State.performs_shl (hw : (s.reg ra).width + (s.reg rb).val.toNat ≤ s.params.wmax) :
    s.Performs (.shl ra ra rb) ra { variant := (s.reg ra).variant, width := (s.reg ra).width + (s.reg rb).val.toNat }
      ((s.reg ra).val * 2 ^ (s.reg rb).val.toNat) := by
  refine State.performs_of_done hrun rfl ((withReg_readable (s := s.withCommand _) ha.1 _).trans
    ((withOperand2_reg (s := s.withCommand _) hb.1 _).trans ?_))
  split
  next hn =>
    replace hn : (s.reg rb).val.toNat = 0 := Int.toNat_of_nonpos hn
    rw [hn, pow_zero, mul_one]
    rfl
  next => exact withFormat_fits (s := s.withCommand _) hw _

theorem State.performs_shr :
    s.Performs (.shr ra ra rb) ra (s.reg ra).fmt ((s.reg ra).val >>> (s.reg rb).val.toNat) := by
  refine State.performs_of_done hrun rfl ((withReg_readable (s := s.withCommand _) ha.1 _).trans
    ((withOperand2_reg (s := s.withCommand _) hb.1 _).trans ?_))
  split
  next hn =>
    replace hn : (s.reg rb).val.toNat = 0 := Int.toNat_of_nonpos hn
    rw [hn, Int.shiftRight_zero]
    rfl
  next => rfl

theorem State.leaves_shlA (hw : (s.reg ra).width + (s.reg rb).val.toNat ≤ s.params.wmax) :
    s.Leaves (Pseudo.shlA ra rb).expand
      [(ra, { variant := (s.reg ra).variant, width := (s.reg ra).width + (s.reg rb).val.toNat },
        (s.reg ra).val * 2 ^ (s.reg rb).val.toNat)] := by
  obtain ⟨h1, -, hx⟩ := State.bounds_of_good ha
  exact State.leaves_one hrun (State.performs_shl hrun ha hb hw) (holds_shl h1 hx _) (by simp)

theorem State.leaves_shrA : s.Leaves (Pseudo.shrA ra rb).expand
    [(ra, (s.reg ra).fmt, (s.reg ra).val / 2 ^ (s.reg rb).val.toNat)] :=
  State.leaves_one hrun (State.performs_shr hrun ha hb) (holds_shr (State.bounds_of_good ha).2.2 _)
    (by simp [shiftRight_eq_floor])

end Shifts

/-! #### The compound operators -/

theorem CompoundOp.resultFormat_width_pos (op : CompoundOp) {a b : Format} (ha : 1 ≤ a.width) :
    1 ≤ (op.resultFormat a b).width := by
  cases op with
  | add | sub => exact rfmtAdd_width_pos a b
  | mul => exact rfmtMul_width_pos ha
  | div => exact rfmtDiv_width_pos ha
  | mod => exact rfmtMod_width_pos ha
  | and | or | xor => exact rfmtBitwise_width_pos ha

theorem Format.width_le_es (f : Format) : f.width ≤ f.es := by
  unfold Format.es
  split <;> omega

/-- No result format is narrower than the first operand (00_scope.md R15). -/
theorem CompoundOp.width_le_resultFormat (op : CompoundOp) (a b : Format) :
    a.width ≤ (op.resultFormat a b).width := by
  have hes := a.width_le_es
  cases op
  all_goals
    simp only [CompoundOp.resultFormat, rfmtAdd, rfmtMul, rfmtDiv, rfmtMod, rfmtBitwise, apply_ite Format.width]
    split
  all_goals omega

/-- Every result but a difference is exact (00_scope.md R15). -/
theorem CompoundOp.exact_holds {op : CompoundOp} (hop : op ≠ .sub) {a b : Format} (ha : 1 ≤ a.width)
    (hb : 1 ≤ b.width) {x y : Int} (hx : a.holds x) (hy : b.holds y) : (op.resultFormat a b).holds (op.exact x y) := by
  cases op with
  | sub => exact absurd rfl hop
  | add => exact rfmtAdd_holds_add ha hb hx hy
  | mul => exact rfmtMul_holds ha hb hx hy
  | div =>
    rw [CompoundOp.exact, ← tdiv_eq]
    exact rfmtDiv_holds ha hx hy
  | mod =>
    rw [CompoundOp.exact, ← tmod_eq]
    exact rfmtMod_holds ha hx y
  | and => exact rfmtBitwise_holds_and ha hb hx hy
  | or => exact rfmtBitwise_holds_or ha hb hx hy
  | xor => exact rfmtBitwise_holds_xor ha hb hx hy

theorem twoOperand_eq {rd ra rb : RegIx} {rfmt : Format → Format → Format} {value : Format → Int → Int → Int}
    (ha : s.Readable ra) (hb : s.Readable rb) (hw : (rfmt (s.reg ra).fmt (s.reg rb).fmt).width ≤ s.params.wmax) :
    twoOperand s rd ra rb rfmt value = .done (s.writeReg rd (rfmt (s.reg ra).fmt (s.reg rb).fmt)
      (value (rfmt (s.reg ra).fmt (s.reg rb).fmt) (s.reg ra).val (s.reg rb).val)) :=
  (withReg_readable ha _).trans ((withReg_readable hb _).trans (withFormat_fits hw _))

theorem dividing_eq {rd ra rb : RegIx} {rfmt : Format → Format → Format} {m : Bool} {value : Int → Int → Int}
    (ha : s.Readable ra) (hb : s.Readable rb) (hw : (rfmt (s.reg ra).fmt (s.reg rb).fmt).width ≤ s.params.wmax)
    (h0 : (s.reg rb).val ≠ 0) :
    dividing s rd ra rb rfmt m value = .done (s.writeReg rd (rfmt (s.reg ra).fmt (s.reg rb).fmt)
      (value (s.reg ra).val (s.reg rb).val)) :=
  (withReg_readable ha _).trans ((withReg_readable hb _).trans ((withFormat_fits hw _).trans (if_neg h0)))

/-- A number reduced into a wider format and then into a narrower one stays congruent for the narrower. -/
theorem Format.dvd_fit_fit_sub {f g : Format} (h : f.width ≤ g.width) (z : Int) :
    (2 : Int) ^ f.width ∣ f.fit (g.fit z) - z := by
  have hg : (2 : Int) ^ f.width ∣ g.fit z - z := (pow_dvd_pow 2 h).trans (Format.dvd_fit_sub g z)
  have hsum := (Format.dvd_fit_sub f (g.fit z)).add hg
  rwa [sub_add_sub_cancel] at hsum

/-- CVT of a number that is in ra reduced into a wider format. -/
theorem State.leaves_cvt {rd ra : RegIx} {f g : Format} {z : Int} (hrun : s.run = .ready) (hd : s.Good rd)
    (hf : (s.reg rd).fmt = f) (ha : s.reg ra = Reg.make g (g.fit z)) (hle : f.width ≤ g.width) :
    s.Leaves [.cvt rd ra] [(rd, f, z)] := by
  have hi : s.Performs (.cvt rd ra) rd (s.reg rd).fmt ((s.reg rd).fmt.fit (s.reg ra).val) :=
    State.performs_of_done hrun rfl
      ((withReg_readable (s := s.withCommand _) (State.readable_of_make ha) _).trans
        (withReg_readable (s := s.withCommand _) hd.1 _))
  have hpos := (State.bounds_of_good hd).1
  rw [hf, ha, Reg.make_val] at hi
  rw [hf] at hpos
  exact State.leaves_one hrun hi (Format.fit_holds hpos _) (Format.dvd_fit_fit_sub hle z)

section Compound

variable {op : CompoundOp} {ra rb : RegIx} (hrun : s.run = .ready) (ha : s.Good ra) (hb : s.Good rb)
  (hdiv : op = .div ∨ op = .mod → (s.reg rb).val ≠ 0)
  (hw : (op.resultFormat (s.reg ra).fmt (s.reg rb).fmt).width ≤ s.params.wmax)
include hrun ha hb hdiv hw

/-- The command of a compound operator writes the exact result, reduced into the result format. -/
theorem State.performs_compound (rd : RegIx) :
    s.Performs (op.instr rd ra rb) rd (op.resultFormat (s.reg ra).fmt (s.reg rb).fmt)
      ((op.resultFormat (s.reg ra).fmt (s.reg rb).fmt).fit (op.exact (s.reg ra).val (s.reg rb).val)) := by
  obtain ⟨ha1, -, hax⟩ := State.bounds_of_good ha
  obtain ⟨hb1, -, hbx⟩ := State.bounds_of_good hb
  have hfit (hop : op ≠ .sub) :=
    Format.fit_of_holds (op.resultFormat_width_pos ha1) (CompoundOp.exact_holds hop ha1 hb1 hax hbx)
  cases op with
  | add | sub => exact State.performs_of_done hrun rfl (twoOperand_eq (s := s.withCommand _) ha.1 hb.1 hw)
  | mul | and | or | xor =>
    rw [hfit (by simp)]
    exact State.performs_of_done hrun rfl (twoOperand_eq (s := s.withCommand _) ha.1 hb.1 hw)
  | div =>
    rw [hfit (by simp), CompoundOp.exact, ← tdiv_eq]
    exact State.performs_of_done hrun rfl (dividing_eq (s := s.withCommand _) ha.1 hb.1 hw (hdiv (.inl rfl)))
  | mod =>
    rw [hfit (by simp), CompoundOp.exact, ← tmod_eq]
    exact State.performs_of_done hrun rfl (dividing_eq (s := s.withCommand _) ha.1 hb.1 hw (hdiv (.inr rfl)))

/-- op.A: the result in the result format in rt, then reduced into V[ra]'s format in ra (30_encoding.md R71). -/
theorem State.leaves_compound {rt : RegIx} (hrt : rt ≠ ra) :
    s.Leaves (Pseudo.compound op ra rb rt).expand
      [(rt, op.resultFormat (s.reg ra).fmt (s.reg rb).fmt, op.exact (s.reg ra).val (s.reg rb).val),
        (ra, (s.reg ra).fmt, op.exact (s.reg ra).val (s.reg rb).val)] := by
  have hreg := State.reg_wrote_ne s (op.instr rt ra rb) hrt.symm
  refine State.leaves_cons (State.performs_compound hrun ha hb hdiv hw rt) ?_ (by simp [hrt.symm])
    (Format.fit_holds (op.resultFormat_width_pos (State.bounds_of_good ha).1) _) (Format.dvd_fit_sub _ _)
  exact State.leaves_cvt hrun (State.good_of_reg_eq (hreg _ _) rfl ha) (congrArg Reg.fmt (hreg _ _))
    (State.reg_wrote_self ..) (op.width_le_resultFormat _ _)

end Compound

/-! #### Two expansions in a row -/

theorem performAll_append {p q : List Instr} (h : performAll p s = .next t) :
    performAll (p ++ q) s = performAll q t := by
  induction p generalizing s with
  | nil => cases h; rfl
  | cons i rest ih =>
    obtain ⟨u, hu, -⟩ := issue_effect (s.withCommand i)
    rw [performAll_cons hu] at h
    exact (performAll_cons hu (rest ++ q)).trans (ih h)

theorem performAll_params {p : List Instr} (h : performAll p s = .next t) : t.params = s.params := by
  induction p generalizing s with
  | nil => cases h; rfl
  | cons i rest ih =>
    obtain ⟨u, hu, heff⟩ := issue_effect (s.withCommand i)
    rw [performAll_cons hu] at h
    exact (ih h).trans heff.params_eq

/-- SUB.A, then ADD.A of the same operand: both results are congruent in V[ra]'s format, so V[ra] is back
(90_conflicts.md C11). -/
theorem State.subA_addA {ra rb rt : RegIx} (hrun : s.run = .ready) (ha : s.Good ra) (hb : s.Good rb) (hta : rt ≠ ra)
    (htb : rt ≠ rb) (hab : ra ≠ rb) (hw : (rfmtAdd (s.reg ra).fmt (s.reg rb).fmt).width ≤ s.params.wmax) :
    ∃ t, performAll ((Pseudo.compound .sub ra rb rt).expand ++ (Pseudo.compound .add ra rb rt).expand) s = .next t ∧
      (t.reg ra).Is (s.reg ra).fmt (s.reg ra).val := by
  obtain ⟨ha1, ha2, hax⟩ := State.bounds_of_good ha
  obtain ⟨t, ht, htrun, htres, htframe⟩ := State.leaves_compound (op := .sub) hrun ha hb (by simp) hw hta
  obtain ⟨y, hy, hyf, hyd⟩ := htres _ (.tail _ (.head _))
  have hp : t.params = s.params := performAll_params ht
  have hregb : t.reg rb = s.reg rb := htframe rb (by simp [htb, hab])
  have hgooda : t.Good ra := ⟨hy.readable, hy.eq_make ▸ Reg.make_wf ha1 (hp ▸ ha2) hyf⟩
  have hgoodb : t.Good rb := State.good_of_reg_eq hregb hp hb
  obtain ⟨u, hu, -, hures, -⟩ := State.leaves_compound (op := .add) htrun hgooda hgoodb (by simp)
    (by rw [hy.fmt, hregb, hp]; exact hw) hta
  obtain ⟨x, hx, hxf, hxd⟩ := hures _ (.tail _ (.head _))
  rw [hy.fmt] at hx hxf hxd
  rw [hy.val, hregb] at hxd
  have hback : (2 : Int) ^ (s.reg ra).fmt.width ∣ x - (s.reg ra).val := by
    have hsum : x - (s.reg ra).val = x - (y + (s.reg rb).val) + (y - ((s.reg ra).val - (s.reg rb).val)) := by ring
    exact hsum ▸ hxd.add hyd
  obtain rfl : x = (s.reg ra).val := by
    rw [Format.eq_fit_of_dvd ha1 hxf hback, Format.fit_of_holds ha1 hax]
  exact ⟨u, (performAll_append ht).trans hu, hx⟩

/-- Settles O58, one lemma per pseudo-instruction: every command of an expansion performs one register write, and the
writes compose by `leaves_cons` and `leaves_cons_overwritten`. -/
theorem pseudoInstructionsDoWhatTheyStandFor : Obligations.PseudoInstructionsDoWhatTheyStandFor := by
  intro s rd ra rb rt w imm hrun
  refine ⟨fun ha => ?_, fun h0 hw => ?_, fun ha hb => ?_⟩
  · have hinc := State.leaves_post (rd := rd) hrun ha fun t ht hg hreg => hreg ▸ State.leaves_inc ht hg
    have hdec := State.leaves_post (rd := rd) hrun ha fun t ht hg hreg => hreg ▸ State.leaves_dec ht hg
    exact ⟨State.leaves_inc hrun ha, State.leaves_dec hrun ha, State.leaves_zero hrun ha,
      fun hne => ⟨hinc.1 hne, hdec.1 hne⟩, hinc.2, hdec.2⟩
  · exact ⟨State.leaves_li hrun h0 hw rfl fun _ => rfl, State.leaves_li hrun h0 hw rfl fun _ => rfl⟩
  · exact ⟨fun hrt op hdiv hw => State.leaves_compound hrun ha hb hdiv hw hrt, State.leaves_shlA hrun ha hb,
      State.leaves_shrA hrun ha hb, State.subA_addA hrun ha hb⟩

end Sys2Proof.Machine
end

section
/-! PROOFS of the statements of 40_setup_move.md: NOP (O26), FMT (O27), LDI (O28), MOV (O29), CAST (O30), CVT (O31). -/

namespace Sys2Proof.Machine

variable {s : State} {i : Instr}

/-! ### Words that decode (R60) and words that do not (R142) -/

/-- The word of a command's own fields decodes to it. -/
theorem encodes_fields (i : Instr) : Encodes i.fields i := decode_encode i

/-- The row of NOP is the only one with OP = 0, and has no used field (R64, R65). -/
theorem decodeFields_of_op_zero {f : CmdFields} (h : f.op = 0) : decodeFields f = f.exactly {} .nop := by
  obtain ⟨op, rd, ra, rb, i, v, x, m, res, cc, imm⟩ := f
  obtain rfl : op = 0 := h
  rfl

theorem decode_eq_none_of_op_zero {c : Command} (hop : c.extractLsb' 56 8 = 0) (hc : c ≠ 0) : decode c = none := by
  refine (decodeFields_of_op_zero hop).trans (if_neg fun hf => hc ?_)
  rw [← CmdFields.toBits_ofBits c, hf]
  rfl

/-- The issue of a word that decodes to nothing takes the fault E_ILLEGAL. -/
theorem State.wordIsIllegal_of_decode {c : Command} (h : decode c = none) (s : State) : s.WordIsIllegal c := by
  intro rest hr hrun low issued
  have hcommand : issued.command = c := (extract_append_extract (i := 0) c).trans BitVec.extractLsb'_eq_self
  have hissue : issue issued = .next (issued.enterFault .illegal 0) := issue_illegal hrun (hcommand ▸ h)
  exact ⟨_, (step_writeCmdHi (s := low) hr _ rest).trans hissue,
    State.faultEntered_enterFault issued .illegal 0 ⟨rfl, rfl⟩ ⟨rfl, fun _ => rfl⟩ State.samePort_refl rfl,
    fun _ => rfl⟩

/-! ### NOP (R80) -/

/-- A rule that ends with nothing written. -/
theorem State.onlyCounts_of_done (h : exec i s = (RuleEnd.done s).finish) : s.OnlyCounts i :=
  ⟨s.countCommand, h, fun _ => rfl, ⟨rfl, rfl⟩, ⟨rfl, fun _ => rfl⟩, ⟨rfl, rfl, rfl, rfl, rfl⟩,
    ⟨rfl, rfl, rfl, rfl, rfl, rfl, rfl⟩, rfl⟩

/-- Settles O26: a word with OP = 0 decodes only if it is the all-zero word, NOP, whose rule writes nothing. -/
theorem nopOnlyCounts : Obligations.NopOnlyCounts :=
  ⟨encodes_fields .nop, fun s _ hop hc => s.wordIsIllegal_of_decode (decode_eq_none_of_op_zero hop hc),
    fun _ => State.onlyCounts_of_done rfl⟩

/-! ### FMT (R81) -/

/-- A width of 0 in IMM (60_exceptions.md R144). -/
theorem State.raises_badWidth {v : Variant} {imm : Word32} {k : Format → RuleEnd}
    (h : exec i s = (withImmFormat s v imm k).finish) (h0 : imm = 0) : s.Raises i .badWidth 0 :=
  State.raises_of_raise (h.trans (congrArg RuleEnd.finish (withImmFormat_zero (h0 ▸ rfl) k)))

/-- A rule that takes its result width from IMM, when that is not 0. -/
theorem State.upToWmax_of_withImmFormat {v : Variant} {imm : Word32} {k : Format → RuleEnd} {does : Prop}
    (h : exec i s = (withImmFormat s v imm k).finish) (h0 : imm ≠ 0)
    (hd : exec i s = (k { variant := v, width := imm.toNat }).finish → does) : s.UpToWmax i imm.toNat does := by
  have hpos : imm.toNat ≠ 0 := fun hn => h0 (BitVec.eq_of_toNat_eq hn)
  rw [withImmFormat_pos hpos] at h
  exact State.upToWmax_of_withFormat h hd

/-- Settles O27: both commands take their width from IMM and write Zero in the format that gives. -/
theorem fmtConstructsZero : Obligations.FmtConstructsZero := fun _ _ _ =>
  ⟨encodes_fields (.fmtU _ _), encodes_fields (.fmtS _ _),
    fun h0 => ⟨State.raises_badWidth rfl h0, State.raises_badWidth rfl h0⟩,
    fun h0 => ⟨State.upToWmax_of_withImmFormat rfl h0 State.gives_of_write,
      State.upToWmax_of_withImmFormat rfl h0 State.gives_of_write⟩⟩

/-! ### LDI (R82) -/

/-- A rule that reads RD for its format. -/
theorem State.raises_uninit_of_withReg {rd : RegIx} {k : Reg → RuleEnd} (h : exec i s = (withReg s .rd rd k).finish)
    (hu : (s.reg rd).sign = .uninit) : s.Raises i .uninit (BitVec.ofNat 32 rd.toNat) :=
  State.raises_of_raise (by rw [h, withReg_uninit hu, uninitInfo_rd])

/-- A rule that reduces a number into the format V[rd] has. -/
theorem State.givesReduced_of_loading {rd : RegIx} {z : Int} (h : exec i s = (loading s rd z).finish) (hd : s.Good rd) :
    s.GivesReduced i rd (s.reg rd).fmt z :=
  State.givesReduced_of_write (State.bounds_of_good hd).1
    (h.trans (congrArg RuleEnd.finish (withReg_readable hd.1 _)))

/-- R62: IMM as two's complement is IMM, less 2^32 from 2^31 on. -/
theorem sext32_eq (imm : Word32) :
    sext32 imm = if imm.toNat < 2 ^ 31 then (imm.toNat : Int) else (imm.toNat : Int) - 2 ^ 32 := by
  rw [sext32, BitVec.toInt_eq_toNat_cond]
  split <;> split <;> omega

/-- Settles O28: both commands load a number into the format V[rd] has. -/
theorem ldiReducesIntoTheReceiver : Obligations.LdiReducesIntoTheReceiver := fun _ _ imm =>
  ⟨encodes_fields (.ldiU _ _), encodes_fields (.ldiS _ _),
    fun hu => ⟨State.raises_uninit_of_withReg rfl hu, State.raises_uninit_of_withReg rfl hu⟩,
    fun hd => ⟨State.givesReduced_of_loading rfl hd, sext32_eq imm ▸ State.givesReduced_of_loading rfl hd⟩⟩

/-! ### MOV (R83) -/

/-- A rule of one operand, on an operand that holds a value. -/
theorem State.gives_of_oneOperand {rd ra : RegIx} {result : Reg → Format × Int} {f : Format} {z : Int}
    (h : exec i s = (oneOperand s rd ra result).finish) (hr : s.Readable ra) (hz : result (s.reg ra) = (f, z)) :
    s.Gives i rd f z := by
  rw [oneOperand, withReg_readable hr, hz] at h
  exact State.gives_of_write h

/-- Settles O29: MOV is the rule of one operand that gives its format and value. -/
theorem movCopiesTheRegister : Obligations.MovCopiesTheRegister := fun _ _ _ =>
  ⟨encodes_fields (.mov _ _), State.checksRa_of_withReg rfl, fun hr => State.gives_of_oneOperand rfl hr rfl⟩

/-! ### CAST (R84) -/

/-- A value of w two's-complement bits, read as an Unsigned pattern of w bits. -/
theorem Format.fit_unsigned_of_holds_signed {w : Nat} (hw : 1 ≤ w) {x : Int}
    (hx : Format.holds { variant := .signed, width := w } x) :
    Format.fit { variant := .unsigned, width := w } x = if x < 0 then x + 2 ^ w else x := by
  have hpow := two_pow_pred hw
  simp only [Format.holds, Format.lo, Format.hi] at hx
  simp only [Format.fit]
  split
  · rw [← Int.add_emod_right]
    exact Int.emod_eq_of_lt (by omega) (by omega)
  · exact Int.emod_eq_of_lt (by omega) (by omega)

section Cast

variable {rd ra : RegIx} (ha : s.Good ra)
include ha

theorem State.castU_copies (hv : (s.reg ra).variant = .unsigned) :
    s.Gives (.castU rd ra) rd (s.reg ra).fmt (s.reg ra).val :=
  State.gives_of_oneOperand rfl ha.1 (if_pos hv)

theorem State.castU_reinterprets (hv : (s.reg ra).variant = .signed) :
    s.Gives (.castU rd ra) rd { variant := .unsigned, width := (s.reg ra).width }
      (if (s.reg ra).val < 0 then (s.reg ra).val + 2 ^ (s.reg ra).width else (s.reg ra).val) := by
  obtain ⟨hw, -, hx⟩ := State.bounds_of_good ha
  rw [Reg.fmt_width] at hw
  rw [Reg.fmt, hv] at hx
  rw [← Format.fit_unsigned_of_holds_signed hw hx]
  exact State.gives_of_oneOperand rfl ha.1 (if_neg (by simp [hv]))

theorem State.castS_copies (hv : (s.reg ra).variant = .signed) :
    s.Gives (.castS rd ra) rd (s.reg ra).fmt (s.reg ra).val :=
  State.gives_of_write (congrArg RuleEnd.finish ((withReg_readable ha.1 _).trans (if_pos hv)))

theorem State.castS_widens (hv : (s.reg ra).variant = .unsigned) :
    s.UpToWmax (.castS rd ra) ((s.reg ra).width + 1)
      (s.Gives (.castS rd ra) rd { variant := .signed, width := (s.reg ra).width + 1 } (s.reg ra).val) :=
  State.upToWmax_of_withFormat (f := { variant := .signed, width := (s.reg ra).width + 1 })
    (congrArg RuleEnd.finish ((withReg_readable ha.1 _).trans (if_neg (by simp [hv])))) State.gives_of_write

end Cast

/-- Settles O30, one lemma per command and variant of the source. -/
theorem castChangesTheVariant : Obligations.CastChangesTheVariant := fun _ _ _ =>
  ⟨encodes_fields (.castU _ _), encodes_fields (.castS _ _), State.checksRa_of_withReg rfl,
    State.checksRa_of_withReg rfl, fun ha =>
      ⟨fun hv => ⟨State.castU_copies ha hv, State.castS_widens ha hv⟩,
        fun hv => ⟨State.castS_copies ha hv, State.castU_reinterprets ha hv⟩⟩⟩

/-! ### CVT (R85) -/

/-- CVT from a register that holds a value loads that value as LDI does its immediate. -/
theorem exec_cvt_of_readable {ra : RegIx} (hr : s.Readable ra) (rd : RegIx) :
    exec (.cvt rd ra) s = (loading s rd (s.reg ra).val).finish :=
  congrArg RuleEnd.finish (withReg_readable hr _)

/-- Settles O31: CVT is a load of V[ra]'s value, and reduction keeps a value that fits. -/
theorem cvtReducesIntoTheReceiver : Obligations.CvtReducesIntoTheReceiver := by
  intro s rd ra
  refine ⟨encodes_fields (.cvt rd ra), State.checksRa_of_withReg rfl,
    fun hr hu => State.raises_uninit_of_withReg (exec_cvt_of_readable hr rd) hu, fun hr hd => ?_⟩
  refine ⟨State.givesReduced_of_loading (exec_cvt_of_readable hr rd) hd, fun hx => State.gives_of_write ?_⟩
  have hfit := Format.fit_of_holds (State.bounds_of_good hd).1 hx
  rw [exec_cvt_of_readable hr, loading, withReg_readable hd.1, hfit]

end Sys2Proof.Machine
end

section
/-! PROOFS of the statements of 41_arith.md: ADD (O34), SUB (O35), MUL (O36), DIV (O37), MOD (O38), NEG (O39), the
small-scalar commands (O40, O41), and the laws of ADD with SUB (O56) and of DIV with MOD (O57). -/

namespace Sys2Proof.Machine

variable {s : State} {i : Instr}

/-! ### Commands of two operands -/

theorem State.UpToWmax.imp {w : Nat} {p q : Prop} (h : s.UpToWmax i w p) (hpq : p → q) : s.UpToWmax i w q :=
  ⟨h.1, hpq ∘ h.2⟩

section TwoOperands

variable {rd ra rb : RegIx} {rfmt : Format → Format → Format} (ha : s.Readable ra) (hb : s.Readable rb)
include ha hb

/-- A rule of two operands, on operands that hold values. -/
theorem State.upToWmax_of_twoOperand {value : Format → Int → Int → Int}
    (h : exec i s = (twoOperand s rd ra rb rfmt value).finish) :
    s.UpToWmax i (rfmt (s.reg ra).fmt (s.reg rb).fmt).width
      (s.Gives i rd (rfmt (s.reg ra).fmt (s.reg rb).fmt)
        (value (rfmt (s.reg ra).fmt (s.reg rb).fmt) (s.reg ra).val (s.reg rb).val)) := by
  rw [twoOperand, withReg_readable ha, withReg_readable hb] at h
  exact State.upToWmax_of_withFormat h State.gives_of_write

/-- A rule of two operands that divides, on operands that hold values. -/
theorem State.upToWmax_of_dividing {modulo : Bool} {value : Int → Int → Int}
    (h : exec i s = (dividing s rd ra rb rfmt modulo value).finish) :
    s.UpToWmax i (rfmt (s.reg ra).fmt (s.reg rb).fmt).width
      (((s.reg rb).val = 0 → s.RaisesDiv0 i rd (rfmt (s.reg ra).fmt (s.reg rb).fmt)
          (div0Info modulo (decide ((s.reg ra).val = 0)))) ∧
        ((s.reg rb).val ≠ 0 → s.Gives i rd (rfmt (s.reg ra).fmt (s.reg rb).fmt)
          (value (s.reg ra).val (s.reg rb).val))) := by
  rw [dividing, withReg_readable ha, withReg_readable hb] at h
  exact State.upToWmax_of_withFormat h fun hf =>
    ⟨fun h0 => State.raisesDiv0_of_raise (hf.trans (congrArg RuleEnd.finish (if_pos h0))),
      fun h0 => State.gives_of_write (hf.trans (congrArg RuleEnd.finish (if_neg h0)))⟩

end TwoOperands

/-! ### ADD, SUB, MUL (R90 to R92) -/

/-- The format of a sum holds the first operand. -/
theorem rfmtAdd_holds_left {a b : Format} (ha : 1 ≤ a.width) (hb : 1 ≤ b.width) {x : Int} (hx : a.holds x) :
    (rfmtAdd a b).holds x := by
  simpa using rfmtAdd_holds_add ha hb hx Format.holds_zero

/-- The format of a sum holds the second operand. -/
theorem rfmtAdd_holds_right {a b : Format} (ha : 1 ≤ a.width) (hb : 1 ≤ b.width) {y : Int} (hy : b.holds y) :
    (rfmtAdd a b).holds y := by
  simpa using rfmtAdd_holds_add ha hb Format.holds_zero hy

theorem Format.holds_unsigned {f : Format} (hv : f.variant = .unsigned) {z : Int} :
    f.holds z ↔ 0 ≤ z ∧ z < 2 ^ f.width := by
  simp only [Format.holds, Format.lo, Format.hi, hv, Int.le_sub_one_iff]

/-- Reduction of a number below zero into an Unsigned format wraps once when the format holds its negation. -/
theorem Format.fit_unsigned_of_neg {f : Format} (hv : f.variant = .unsigned) {z : Int} (hz : z < 0)
    (hlow : -(2 : Int) ^ f.width ≤ z) : f.fit z = 2 ^ f.width + z := by
  rw [Format.fit_unsigned hv, ← Int.add_emod_left]
  exact Int.emod_eq_of_lt (by omega) (by omega)

/-- The difference of two Unsigned values wraps once when it is below zero (R91). -/
theorem fit_sub_of_lt {a b : Format} (ha : 1 ≤ a.width) (hb : 1 ≤ b.width) {x y : Int} (hx : a.holds x)
    (hy : b.holds y) (hv : (rfmtAdd a b).variant = .unsigned) (hlt : x < y) :
    (rfmtAdd a b).fit (x - y) = 2 ^ (rfmtAdd a b).width + x - y := by
  obtain ⟨hx0, -⟩ := (Format.holds_unsigned hv).mp (rfmtAdd_holds_left ha hb hx)
  obtain ⟨-, hyw⟩ := (Format.holds_unsigned hv).mp (rfmtAdd_holds_right ha hb hy)
  rw [Format.fit_unsigned_of_neg hv (by omega) (by omega), add_sub_assoc]

section Sums

variable {ra rb : RegIx} (ha : s.Good ra) (hb : s.Good rb) (rd : RegIx)
include ha hb

theorem State.add_exact : s.UpToWmax (.add rd ra rb) (rfmtAdd (s.reg ra).fmt (s.reg rb).fmt).width
    (s.Gives (.add rd ra rb) rd (rfmtAdd (s.reg ra).fmt (s.reg rb).fmt) ((s.reg ra).val + (s.reg rb).val)) := by
  obtain ⟨ha1, -, hx⟩ := State.bounds_of_good ha
  obtain ⟨hb1, -, hy⟩ := State.bounds_of_good hb
  have hfit := Format.fit_of_holds (rfmtAdd_width_pos _ _) (rfmtAdd_holds_add ha1 hb1 hx hy)
  exact hfit ▸ State.upToWmax_of_twoOperand (i := .add rd ra rb) ha.1 hb.1 rfl

theorem State.sub_reduced : s.UpToWmax (.sub rd ra rb) (rfmtAdd (s.reg ra).fmt (s.reg rb).fmt).width
    (s.Gives (.sub rd ra rb) rd (rfmtAdd (s.reg ra).fmt (s.reg rb).fmt)
      ((rfmtAdd (s.reg ra).fmt (s.reg rb).fmt).fit ((s.reg ra).val - (s.reg rb).val))) :=
  State.upToWmax_of_twoOperand (i := .sub rd ra rb) ha.1 hb.1 rfl

end Sums

/-- Settles O34: the format of the sum holds it, so the reduction into that format keeps it. -/
theorem addIsExact : Obligations.AddIsExact := fun _ rd _ _ =>
  ⟨encodes_fields (.add _ _ _), State.checksRaRb_of_withReg rfl, fun ha hb => State.add_exact ha hb rd⟩

/-- Settles O35: SUB reduces the difference into the result format, which holds it unless two Unsigned operands borrow;
then the reduction wraps once. -/
theorem subIsExactOrWrapsUnsigned : Obligations.SubIsExactOrWrapsUnsigned := by
  intro s rd ra rb
  refine ⟨encodes_fields (.sub rd ra rb), State.checksRaRb_of_withReg rfl, fun ha hb => ?_⟩
  obtain ⟨ha1, -, hx⟩ := State.bounds_of_good ha
  obtain ⟨hb1, -, hy⟩ := State.bounds_of_good hb
  refine (State.sub_reduced ha hb rd).imp fun hg => ⟨fun hv => ?_, fun ⟨hv, hlt⟩ => ?_⟩
  · rwa [Format.fit_of_holds (rfmtAdd_width_pos _ _) (rfmtAdd_holds_sub ha1 hb1 hx hy hv)] at hg
  · rwa [fit_sub_of_lt ha1 hb1 hx hy hv hlt] at hg

/-- Settles O36: MUL writes the product as it is, and the result format holds it. -/
theorem mulIsExact : Obligations.MulIsExact := by
  intro s rd ra rb
  refine ⟨encodes_fields (.mul rd ra rb), State.checksRaRb_of_withReg rfl, fun ha hb => ?_⟩
  obtain ⟨ha1, -, hx⟩ := State.bounds_of_good ha
  obtain ⟨hb1, -, hy⟩ := State.bounds_of_good hb
  exact ⟨rfmtMul_holds ha1 hb1 hx hy, State.upToWmax_of_twoOperand (i := .mul rd ra rb) ha.1 hb.1 rfl⟩

/-- Settles O56: the second result format holds val(V[ra]), so the reduction of the difference keeps it. -/
theorem addThenSubGivesTheValueBack : Obligations.AddThenSubGivesTheValueBack := by
  intro s ra rb rt ru ha hb hne hw
  obtain ⟨ha1, -, hx⟩ := State.bounds_of_good ha
  obtain ⟨hb1, -, hy⟩ := State.bounds_of_good hb
  have hwt := (CompoundOp.add.width_le_resultFormat _ (s.reg rb).fmt).trans hw
  obtain ⟨t, ht, hsum, honly⟩ := (State.add_exact ha hb rt).2 hwt
  have hp : t.params = s.params := honly.port.params
  have hregb : t.reg rb = s.reg rb := honly.regs rb hne.symm
  have hgoodt : t.Good rt := ⟨hsum.readable,
    hsum.eq_make ▸ Reg.make_wf (rfmtAdd_width_pos _ _) (hp ▸ hwt) (rfmtAdd_holds_add ha1 hb1 hx hy)⟩
  have hsub := State.sub_reduced hgoodt (State.good_of_reg_eq hregb hp hb) ru
  rw [hsum.fmt, hsum.val, hregb, add_sub_cancel_right] at hsub
  obtain ⟨u, hu, hback, -⟩ := hsub.2 (hp ▸ hw)
  have hheld := rfmtAdd_holds_left (rfmtAdd_width_pos _ _) hb1 (rfmtAdd_holds_left ha1 hb1 hx)
  exact ⟨t, u, ht, hu, hback.readable, hback.val.trans (Format.fit_of_holds (rfmtAdd_width_pos _ _) hheld)⟩

/-! ### DIV, MOD (R93, R94) -/

/-- INFO of E_DIV0 for DIV and DIVI (60_exceptions.md R146). -/
theorem div0Info_div (x : Int) : div0Info false (decide (x = 0)) = if x = 0 then 1 else 0 := by
  split
  next h => rw [decide_eq_true h]; rfl
  next h => rw [decide_eq_false h]; rfl

/-- INFO of E_DIV0 for MOD and MODI (60_exceptions.md R146). -/
theorem div0Info_mod (x : Int) : div0Info true (decide (x = 0)) = if x = 0 then 3 else 2 := by
  split
  next h => rw [decide_eq_true h]; rfl
  next h => rw [decide_eq_false h]; rfl

/-- Settles O37: R13's quotient is the library's truncating quotient, and the result format holds it. -/
theorem divTruncatesTowardZero : Obligations.DivTruncatesTowardZero := by
  intro s rd ra rb
  refine ⟨encodes_fields (.div rd ra rb), State.checksRaRb_of_withReg rfl, fun ha hb => ?_⟩
  obtain ⟨ha1, -, hx⟩ := State.bounds_of_good ha
  obtain ⟨-, -, hy⟩ := State.bounds_of_good hb
  simp only [← div0Info_div, ← tdiv_eq]
  exact (State.upToWmax_of_dividing (i := .div rd ra rb) ha.1 hb.1 rfl).imp fun ⟨hzero, hdiv⟩ =>
    ⟨hzero, fun h0 => ⟨rfmtDiv_holds ha1 hx hy, hdiv h0⟩⟩

/-- Settles O38: the remainder R13 defines is smaller than the divisor, has the dividend's sign, and the result format
holds it. -/
theorem modHasTheSignOfTheDividend : Obligations.ModHasTheSignOfTheDividend := by
  intro s rd ra rb
  refine ⟨encodes_fields (.mod rd ra rb), State.checksRaRb_of_withReg rfl, fun ha hb => ?_⟩
  obtain ⟨ha1, -, hx⟩ := State.bounds_of_good ha
  simp only [← div0Info_mod, ← tdiv_eq]
  exact (State.upToWmax_of_dividing (i := .mod rd ra rb) ha.1 hb.1 rfl).imp fun ⟨hzero, hmod⟩ =>
    ⟨hzero, fun h0 => ⟨_, hmod h0, rfmtMod_holds ha1 hx _, rfl, tmod_natAbs_lt _ h0, tmod_eq_zero_or_sign_eq _ _⟩⟩

/-- Settles O57: DIV leaves R13's quotient and MOD its remainder, which R13 defines by this identity. -/
theorem divisionIdentityOfTheCommands : Obligations.DivisionIdentityOfTheCommands := by
  intro s ra rb rq rr ha hb h0 hwq hwr
  obtain ⟨t, ht, hq, -⟩ := ((State.upToWmax_of_dividing (i := .div rq ra rb) ha.1 hb.1 rfl).2 hwq).2 h0
  obtain ⟨u, hu, hr, -⟩ := ((State.upToWmax_of_dividing (i := .mod rr ra rb) ha.1 hb.1 rfl).2 hwr).2 h0
  refine ⟨t, u, ht, hu, ?_⟩
  rw [hq.val, hr.val, tmod]
  exact add_sub_cancel _ _

/-! ### NEG (R95) -/

theorem Variant.eq_unsigned {v : Variant} (h : v ≠ .signed) : v = .unsigned := by
  cases v with
  | unsigned => rfl
  | signed => exact absurd rfl h

/-- The negation, reduced into its format: exact for a Signed value or Zero, wrapped once for any other. -/
theorem fit_neg {a : Format} (ha : 1 ≤ a.width) {x : Int} (hx : a.holds x) : (rfmtNeg a).fit (-x) =
    if a.variant = .signed ∨ x = 0 then -x else 2 ^ (a.width + 1) - x := by
  split
  next hv => exact Format.fit_of_holds (Nat.le_add_left 1 a.width) (rfmtNeg_holds ha hx hv)
  next hn =>
    obtain ⟨hv, hne⟩ := not_or.mp hn
    replace hv := Variant.eq_unsigned hv
    obtain ⟨h0, hlt⟩ := (Format.holds_unsigned hv).mp hx
    have hpow := two_pow_le (Nat.le_succ a.width)
    exact Format.fit_unsigned_of_neg (f := rfmtNeg a) hv (by omega) (by simp only [rfmtNeg]; omega)

/-- Settles O39: NEG reduces the negation into V[RA]'s variant at one more bit. -/
theorem negIsExactOrWrapsUnsigned : Obligations.NegIsExactOrWrapsUnsigned := by
  intro s rd ra
  refine ⟨encodes_fields (.neg rd ra), State.checksRa_of_withReg rfl, fun ha => ?_⟩
  obtain ⟨ha1, -, hx⟩ := State.bounds_of_good ha
  have hexec : exec (.neg rd ra) s = _ := congrArg RuleEnd.finish (withReg_readable ha.1 _)
  exact (State.upToWmax_of_withFormat hexec State.gives_of_write).imp (fit_neg ha1 hx ▸ ·)

/-! ### Small scalars (R96 to R100) -/

section SmallScalars

variable {rd ra : RegIx} (ha : s.Good ra)
include ha

/-- A rule of one operand that reduces a number into the operand's format. -/
theorem State.givesReduced_of_oneOperand {result : Reg → Format × Int} {z : Int}
    (h : exec i s = (oneOperand s rd ra result).finish)
    (hz : result (s.reg ra) = ((s.reg ra).fmt, (s.reg ra).fmt.fit z)) : s.GivesReduced i rd (s.reg ra).fmt z :=
  ⟨_, State.gives_of_oneOperand h ha.1 hz, Format.fit_holds (State.bounds_of_good ha).1 z, Format.dvd_fit_sub _ z⟩

/-- A rule that divides by a zero scalar. -/
theorem State.raisesDiv0_of_dividingImm {imm : Word32} {modulo : Bool} {value : Int → Int → Int}
    (h : exec i s = (dividingImm s rd ra imm modulo value).finish) (h0 : imm = 0) :
    s.RaisesDiv0 i rd (s.reg ra).fmt (div0Info modulo (decide ((s.reg ra).val = 0))) := by
  rw [dividingImm, withReg_readable ha.1, if_pos (by rw [h0]; rfl)] at h
  exact State.raisesDiv0_of_raise h

/-- A rule that divides by a scalar other than zero. -/
theorem State.gives_of_dividingImm {imm : Word32} {modulo : Bool} {value : Int → Int → Int}
    (h : exec i s = (dividingImm s rd ra imm modulo value).finish) (h0 : imm ≠ 0) :
    s.Gives i rd (s.reg ra).fmt (value (s.reg ra).val imm.toNat) := by
  have hk : zext32 imm ≠ 0 := fun hn => h0 (BitVec.eq_of_toNat_eq (Int.natCast_eq_zero.mp hn))
  rw [dividingImm, withReg_readable ha.1, if_neg hk] at h
  exact State.gives_of_write h

end SmallScalars

/-- Settles O40: the three commands are the rule of one operand that reduces into its format. -/
theorem scalarArithmeticWrapsInTheFormat : Obligations.ScalarArithmeticWrapsInTheFormat := fun _ _ _ _ =>
  ⟨encodes_fields (.addi _ _ _), encodes_fields (.subi _ _ _), encodes_fields (.muli _ _ _),
    State.checksRa_of_withReg rfl, State.checksRa_of_withReg rfl, State.checksRa_of_withReg rfl, fun ha =>
      ⟨State.givesReduced_of_oneOperand ha rfl rfl, State.givesReduced_of_oneOperand ha rfl rfl,
        State.givesReduced_of_oneOperand ha rfl rfl⟩⟩

/-- Settles O41: the quotient by a scalar and its remainder lie between 0 and the dividend, so its format holds them. -/
theorem scalarDivisionKeepsTheFormat : Obligations.ScalarDivisionKeepsTheFormat := by
  intro s rd ra imm
  refine ⟨encodes_fields (.divi rd ra imm), encodes_fields (.modi rd ra imm), State.checksRa_of_withReg rfl,
    State.checksRa_of_withReg rfl, fun ha => ⟨fun h0 => ?_, fun h0 => ?_⟩⟩
  · rw [← div0Info_div, ← div0Info_mod]
    exact ⟨State.raisesDiv0_of_dividingImm ha rfl h0, State.raisesDiv0_of_dividingImm ha rfl h0⟩
  · obtain ⟨-, -, hx⟩ := State.bounds_of_good ha
    rw [← tdiv_eq, ← tmod_eq]
    exact ⟨⟨Format.holds_of_between hx (tdiv_between imm.toNat.cast_nonneg), State.gives_of_dividingImm ha rfl h0⟩,
      ⟨Format.holds_of_between hx (tmod_between _ _), State.gives_of_dividingImm ha rfl h0⟩⟩

end Sys2Proof.Machine
end

section
/-! PROOFS of the statements of 42_bitwise.md: AND, OR and XOR (O42), NOT (O43). -/

namespace Sys2Proof.Machine

variable {s : State}

/-! ### AND, OR, XOR (R105 to R108) -/

/-- Settles O42: each command writes what the operator computes from the two values; its bits are the operator's on the
operands' bits, and the result format holds it. -/
theorem bitwiseActsOnEveryBit : Obligations.BitwiseActsOnEveryBit := by
  intro s rd ra rb
  refine ⟨encodes_fields (.and rd ra rb), State.checksRaRb_of_withReg rfl, encodes_fields (.or rd ra rb),
    State.checksRaRb_of_withReg rfl, encodes_fields (.xor rd ra rb), State.checksRaRb_of_withReg rfl, fun ha hb => ?_⟩
  obtain ⟨ha1, -, hx⟩ := State.bounds_of_good ha
  obtain ⟨hb1, -, hy⟩ := State.bounds_of_good hb
  refine ⟨?and, ?or, ?xor⟩
  case and =>
    exact (State.upToWmax_of_twoOperand ha.1 hb.1 rfl).imp fun hg =>
      ⟨_, hg, rfmtBitwise_holds_and ha1 hb1 hx hy, bitOf_intAnd _ _⟩
  case or =>
    exact (State.upToWmax_of_twoOperand ha.1 hb.1 rfl).imp fun hg =>
      ⟨_, hg, rfmtBitwise_holds_or ha1 hb1 hx hy, bitOf_intOr _ _⟩
  case xor =>
    exact (State.upToWmax_of_twoOperand ha.1 hb.1 rfl).imp fun hg =>
      ⟨_, hg, rfmtBitwise_holds_xor ha1 hb1 hx hy, bitOf_intXor _ _⟩

/-! ### NOT (R109) -/

/-- The complement, reduced into its format: a Signed format holds it, an Unsigned one wraps it once, which complements
the w-bit pattern. -/
theorem Format.fit_complement {f : Format} (hf : 1 ≤ f.width) {x : Int} (hx : f.holds x) :
    f.fit (-x - 1) = if f.variant = .signed then -x - 1 else 2 ^ f.width - 1 - x := by
  split
  next hv =>
    refine Format.fit_of_holds hf ?_
    simp only [Format.holds, Format.lo, Format.hi, hv] at hx ⊢
    omega
  next hv =>
    replace hv := Variant.eq_unsigned hv
    obtain ⟨h0, hlt⟩ := (Format.holds_unsigned hv).mp hx
    rw [Format.fit_unsigned_of_neg hv (by omega) (by omega)]
    ring

/-- Complementing twice in one format gives the value back. -/
theorem Format.fit_complement_fit_complement {f : Format} (hf : 1 ≤ f.width) {x : Int} (hx : f.holds x) :
    f.fit (-f.fit (-x - 1) - 1) = x := by
  rw [Format.fit_complement hf (Format.fit_holds hf _), Format.fit_complement hf hx]
  split <;> ring

/-- NOT writes the complement, reduced into the format of V[ra]. -/
theorem State.not_gives {ra : RegIx} (hr : s.Readable ra) (rd : RegIx) :
    s.Gives (.not rd ra) rd (s.reg ra).fmt ((s.reg ra).fmt.fit (-(s.reg ra).val - 1)) :=
  State.gives_of_oneOperand rfl hr rfl

/-- Settles O43: the second NOT reads the format and value the first wrote, and complementing twice gives the value
back. -/
theorem notComplementsTheFormat : Obligations.NotComplementsTheFormat := by
  intro s rd ra
  refine ⟨encodes_fields (.not rd ra), State.checksRa_of_withReg rfl, fun ha => ?_⟩
  obtain ⟨hw, -, hx⟩ := State.bounds_of_good ha
  have hgives := State.not_gives ha.1 rd
  refine ⟨Format.fit_complement hw hx ▸ hgives, fun ru => ?_⟩
  obtain ⟨t, ht, hcompl, -⟩ := hgives
  obtain ⟨u, hu, hback, -⟩ := State.not_gives hcompl.readable ru
  rw [hcompl.fmt, hcompl.val, Format.fit_complement_fit_complement hw hx] at hback
  exact ⟨t, u, ht, hu, hback⟩

end Sys2Proof.Machine
end

section
/-! PROOFS of the statements of 43_shift.md: SHL (O44), SHR (O45). -/

namespace Sys2Proof.Machine

variable {s : State} {i : Instr} {rd ra : RegIx} {o : Operand2} {n : Int}

/-! ### The amount (R110) -/

/-- A command that reads its second operand in this state reads n, and takes no fault there. -/
def State.ReadsAs (s : State) (o : Operand2) (n : Int) : Prop := ∀ k, withOperand2 s o k = k n

theorem State.readsAs_reg {rb : RegIx} (h : s.Readable rb) : s.ReadsAs (.reg rb) (s.reg rb).val := withOperand2_reg h

theorem State.readsAs_imm (s : State) (imm : Word32) : s.ReadsAs (.imm imm) (imm.toNat : Int) := withOperand2_imm imm

/-- A rule that reads RA, then its second operand from RB. -/
theorem State.checksRaRb_of_withOperand2 {rb : RegIx} {k : Reg → Int → RuleEnd}
    (h : exec i s = (withReg s .ra ra fun a => withOperand2 s (.reg rb) (k a)).finish) : s.ChecksRaRb i ra rb :=
  State.checksRaRb_of_withReg (k := fun a b => k a b.val) h

/-! ### SHL (R111) -/

section ShiftLeft

variable (hexec : exec i s = (shiftingLeft s rd ra o).finish) (ha : s.Readable ra) (ho : s.ReadsAs o n)
include hexec ha ho

/-- SHL by at most 0 copies; by any other amount n it widens by n, up to WMAX, and multiplies by 2^n. -/
theorem State.shiftsLeft : (n ≤ 0 → s.Gives i rd (s.reg ra).fmt (s.reg ra).val) ∧
    (0 < n → s.UpToWmax i ((s.reg ra).width + n.toNat)
      (s.Gives i rd { variant := (s.reg ra).variant, width := (s.reg ra).width + n.toNat }
        ((s.reg ra).val * 2 ^ n.toNat))) := by
  rw [shiftingLeft, withReg_readable ha, ho] at hexec
  refine ⟨fun hn => ?_, fun hn => ?_⟩
  · rw [if_pos hn] at hexec
    exact State.gives_of_write hexec
  · rw [if_neg hn.not_ge] at hexec
    exact State.upToWmax_of_withFormat hexec State.gives_of_write

/-- One form for every amount whose result fits: an amount of at most 0 is a shift by 0. -/
theorem State.gives_of_shiftingLeft (hw : (s.reg ra).width + n.toNat ≤ s.params.wmax) :
    s.Gives i rd { variant := (s.reg ra).variant, width := (s.reg ra).width + n.toNat }
      ((s.reg ra).val * 2 ^ n.toNat) := by
  obtain ⟨hcopy, hwiden⟩ := State.shiftsLeft hexec ha ho
  rcases le_or_gt n 0 with hn | hn
  · rw [Int.toNat_of_nonpos hn, pow_zero, mul_one]
    exact hcopy hn
  · exact (hwiden hn).2 hw

end ShiftLeft

/-! ### SHR (R112) -/

/-- One form for every amount: an amount of at most 0 is a shift by 0. -/
theorem State.gives_of_shiftingRight (hexec : exec i s = (shiftingRight s rd ra o).finish) (ha : s.Readable ra)
    (ho : s.ReadsAs o n) : s.Gives i rd (s.reg ra).fmt ((s.reg ra).val / 2 ^ n.toNat) := by
  rw [shiftingRight, withReg_readable ha, ho] at hexec
  split at hexec
  next hn =>
    rw [Int.toNat_of_nonpos hn, pow_zero, Int.ediv_one]
    exact State.gives_of_write hexec
  next =>
    rw [← shiftRight_eq_floor]
    exact State.gives_of_write hexec

/-- SHR by at most 0 copies; by any other amount it floors in the format of V[ra], which holds the floor. -/
theorem State.shiftsRight (hexec : exec i s = (shiftingRight s rd ra o).finish) (ha : s.Good ra)
    (ho : s.ReadsAs o n) : (n ≤ 0 → s.Gives i rd (s.reg ra).fmt (s.reg ra).val) ∧
    (0 < n → (s.reg ra).fmt.holds ((s.reg ra).val / 2 ^ n.toNat) ∧
      s.Gives i rd (s.reg ra).fmt ((s.reg ra).val / 2 ^ n.toNat)) := by
  have hgives := State.gives_of_shiftingRight hexec ha.1 ho
  have hholds := holds_shr (State.bounds_of_good ha).2.2 n.toNat
  rw [shiftRight_eq_floor] at hholds
  refine ⟨fun hn => ?_, fun _ => ⟨hholds, hgives⟩⟩
  rwa [Int.toNat_of_nonpos hn, pow_zero, Int.ediv_one] at hgives

/-! ### SHR undoes SHL (R111) -/

/-- SHR by the amount of the SHL before it: the floor of the exact product val * 2^n by 2^n is val. -/
theorem State.shiftRight_undoes_shiftLeft {j : Instr} {ru : RegIx}
    (hshl : exec i s = (shiftingLeft s rd ra o).finish) (hshr : ∀ t, exec j t = (shiftingRight t ru rd o).finish)
    (ha : s.Readable ra) (ho : s.ReadsAs o n) (hkeeps : ∀ t, s.OnlyReg t rd → t.ReadsAs o n)
    (hw : (s.reg ra).width + n.toNat ≤ s.params.wmax) :
    ∃ t u, exec i s = .next t ∧ exec j t = .next u ∧ u.Readable ru ∧ (u.reg ru).val = (s.reg ra).val := by
  obtain ⟨t, ht, hprod, honly⟩ := State.gives_of_shiftingLeft hshl ha ho hw
  obtain ⟨u, hu, hback, -⟩ := State.gives_of_shiftingRight (hshr t) hprod.readable (hkeeps t honly)
  rw [hprod.val, Int.mul_ediv_cancel _ (two_pow_pos n.toNat).ne'] at hback
  exact ⟨t, u, ht, hu, hback.readable, hback.val⟩

/-! ### The statements -/

/-- Settles O44: the register and the immediate form are one rule, whose amount the SHL leaves as it was. -/
theorem shlWidensAndLosesNoBit : Obligations.ShlWidensAndLosesNoBit := by
  intro s rd ra rb imm
  refine ⟨encodes_fields (.shl rd ra rb), encodes_fields (.shlImm rd ra imm),
    State.checksRaRb_of_withOperand2 rfl, State.checksRa_of_withReg rfl, fun ha =>
      ⟨fun hb => ?_, ?_, fun hb hne ru => ?_, fun ru => ?_⟩⟩
  · exact State.shiftsLeft rfl ha.1 (State.readsAs_reg hb)
  · exact State.shiftsLeft rfl ha.1 (s.readsAs_imm imm)
  · refine State.shiftRight_undoes_shiftLeft rfl (fun _ => rfl) ha.1 (State.readsAs_reg hb) fun t ht => ?_
    have hreg : t.reg rb = s.reg rb := ht.regs rb hne.symm
    rw [← hreg]
    exact State.readsAs_reg (by rwa [State.Readable, hreg])
  · exact State.shiftRight_undoes_shiftLeft rfl (fun _ => rfl) ha.1 (s.readsAs_imm imm) fun t _ => t.readsAs_imm imm

/-- Settles O45: the register and the immediate form are one rule. -/
theorem shrFloorsInTheFormat : Obligations.ShrFloorsInTheFormat := fun s rd ra rb imm =>
  ⟨encodes_fields (.shr rd ra rb), encodes_fields (.shrImm rd ra imm),
    State.checksRaRb_of_withOperand2 rfl, State.checksRa_of_withReg rfl, fun ha =>
      ⟨fun hb => State.shiftsRight rfl ha (State.readsAs_reg hb), State.shiftsRight rfl ha (s.readsAs_imm imm)⟩⟩

end Sys2Proof.Machine
end

section
/-! PROOFS of the statements of 44_compare.md: CMP and CMPM (O46), the flags EQ and LT (O47). -/

namespace Sys2Proof.Machine

variable {s t : State} {i : Instr}

/-! ### Words with no condition (R67) -/

/-- CC = 6 and 7 are no condition, and a row that does not use CC has it 0. -/
theorem decode_eq_none_of_cc {c : Command} (h : 6 ≤ (CmdFields.ofBits c).cc.toNat) : decode c = none := by
  cases hd : decode c with
  | none => rfl
  | some i =>
    obtain ⟨-, -, -, hcc⟩ := (CmdFields.wellFormed_iff _).mp (wellFormed_fields i)
    rw [fields_of_decode hd] at hcc
    omega

/-! ### The relations (R116) -/

/-- The relation between integers that a condition names (30_encoding.md R67). -/
def Cond.Holds (c : Cond) (x y : Int) : Prop :=
  match c with
  | .eq => x = y
  | .ne => x ≠ y
  | .lt => x < y
  | .le => x ≤ y
  | .gt => x > y
  | .ge => x ≥ y

/-- The comparator computes each relation from x = y and x < y. -/
theorem Cond.rel_iff (c : Cond) (x y : Int) : c.rel x y = true ↔ c.Holds x y := by
  cases c with
  | eq | ne | lt | ge => simp [Cond.rel, Cond.Holds]
  | le => simp [Cond.rel, Cond.Holds, le_iff_lt_or_eq]
  | gt =>
    simp only [Cond.rel, Cond.Holds, Bool.not_eq_true', Bool.or_eq_false_iff, decide_eq_false_iff_not]
    omega

/-! ### CMP and CMPM (R115) -/

theorem State.Raises.run_eq_fault {c : Cause} {info : Word32} (hr : s.Raises i c info) (ht : exec i s = .next t) :
    t.run = .fault := by
  obtain ⟨u, hu, hfault, -⟩ := hr
  cases ht.symm.trans hu
  exact hfault.run

section Comparing

variable {rd ra rb : RegIx} {c : Cond} {q : Reg → Int}

theorem comparing_eq (ha : s.Readable ra) (hb : s.Readable rb) : comparing s rd ra rb c q =
    .done ((s.setFlags (q (s.reg ra)) (q (s.reg rb))).writeReg rd Format.u1
      (if c.rel (q (s.reg ra)) (q (s.reg rb)) then 1 else 0)) :=
  (withReg_readable ha _).trans (withReg_readable hb _)

variable (h : exec i s = (comparing s rd ra rb c q).finish)
include h

theorem State.checksRaRb_of_comparing : s.ChecksRaRb i ra rb := State.checksRaRb_of_withReg h

theorem State.compares_of_comparing (ha : s.Readable ra) (hb : s.Readable rb) :
    s.Compares i rd (q (s.reg ra)) (q (s.reg rb)) (c.Holds (q (s.reg ra)) (q (s.reg rb))) := by
  rw [comparing_eq ha hb] at h
  refine ⟨_, h, fun hp => ?holds, fun hn => ?fails, by simp, by simp, fun j hj => State.reg_writeReg_ne _ hj _ _,
    ⟨rfl, fun _ => rfl⟩, ⟨rfl, rfl, rfl, rfl, rfl⟩, ⟨rfl, rfl, rfl, rfl, rfl, rfl, rfl⟩, rfl⟩
  case holds =>
    rw [State.reg_countCommand, State.reg_writeReg_self, if_pos ((c.rel_iff _ _).mpr hp)]
    exact Reg.make_is Format.u1 1
  case fails =>
    rw [State.reg_countCommand, State.reg_writeReg_self, if_neg (mt (c.rel_iff _ _).mp hn)]
    exact Reg.make_is Format.u1 0

/-- A comparison that does not fault has found both operands readable. -/
theorem State.readable_of_comparing (ht : exec i s = .next t) (hrun : t.run = .ready) :
    s.Readable ra ∧ s.Readable rb := by
  obtain ⟨hra, hrb⟩ := State.checksRaRb_of_comparing h
  have no_fault {c : Cause} {info : Word32} (hr : s.Raises i c info) : False :=
    nomatch hrun.symm.trans (hr.run_eq_fault ht)
  have ha : s.Readable ra := fun hu => no_fault (hra hu)
  exact ⟨ha, fun hu => no_fault (hrb ha hu)⟩

end Comparing

/-- Settles O46: all twelve commands are one rule, whose result is that of the condition's relation. -/
theorem compareWritesTruthAndFlags : Obligations.CompareWritesTruthAndFlags := by
  intro s rd ra rb
  have checks {i : Instr} {c : Cond} {q : Reg → Int} (hi : exec i s = (comparing s rd ra rb c q).finish) :=
    State.checksRaRb_of_comparing hi
  refine ⟨encodes_fields (.cmpEq rd ra rb), encodes_fields (.cmpNe rd ra rb), encodes_fields (.cmpLt rd ra rb),
    encodes_fields (.cmpLe rd ra rb), encodes_fields (.cmpGt rd ra rb), encodes_fields (.cmpGe rd ra rb),
    encodes_fields (.cmpmEq rd ra rb), encodes_fields (.cmpmNe rd ra rb), encodes_fields (.cmpmLt rd ra rb),
    encodes_fields (.cmpmLe rd ra rb), encodes_fields (.cmpmGt rd ra rb), encodes_fields (.cmpmGe rd ra rb),
    fun f _ hcc => s.wordIsIllegal_of_decode (decode_eq_none_of_cc (by rwa [CmdFields.ofBits_toBits])),
    checks rfl, checks rfl, checks rfl, checks rfl, checks rfl, checks rfl, checks rfl, checks rfl, checks rfl,
    checks rfl, checks rfl, checks rfl, fun ha hb => ?_⟩
  have cmp (c : Cond) {i : Instr} (hi : exec i s = (comparing s rd ra rb c Reg.val).finish) :=
    State.compares_of_comparing hi ha hb
  have cmpm (c : Cond) {i : Instr} (hi : exec i s = (comparing s rd ra rb c Reg.absVal).finish) :=
    State.compares_of_comparing hi ha hb
  simp only [Int.abs_eq_natAbs]
  exact ⟨cmp .eq rfl, cmp .ne rfl, cmp .lt rfl, cmp .le rfl, cmp .gt rfl, cmp .ge rfl,
    cmpm .eq rfl, cmpm .ne rfl, cmpm .lt rfl, cmpm .le rfl, cmpm .gt rfl, cmpm .ge rfl⟩

/-! ### What a comparison leaves in EQ and LT (R117) -/

/-- A command with two quantities to compare is a comparison of them. -/
theorem State.exec_of_compared {x y : Int} (h : s.compared i = some (x, y)) :
    ∃ rd ra rb c q, exec i s = (comparing s rd ra rb c q).finish ∧ q (s.reg ra) = x ∧ q (s.reg rb) = y := by
  cases i with
  | cmpEq | cmpNe | cmpLt | cmpLe | cmpGt | cmpGe | cmpmEq | cmpmNe | cmpmLt | cmpmLe | cmpmGt | cmpmGe =>
    cases h
    exact ⟨_, _, _, _, _, rfl, rfl, rfl⟩
  | _ => cases h

theorem State.flags_of_compared {x y : Int} (h : s.compared i = some (x, y)) (ht : exec i s = .next t)
    (hrun : t.run = .ready) : (t.eq = true ↔ x = y) ∧ (t.lt = true ↔ x < y) := by
  obtain ⟨rd, ra, rb, c, q, hexec, rfl, rfl⟩ := State.exec_of_compared h
  obtain ⟨ha, hb⟩ := State.readable_of_comparing hexec ht hrun
  obtain ⟨u, hu, -, -, heq, hlt, -⟩ := State.compares_of_comparing hexec ha hb
  cases ht.symm.trans hu
  exact ⟨heq, hlt⟩

/-! ### The steps that change EQ and LT (R117) -/

theorem State.compared_of_writesFlags (h : writesFlags i = true) : ∃ q, s.compared i = some q := by
  cases i with
  | cmpEq | cmpNe | cmpLt | cmpLe | cmpGt | cmpGe | cmpmEq | cmpmNe | cmpmLt | cmpmLe | cmpmGt | cmpmGe =>
    exact ⟨_, rfl⟩
  | _ => cases h

/-- The issue of a word keeps EQ and LT, unless the word is a CMP or CMPM. -/
theorem issue_sameFlags (h : issue s = .next t) :
    s.SameFlags t ∨ ∃ i, decode s.command = some i ∧ writesFlags i = true := by
  cases hrun : s.run with
  | fault =>
    cases (issue_fault hrun).symm.trans h
    exact .inl ⟨rfl, rfl⟩
  | ready =>
    cases hd : decode s.command with
    | none =>
      cases (issue_illegal hrun hd).symm.trans h
      exact .inl ⟨rfl, rfl⟩
    | some i =>
      cases hw : writesFlags i with
      | true => exact .inr ⟨i, rfl, hw⟩
      | false =>
        obtain ⟨r, heff, rfl⟩ := exec_cases ((issue_exec hrun hd).symm.trans h)
        exact .inl (heff.sameFlags hw)

/-- An input keeps EQ and LT, unless it is one of the three that may change them. -/
theorem serve_sameFlags {e : HostEvent} (h : serve s e = .next t) : s.SameFlags t ∨ (∃ level, e = .rst level) ∨
    (∃ data, e = .write (s.busAddr 0x028) data ∧ data.getLsbD 0 = true) ∨
    ∃ data i, e = .write (s.busAddr 0x024) data ∧ decode (data ++ s.cmdLo) = some i ∧ writesFlags i = true := by
  obtain ⟨u, hu, heff⟩ := serve_effect s e
  cases h.symm.trans hu
  cases heff with
  | hardwareReset level => exact .inr (.inl ⟨level, rfl⟩)
  | read | nothing | storeWord | storeCmdLo => exact .inl ⟨rfl, rfl⟩
  | softReset addr data _ ho hd =>
    exact .inr (.inr (.inl ⟨data, by rw [State.eq_busAddr_of_offsetOf (off := 0x028) ho], hd⟩))
  | issue addr data _ hr ho =>
    rw [serve_write hr, ho] at h
    refine (issue_sameFlags h).imp_right fun ⟨i, hd, hw⟩ => .inr (.inr ⟨data, i, ?_, hd, hw⟩)
    rw [State.eq_busAddr_of_offsetOf (off := 0x024) ho]

/-! ### No command reads EQ or LT

Every rule ends in the same state but for EQ and LT when it starts in one: one lemma per shared check, then one case per
command. -/

section Flags

variable {eq lt : Bool}

/-- The same state with other flags. -/
def State.withFlags (s : State) (eq lt : Bool) : State := { s with eq := eq, lt := lt }

/-- The states after the two ends are the same but for EQ and LT. -/
def RuleEnd.SameButFlags (r r' : RuleEnd) : Prop := r'.after.withFlags r.after.eq r.after.lt = r.after

theorem State.readWords_withFlags (k n : Nat) : (s.withFlags eq lt).readWords k n = s.readWords k n := by
  induction n with
  | zero => rfl
  | succ n ih => simp only [State.readWords, ih]; rfl

theorem State.memRead_withFlags (k n : Nat) : (s.withFlags eq lt).memRead k n = s.memRead k n := by
  rw [State.memRead, State.readWords_withFlags, State.memRead]

theorem State.writeWords_withFlags (k p n : Nat) :
    (s.withFlags eq lt).writeWords k p n = (s.writeWords k p n).withFlags eq lt := by
  induction n with
  | zero => rfl
  | succ n ih => simp only [State.writeWords, ih]; rfl

theorem State.memWrite_withFlags (k n p : Nat) :
    (s.withFlags eq lt).memWrite k n p = (s.memWrite k n p).withFlags eq lt :=
  State.writeWords_withFlags k p (n / 32)

theorem ite_sameButFlags {c : Prop} [Decidable c] {r₁ r₂ r₁' r₂' : RuleEnd} (h₁ : r₁.SameButFlags r₁')
    (h₂ : r₂.SameButFlags r₂') : RuleEnd.SameButFlags (if c then r₁ else r₂) (if c then r₁' else r₂') := by
  split
  · exact h₁
  · exact h₂

theorem withReg_sameButFlags {field : OperandField} {j : RegIx} {k k' : Reg → RuleEnd}
    (hk : ∀ a, (k a).SameButFlags (k' a)) :
    (withReg s field j k).SameButFlags (withReg (s.withFlags eq lt) field j k') :=
  ite_sameButFlags rfl (hk _)

theorem withFormat_sameButFlags {f : Format} {k k' : Format → RuleEnd} (hk : ∀ f, (k f).SameButFlags (k' f)) :
    (withFormat s f k).SameButFlags (withFormat (s.withFlags eq lt) f k') :=
  ite_sameButFlags rfl (hk f)

theorem withImmFormat_sameButFlags {v : Variant} {imm : Word32} {k k' : Format → RuleEnd}
    (hk : ∀ f, (k f).SameButFlags (k' f)) :
    (withImmFormat s v imm k).SameButFlags (withImmFormat (s.withFlags eq lt) v imm k') :=
  ite_sameButFlags rfl (withFormat_sameButFlags hk)

theorem withOperand2_sameButFlags {o : Operand2} {k k' : Int → RuleEnd} (hk : ∀ n, (k n).SameButFlags (k' n)) :
    (withOperand2 s o k).SameButFlags (withOperand2 (s.withFlags eq lt) o k') := by
  cases o with
  | reg rb => exact withReg_sameButFlags fun b => hk b.val
  | imm imm => exact hk _

theorem importing_sameButFlags {rd : RegIx} {v : Variant} {imm : Word32} :
    (importing s rd v imm).SameButFlags (importing (s.withFlags eq lt) rd v imm) :=
  withImmFormat_sameButFlags fun f => by rw [State.memRead_withFlags]; rfl

/-- Every command ends in the same state but for EQ and LT when it starts with other flags. -/
theorem exec_sameButFlags (i : Instr) (s : State) (eq lt : Bool) : ∃ r r' : RuleEnd,
    exec i s = r.finish ∧ exec i (s.withFlags eq lt) = r'.finish ∧ r.SameButFlags r' := by
  cases i with
  | nop => exact ⟨.done s, .done (s.withFlags eq lt), rfl, rfl, rfl⟩
  | fmtU | fmtS => exact ⟨_, _, rfl, rfl, withImmFormat_sameButFlags fun _ => rfl⟩
  | importU | importS => exact ⟨_, _, rfl, rfl, importing_sameButFlags⟩
  | exportV =>
    refine ⟨_, _, rfl, rfl, withReg_sameButFlags fun a => ?_⟩
    simp only [State.memWrite_withFlags]
    rfl
  | ldiU | ldiS | mov | castU | addi | subi | muli | not | rev | range | sigd | clz =>
    exact ⟨_, _, rfl, rfl, withReg_sameButFlags fun _ => rfl⟩
  | castS =>
    exact ⟨_, _, rfl, rfl, withReg_sameButFlags fun _ => ite_sameButFlags rfl (withFormat_sameButFlags fun _ => rfl)⟩
  | neg => exact ⟨_, _, rfl, rfl, withReg_sameButFlags fun _ => withFormat_sameButFlags fun _ => rfl⟩
  | divi | modi => exact ⟨_, _, rfl, rfl, withReg_sameButFlags fun _ => ite_sameButFlags rfl rfl⟩
  | add | sub | mul | and | or | xor =>
    exact ⟨_, _, rfl, rfl, withReg_sameButFlags fun _ => withReg_sameButFlags fun _ =>
      withFormat_sameButFlags fun _ => rfl⟩
  | div | mod =>
    exact ⟨_, _, rfl, rfl, withReg_sameButFlags fun _ => withReg_sameButFlags fun _ =>
      withFormat_sameButFlags fun _ => ite_sameButFlags rfl rfl⟩
  | cvt | cmpEq | cmpNe | cmpLt | cmpLe | cmpGt | cmpGe | cmpmEq | cmpmNe | cmpmLt | cmpmLe | cmpmGt | cmpmGe =>
    exact ⟨_, _, rfl, rfl, withReg_sameButFlags fun _ => withReg_sameButFlags fun _ => rfl⟩
  | shl | shlImm =>
    exact ⟨_, _, rfl, rfl, withReg_sameButFlags fun _ => withOperand2_sameButFlags fun _ =>
      ite_sameButFlags rfl (withFormat_sameButFlags fun _ => rfl)⟩
  | shr | shrImm =>
    exact ⟨_, _, rfl, rfl, withReg_sameButFlags fun _ => withOperand2_sameButFlags fun _ => ite_sameButFlags rfl rfl⟩
  | tst | tstImm | bset | bsetImm | bclr | bclrImm =>
    exact ⟨_, _, rfl, rfl, withReg_sameButFlags fun _ => withOperand2_sameButFlags fun _ => rfl⟩

end Flags

/-- Settles O47: a comparison that completes leaves the flags of its quantities, every other step but a reset keeps
them, and no rule branches on them. -/
theorem flagsAreWrittenByCompareOnlyAndReadByNone : Obligations.FlagsAreWrittenByCompareOnlyAndReadByNone := by
  refine ⟨fun i s t x y hq _ ht hrun => ?written, fun s t h => ?kept, fun i s t eq lt h => ?unread⟩
  case written =>
    obtain ⟨heq, hlt⟩ := State.flags_of_compared hq ht hrun
    refine ⟨heq, hlt, fun ⟨he, hl⟩ => ?_⟩
    have := heq.mp he
    have := hlt.mp hl
    omega
  case kept =>
    cases he : s.events with
    | nil =>
      cases (step_idle he).symm.trans h
      exact .inl ⟨rfl, rfl⟩
    | cons e rest =>
      have hserve : serve { s with events := rest } e = .next t := by simpa only [step, he] using h
      rcases serve_sameFlags hserve with hsame | ⟨level, rfl⟩ | ⟨data, rfl, hd⟩ | ⟨data, i, rfl, hd, hw⟩
      · exact .inl hsame
      · exact .inr (.inl ⟨level, rest, rfl⟩)
      · exact .inr (.inr (.inl ⟨data, rest, rfl, hd⟩))
      · exact .inr (.inr (.inr ⟨data, rest, i, rfl, hd, State.compared_of_writesFlags hw⟩))
  case unread =>
    obtain ⟨r, r', hr, hr', hsame⟩ := exec_sameButFlags i s eq lt
    rw [hr, RuleEnd.finish_eq] at h
    cases h
    exact ⟨r'.after, hr'.trans r'.finish_eq, hsame⟩

end Sys2Proof.Machine
end

section
/-! PROOFS of the statements of 45_bit_access.md: TST (O48), BSET and BCLR (O49), REV (O50), RANGE (O51). -/

namespace Sys2Proof.Machine

variable {s : State} {i : Instr} {rd ra : RegIx} {o : Operand2} {n : Int}

/-! ### TST (R120) -/

/-- Bit k as a number. -/
theorem ite_bitOf_eq_floor (z : Int) (k : Nat) : (if bitOf z k then 1 else 0) = z / 2 ^ k % 2 := by
  simp only [bitOf, decide_eq_true_eq, shiftRight_eq_floor]
  split <;> omega

/-- TST writes, as U1, the bit an index inside the width names, and the sign outside it. -/
theorem State.gives_of_testing (hexec : exec i s = (testing s rd ra o).finish) (ha : s.Readable ra)
    (ho : s.ReadsAs o n) : s.Gives i rd Format.u1
      (if 0 ≤ n ∧ n < (s.reg ra).width then (s.reg ra).val / 2 ^ n.toNat % 2
        else if (s.reg ra).val < 0 then 1 else 0) := by
  rw [testing, withReg_readable ha, ho] at hexec
  have hgives := State.gives_of_write hexec
  rw [← ite_bitOf_eq_floor]
  split
  next hin => rwa [if_pos hin] at hgives
  next hout => simpa only [if_neg hout, decide_eq_true_eq] using hgives

/-! ### BSET and BCLR (R121, R122) -/

/-- A value in range is the value of its own pattern (R12). -/
theorem Format.unpat_pat_of_holds {f : Format} (hf : 1 ≤ f.width) {x : Int} (hx : f.holds x) :
    f.unpat (pat x f.width) = x := by
  rw [Format.unpat_pat hf, Format.fit_of_holds hf hx]

/-- The change makes the bit it is told to change b, and leaves every other bit. -/
def MakesBit (change : Nat → Nat → Nat) (b : Bool) : Prop :=
  ∀ p k j, (change p k).testBit j = if k = j then b else p.testBit j

theorem makesBit_setBit : MakesBit setBit true := fun p k j => by
  rw [testBit_setBit]
  split <;> simp [*]

theorem makesBit_clearBit : MakesBit clearBit false := fun p k j => by
  rw [testBit_clearBit]
  split <;> simp [*]

/-- Changing a bit below the width leaves a pattern of that width. -/
theorem MakesBit.lt {change : Nat → Nat → Nat} {b : Bool} (hc : MakesBit change b) {p k w : Nat} (hp : p < 2 ^ w)
    (hk : k < w) : change p k < 2 ^ w :=
  Nat.lt_pow_two_of_testBit _ fun j hj => by
    rw [hc, if_neg (by omega), Nat.testBit_lt_two_pow (hp.trans_le (Nat.pow_le_pow_right (by norm_num) hj))]

section ChangingBit

variable {change : Nat → Nat → Nat}

theorem changingBit_eq (ha : s.Readable ra) (ho : s.ReadsAs o n) : changingBit s rd ra o change =
    .done (s.writeReg rd (s.reg ra).fmt ((s.reg ra).fmt.unpat
      (if (s.reg ra).hasBit n then change (pat (s.reg ra).val (s.reg ra).fmt.width) n.toNat
        else pat (s.reg ra).val (s.reg ra).fmt.width))) :=
  (withReg_readable ha _).trans (ho _)

variable (hexec : exec i s = (changingBit s rd ra o change).finish) (ha : s.Good ra)
  (ho : s.ReadsAs o n)
include hexec ha ho

/-- An index outside the width leaves the pattern, so the value. -/
theorem State.changingBit_copies (hout : ¬(s.reg ra).hasBit n) :
    s.Gives i rd (s.reg ra).fmt (s.reg ra).val := by
  obtain ⟨hw, -, hx⟩ := State.bounds_of_good ha
  rw [changingBit_eq ha.1 ho, if_neg hout, Format.unpat_pat_of_holds hw hx] at hexec
  exact State.gives_of_write hexec

/-- Below the width only the bit the index names changes, and outside it none. -/
theorem State.changingBit_givesBits {b : Bool} (hc : MakesBit change b) :
    s.GivesBits i rd (s.reg ra).fmt fun j => if n = (j : Int) then b else bitOf (s.reg ra).val j := by
  obtain ⟨hw, -, hx⟩ := State.bounds_of_good ha
  by_cases hin : (s.reg ra).hasBit n
  case pos =>
    obtain ⟨k, rfl⟩ := Int.eq_ofNat_of_zero_le hin.1
    have hk : k < (s.reg ra).fmt.width := Int.ofNat_lt.mp hin.2
    rw [changingBit_eq ha.1 ho, if_pos hin] at hexec
    refine State.givesBits_of_write hw (hc.lt (pat_lt _ _) hk) (fun j hj => ?_) hexec
    simp only [hc _ k j, Nat.cast_inj, testBit_pat, hj, decide_true, Bool.true_and]
  case neg =>
    refine ⟨_, State.changingBit_copies hexec ha ho hin, hx, fun j hj => (if_neg ?_).symm⟩
    rintro rfl
    exact hin ⟨Int.natCast_nonneg j, Int.ofNat_lt.mpr hj⟩

end ChangingBit

/-- Settles O48: the register and the immediate form are one rule. -/
theorem tstReadsOneBit : Obligations.TstReadsOneBit := fun s rd ra rb imm =>
  ⟨encodes_fields (.tst rd ra rb), encodes_fields (.tstImm rd ra imm), State.checksRaRb_of_withOperand2 rfl,
    State.checksRa_of_withReg rfl, fun ha =>
      ⟨fun hb => State.gives_of_testing rfl ha.1 (State.readsAs_reg hb),
        State.gives_of_testing rfl ha.1 (s.readsAs_imm imm),
        fun hb => ⟨State.changingBit_copies rfl ha (State.readsAs_reg hb),
          State.changingBit_copies rfl ha (State.readsAs_reg hb)⟩,
        State.changingBit_copies rfl ha (s.readsAs_imm imm), State.changingBit_copies rfl ha (s.readsAs_imm imm)⟩⟩

/-- Settles O49: the four commands are one rule, which makes the bit 1 in BSET and 0 in BCLR. -/
theorem bsetAndBclrChangeOneBit : Obligations.BsetAndBclrChangeOneBit := fun s rd ra rb imm =>
  ⟨encodes_fields (.bset rd ra rb), encodes_fields (.bsetImm rd ra imm), State.checksRaRb_of_withOperand2 rfl,
    State.checksRa_of_withReg rfl, encodes_fields (.bclr rd ra rb), encodes_fields (.bclrImm rd ra imm),
    State.checksRaRb_of_withOperand2 rfl, State.checksRa_of_withReg rfl, fun ha =>
      ⟨fun hb => ⟨State.changingBit_givesBits rfl ha (State.readsAs_reg hb) makesBit_setBit,
          State.changingBit_givesBits rfl ha (State.readsAs_reg hb) makesBit_clearBit⟩,
        State.changingBit_givesBits rfl ha (s.readsAs_imm imm) makesBit_setBit,
        State.changingBit_givesBits rfl ha (s.readsAs_imm imm) makesBit_clearBit⟩⟩

/-! ### REV (R123) -/

/-- Reversing the bits of a w-bit pattern twice gives the pattern back. -/
theorem reversePat_reversePat {p w : Nat} (hp : p < 2 ^ w) : reversePat (reversePat p w) w = p :=
  Nat.eq_of_testBit_eq fun j => by
    rw [testBit_reversePat, testBit_reversePat]
    by_cases hj : j < w
    · simp [hj, show w - 1 - j < w by omega, show w - 1 - (w - 1 - j) = j by omega]
    · simp [hj, Nat.testBit_lt_two_pow (hp.trans_le (Nat.pow_le_pow_right (by norm_num) (not_lt.mp hj)))]

/-- The value in a format of the reversed pattern of a value, as REV computes it. -/
def Format.rev (f : Format) (x : Int) : Int := f.unpat (reversePat (pat x f.width) f.width)

theorem Format.rev_rev {f : Format} (hf : 1 ≤ f.width) {x : Int} (hx : f.holds x) : f.rev (f.rev x) = x := by
  rw [Format.rev, Format.rev, Format.pat_unpat (reversePat_lt _ _), reversePat_reversePat (pat_lt _ _),
    Format.unpat_pat_of_holds hf hx]

theorem State.rev_gives (ha : s.Readable ra) (rd : RegIx) :
    s.Gives (.rev rd ra) rd (s.reg ra).fmt ((s.reg ra).fmt.rev (s.reg ra).val) :=
  State.gives_of_oneOperand rfl ha rfl

/-- Settles O50: the second REV reads the format and value the first wrote, and reversing twice gives the pattern
back. -/
theorem revMirrorsThePattern : Obligations.RevMirrorsThePattern := by
  intro s rd ra
  refine ⟨encodes_fields (.rev rd ra), State.checksRa_of_withReg rfl, fun ha => ?_⟩
  obtain ⟨hw, -, hx⟩ := State.bounds_of_good ha
  have hgives := State.rev_gives ha.1 rd
  refine ⟨⟨_, hgives, Format.unpat_holds hw (reversePat_lt _ _), fun j hj => ?mirrored⟩, fun ru => ?back⟩
  case mirrored =>
    have hmirror : (s.reg ra).fmt.width - 1 - j < (s.reg ra).fmt.width := by omega
    simp only [Format.rev, Format.bitOf_unpat (reversePat_lt _ _) hj, testBit_reversePat, testBit_pat, hj, hmirror,
      decide_true, Bool.true_and]
    rfl
  case back =>
    obtain ⟨t, ht, hrev, -⟩ := hgives
    obtain ⟨u, hu, hback, -⟩ := State.rev_gives hrev.readable ru
    rw [hrev.fmt, hrev.val, Format.rev_rev hw hx] at hback
    exact ⟨t, u, ht, hu, hback⟩

/-! ### RANGE (R124) -/

theorem Reg.range_eq_zero {a : Reg} {l r : Nat} (h : a.val = 0 ∨ (a.width ≤ l ∧ a.width ≤ r)) :
    a.range l r = (Format.u1, 0) := if_pos (by rwa [le_min_iff])

/-- The format RANGE gives, and its bits, when V[ra] is not Zero and a bound is inside the width. -/
theorem Reg.range_bits {a : Reg} {l r : Nat} (hx : a.val ≠ 0) (hin : l < a.width ∨ r < a.width) :
    let l' := min l (a.width - 1)
    let r' := min r (a.width - 1)
    let n := ((l' : Int) - r').natAbs + 1
    (a.range l r).1 = { variant := .unsigned, width := n } ∧
      ∀ j, j < n → bitOf (a.range l r).2 j = bitOf a.val (if r' ≤ l' then r' + j else r' - j) := by
  intro l' r' n
  have hwidth : max l' r' - min l' r' + 1 = n := by omega
  have hrange : a.range l r = ({ variant := .unsigned, width := n },
      ((sumBits (fun j => (pat a.val a.width).testBit (if r' ≤ l' then r' + j else r' - j)) n : Nat) : Int)) := by
    rw [← hwidth]
    exact if_neg (by omega)
  refine ⟨by rw [hrange], fun j hj => ?_⟩
  have hbit : (if r' ≤ l' then r' + j else r' - j) < a.width := by split <;> omega
  simp only [hrange, bitOf_natCast, testBit_sumBits, testBit_pat, hj, hbit, decide_true, Bool.true_and]

theorem State.range_gives (ha : s.Readable ra) (rd : RegIx) (l r : BitVec 16) :
    s.Gives (.range rd ra l r) rd ((s.reg ra).range l.toNat r.toNat).1 ((s.reg ra).range l.toNat r.toNat).2 :=
  State.gives_of_oneOperand rfl ha rfl

/-- Settles O51: a RANGE that is not U1 Zero writes the bits between its clamped bounds; every RANGE gives a format no
wider than V[ra]'s, which holds the value. -/
theorem rangeExtractsInEitherOrder : Obligations.RangeExtractsInEitherOrder := by
  intro s rd ra l r
  refine ⟨encodes_fields (.range rd ra l r), State.checksRa_of_withReg rfl,
    fun ha => ⟨fun h => ?zero, fun hx hin => ?bits⟩⟩
  case zero => exact State.gives_of_oneOperand rfl ha.1 (Reg.range_eq_zero h)
  case bits =>
    obtain ⟨hfmt, hbits⟩ := Reg.range_bits hx hin
    obtain ⟨-, hle, hholds⟩ := (s.reg ra).range_holds (State.bounds_of_good ha).1 l.toNat r.toNat
    have hgives := State.range_gives ha.1 rd l r
    rw [hfmt] at hle hholds hgives
    exact ⟨hle, _, hgives, hholds, hbits⟩

end Sys2Proof.Machine
end

section
/-! PROOFS of the statements of 46_packed.md: IMPORT (O32), EXPORT (O33). -/

namespace Sys2Proof.Machine

variable {s : State} {ra : RegIx}

/-! ### EXPORT (R126) -/

/-- What EXPORT of V[ra] leaves. -/
def State.exported (s : State) (ra : RegIx) : State :=
  ({ s.memWrite 0 (32 * wordsOf (s.reg ra).width) (pat (s.reg ra).val (32 * wordsOf (s.reg ra).width)) with
    pbdesc := (s.reg ra).descriptor } : State).countCommand

theorem exec_exportV (ha : s.Readable ra) : exec (.exportV ra) s = .next (s.exported ra) :=
  congrArg RuleEnd.finish (withReg_readable ha _)

/-- EXPORT writes ceil(w / 32) words of the pattern and no other word. -/
theorem State.pbufWord_exported (s : State) (ra : RegIx) (k : Nat) :
    (s.exported ra).pbufWord k = if k < wordsOf (s.reg ra).width then
      BitVec.ofNat 32 (pat (s.reg ra).val (32 * wordsOf (s.reg ra).width) >>> (32 * k)) else s.pbufWord k := by
  have hwrite : (s.exported ra).pbufWord k = _ := s.pbufWord_writeWords 0 _ (32 * wordsOf (s.reg ra).width / 32) k
  rw [hwrite, Nat.mul_div_cancel_left _ (by norm_num)]
  simp only [Nat.zero_le, true_and, Nat.zero_add, Nat.sub_zero]

/-- The words EXPORT writes hold the value's extension, 32 bits each. -/
theorem State.getLsbD_pbufWord_exported {k j : Nat} (hk : k < wordsOf (s.reg ra).width) (hj : j < 32) :
    ((s.exported ra).pbufWord k).getLsbD j = bitOf (s.reg ra).val (32 * k + j) := by
  have hin : 32 * k + j < 32 * wordsOf (s.reg ra).width := by omega
  rw [State.pbufWord_exported, if_pos hk, BitVec.getLsbD_ofNat, Nat.testBit_shiftRight, testBit_pat]
  simp only [hj, hin, decide_true, Bool.true_and]

/-- signcode of a register that holds a value, by its value. -/
theorem Reg.sign_code {p : Params} {a : Reg} (hr : a.sign ≠ .uninit) (h : a.Wf p) :
    a.sign.code.toNat = if a.val < 0 then 2 else if 0 < a.val then 1 else 0 := by
  have hsign : signOf a.val = a.sign := congrArg Reg.sign (Reg.make_fmt_val hr h)
  rw [← hsign]
  rcases lt_trichotomy a.val 0 with hx | hx | hx
  · rw [signOf_neg hx, if_pos hx]; rfl
  · rw [hx]; rfl
  · rw [signOf_pos hx, if_neg hx.not_gt, if_pos hx]; rfl

/-- PBDESC of an exported register as a number (10_state.md R39), for a width that fits its field. -/
theorem Reg.descriptor_eq {a : Reg} (hw : a.width < 2 ^ 16) :
    a.descriptor = BitVec.ofNat 32 (2 ^ 19 + a.sign.code.toNat * 2 ^ 17 +
      (if a.variant = .signed then 2 ^ 16 else 0) + a.width) := by
  have hhigh : ((0 : BitVec 12) ++ (1 : BitVec 1) ++ a.sign.code ++
      BitVec.ofBool (decide (a.variant = .signed))).toNat =
        2 ^ 3 + a.sign.code.toNat * 2 + if a.variant = .signed then 1 else 0 := by
    cases a.sign <;> cases a.variant <;> rfl
  apply BitVec.eq_of_toNat_eq
  rw [Reg.descriptor, BitVec.toNat_append, hhigh, BitVec.toNat_ofNat, BitVec.toNat_ofNat, Nat.mod_eq_of_lt hw,
    ← Nat.shiftLeft_add_eq_or_of_lt hw, Nat.shiftLeft_eq]
  have hcode := a.sign.code.isLt
  split <;> omega

/-- Settles O33: of a register that holds a value, EXPORT leaves `State.exported`. -/
theorem exportWritesThePattern : Obligations.ExportWritesThePattern := by
  intro s ra
  refine ⟨encodes_fields (.exportV ra), State.checksRa_of_withReg rfl, fun hp ha => ?_⟩
  obtain ⟨-, hwmax, -⟩ := State.bounds_of_good ha
  have hw : (s.reg ra).width < 2 ^ 16 := by
    obtain ⟨-, hmax, -, -⟩ := hp
    rw [Reg.fmt_width] at hwmax
    omega
  refine ⟨s.exported ra, exec_exportV ha.1, fun k hk j hj => State.getLsbD_pbufWord_exported hk hj,
    fun k hk => ?kept, ?desc, s.reg_memWrite _ _ _, ?flags, ?report, ?port, ?count⟩
  case kept => exact (s.pbufWord_exported ra k).trans (if_neg (Nat.not_lt.mpr hk))
  case desc =>
    rw [← Reg.sign_code ha.1 ha.2]
    exact Reg.descriptor_eq hw
  case flags => exact ⟨s.memWrite_eq _ _ _, s.memWrite_lt _ _ _⟩
  case report =>
    exact ⟨s.memWrite_run _ _ _, s.memWrite_cause _ _ _, s.memWrite_info _ _ _, s.memWrite_fcmdLo _ _ _,
      s.memWrite_fcmdHi _ _ _⟩
  case port =>
    exact ⟨s.memWrite_params _ _ _, s.memWrite_cmdLo _ _ _, s.memWrite_cmdHi _ _ _, s.memWrite_rst _ _ _,
      s.memWrite_rdata _ _ _, s.memWrite_draws _ _ _, s.memWrite_events _ _ _⟩
  case count => exact congrArg (· + 1) (s.memWrite_cmdcnt _ _ _)

/-! ### IMPORT (R125) -/

variable {rd : RegIx} {imm : Word32}

/-- The bit of a pattern that starts at PBUF word 0 (20_memory.md R49). -/
def State.pbufBit (s : State) (j : Nat) : Bool := (s.pbufWord (j / 32)).getLsbD (j % 32)

/-- A rule that imports under variant v: the value of the format whose bits are those of PBUF. -/
theorem State.upToWmax_of_importing {i : Instr} {v : Variant} (h : exec i s = (importing s rd v imm).finish)
    (h0 : imm ≠ 0) :
    s.UpToWmax i imm.toNat (s.GivesBits i rd { variant := v, width := imm.toNat } s.pbufBit) := by
  refine State.upToWmax_of_withImmFormat h h0 (State.givesBits_of_write ?_ (s.memRead_lt 0 _) fun j hj => ?_)
  · exact Nat.one_le_iff_ne_zero.mpr fun hn => h0 (BitVec.eq_of_toNat_eq hn)
  · simp [State.testBit_memRead, State.pbufBit, hj]

/-- A value in range is determined by its bits below the width (R12). -/
theorem Format.holds_unique_of_bits {f : Format} (hf : 1 ≤ f.width) {y z : Int} (hy : f.holds y) (hz : f.holds z)
    (hbits : ∀ j, j < f.width → bitOf y j = bitOf z j) : y = z := by
  have hpat : pat y f.width = pat z f.width := Nat.eq_of_testBit_eq fun j => by
    rw [testBit_pat, testBit_pat]
    by_cases hj : j < f.width
    · rw [hbits j hj]
    · simp [hj]
  refine Format.holds_unique hf hy hz ?_
  rw [← pat_cast, ← pat_cast, hpat]

/-- PBUF after EXPORT holds the bits of the exported value, up to the width. -/
theorem State.pbufBit_exported {j : Nat} (hj : j < (s.reg ra).width) :
    (s.exported ra).pbufBit j = bitOf (s.reg ra).val j := by
  rw [State.pbufBit, State.getLsbD_pbufWord_exported (by rw [wordsOf]; omega) (Nat.mod_lt _ (by norm_num)),
    Nat.div_add_mod]

/-- IMPORT under either variant is one rule. -/
theorem exec_import_of_variant (s : State) (rd : RegIx) (imm : Word32) (v : Variant) :
    exec (if v = .signed then .importS rd imm else .importU rd imm) s = (importing s rd v imm).finish := by
  cases v <;> rfl

/-- IMPORT in the width and variant of the exported register gives its value back: only one value of the format has
its bits. -/
theorem State.import_exported (hp : s.params.valid) (ha : s.Good ra) (rd : RegIx) :
    (s.exported ra).Gives (if (s.reg ra).variant = .signed then .importS rd (BitVec.ofNat 32 (s.reg ra).width)
      else .importU rd (BitVec.ofNat 32 (s.reg ra).width)) rd (s.reg ra).fmt (s.reg ra).val := by
  obtain ⟨hw, hwmax, hx⟩ := State.bounds_of_good ha
  obtain ⟨-, hmax, -, -⟩ := hp
  have himm : (BitVec.ofNat 32 (s.reg ra).width).toNat = (s.reg ra).fmt.width := by
    rw [BitVec.toNat_ofNat]
    exact Nat.mod_eq_of_lt (by rw [Reg.fmt_width] at hwmax; omega)
  have hne : BitVec.ofNat 32 (s.reg ra).width ≠ 0 := fun h => by
    rw [h] at himm
    exact absurd (himm ▸ hw) (by decide)
  obtain ⟨-, hfits⟩ :=
    State.upToWmax_of_importing (exec_import_of_variant (s.exported ra) rd _ (s.reg ra).variant) hne
  have hparams : (s.exported ra).params = s.params := s.memWrite_params _ _ _
  rw [himm, hparams] at hfits
  obtain ⟨y, hgives, hy, hbits⟩ := hfits hwmax
  have hval : y = (s.reg ra).val :=
    Format.holds_unique_of_bits hw hy hx fun j hj => (hbits j hj).trans (State.pbufBit_exported hj)
  exact hval ▸ hgives

/-- Settles O32: both commands are the rule of importing, and after EXPORT the bits they read are the value's. -/
theorem importReadsThePattern : Obligations.ImportReadsThePattern := by
  intro s rd imm
  refine ⟨encodes_fields (.importU rd imm), encodes_fields (.importS rd imm),
    fun h0 => ⟨State.raises_badWidth rfl h0, State.raises_badWidth rfl h0⟩,
    fun h0 => ⟨State.upToWmax_of_importing rfl h0, State.upToWmax_of_importing rfl h0⟩,
    fun k hk => ?draw, fun hp ra ha => ?roundTrip⟩
  case draw => rw [State.pbufWord, hk, Option.getD_none]
  case roundTrip =>
    obtain ⟨u, hu, hgot, -⟩ := State.import_exported hp ha rd
    exact ⟨_, u, exec_exportV ha.1, hu, hgot⟩

end Sys2Proof.Machine
end

section
/-! PROOFS of the statements of 47_lzd.md: SIGD and CLZ (O52). -/

namespace Sys2Proof.Machine

variable {s : State}

/-! ### bitlen (R7) -/

theorem bitlen_of_ne_zero {n : Nat} (h : n ≠ 0) : bitlen n = n.log2 + 1 := if_neg h

/-- The top bit of a number below its bitlen is 1. -/
theorem testBit_bitlen_pred {n : Nat} (h : 1 ≤ bitlen n) : n.testBit (bitlen n - 1) = true := by
  have hn : n ≠ 0 := by
    rintro rfl
    exact absurd h (by decide)
  rw [bitlen_of_ne_zero hn, Nat.add_sub_cancel]
  exact Nat.testBit_log2 hn

/-! ### SIGD (R128) -/

/-- The digit count is the ceiling of bitlen / BPD. -/
theorem bitlen_le_digits {bpd m : Nat} (hb : 1 ≤ bpd) (hm : m ≠ 0) :
    bitlen m ≤ bpd * significantDigits bpd m ∧ bpd * significantDigits bpd m < bitlen m + bpd := by
  rw [significantDigits, if_neg hm]
  have hdiv := Nat.div_add_mod (bitlen m + bpd - 1) bpd
  have hmod := Nat.mod_lt (bitlen m + bpd - 1) hb
  omega

/-- The count d of significant digits has 2^(BPD*(d-1)) ≤ m < 2^(BPD*d). -/
theorem significantDigits_bounds {bpd m : Nat} (hb : 1 ≤ bpd) (hm : m ≠ 0) :
    1 ≤ significantDigits bpd m ∧ 2 ^ (bpd * (significantDigits bpd m - 1)) ≤ m ∧
      m < 2 ^ (bpd * significantDigits bpd m) := by
  have hlog := bitlen_of_ne_zero hm
  obtain ⟨hle, hlt⟩ := bitlen_le_digits hb hm
  have hpos : 1 ≤ significantDigits bpd m := Nat.one_le_iff_ne_zero.mpr fun h0 => by
    rw [h0] at hle
    omega
  have hbelow : bpd * (significantDigits bpd m - 1) ≤ m.log2 := by
    rw [Nat.mul_sub_one]
    omega
  refine ⟨hpos, ?_, ?_⟩
  · exact (Nat.pow_le_pow_right (by norm_num) hbelow).trans (Nat.log2_self_le hm)
  · exact (lt_two_pow_bitlen m).trans_le (Nat.pow_le_pow_right (by norm_num) hle)

/-- The magnitude of a value is below 2^es. -/
theorem Format.natAbs_lt_of_holds {f : Format} (hf : 1 ≤ f.width) {z : Int} (hz : f.holds z) :
    z.natAbs < 2 ^ f.es := by
  have hb := Format.holds_es hf hz
  have h2 := two_pow_pred (Format.es_pos hf)
  have hp := two_pow_pos (f.es - 1)
  zify
  rw [abs_lt]
  omega

theorem Format.es_le (f : Format) : f.es ≤ f.width + 1 := by
  cases hv : f.variant <;> simp [Format.es, hv]

/-- The digit count of a register fits U32, since a width is at most WMAX. -/
theorem State.significantDigits_lt {ra : RegIx} (hp : s.params.valid) (ha : s.Good ra) :
    significantDigits s.params.bpd (s.reg ra).val.natAbs < 2 ^ 32 := by
  obtain ⟨-, hmax, hbpd, -⟩ := hp
  obtain ⟨hw, hwmax, hx⟩ := State.bounds_of_good ha
  have hd := significantDigits_le (bpd := s.params.bpd) (by omega) (Format.natAbs_lt_of_holds hw hx)
  have hes := (s.reg ra).fmt.es_le
  omega

/-! ### CLZ (R129) -/

/-- The leading zeros of the w-bit pattern of a register. -/
def Reg.leadingZeros (a : Reg) : Nat := a.width - bitlen (pat a.val a.width)

theorem Reg.bitlen_pat_le (a : Reg) : bitlen (pat a.val a.width) ≤ a.width := bitlen_le (pat_lt _ _)

theorem Reg.leadingZeros_cast (a : Reg) : (a.leadingZeros : Int) = (a.width : Int) - bitlen (pat a.val a.width) :=
  Nat.cast_sub a.bitlen_pat_le

/-- The bits above the bitlen of the pattern are 0. -/
theorem Reg.bitOf_leading {a : Reg} {j : Nat} (hj : a.width - a.leadingZeros ≤ j) (hw : j < a.width) :
    bitOf a.val j = false := by
  have hlen : bitlen (pat a.val a.width) ≤ j := by
    have := a.bitlen_pat_le
    rw [Reg.leadingZeros] at hj
    omega
  have hbit := testBit_pat a.val a.width j
  rw [Nat.testBit_lt_two_pow ((lt_two_pow_bitlen _).trans_le (Nat.pow_le_pow_right (by norm_num) hlen))] at hbit
  simpa [hw] using hbit.symm

/-- The bit below the leading zeros is 1. -/
theorem Reg.bitOf_below_leading {a : Reg} (h : a.leadingZeros < a.width) :
    bitOf a.val (a.width - a.leadingZeros - 1) = true := by
  have hle := a.bitlen_pat_le
  rw [Reg.leadingZeros] at h ⊢
  have hidx : a.width - (a.width - bitlen (pat a.val a.width)) - 1 = bitlen (pat a.val a.width) - 1 := by omega
  have hbit := testBit_pat a.val a.width (bitlen (pat a.val a.width) - 1)
  rw [testBit_bitlen_pred (by omega)] at hbit
  rw [hidx]
  exact (Bool.and_eq_true_iff.mp hbit.symm).2

/-- Settles O52: both counts are the rule of one operand, the digits by the bounds of the ceiling and the leading zeros
by the bitlen of the pattern. -/
theorem leadingZeroCountsAreExact : Obligations.LeadingZeroCountsAreExact := by
  intro s rd ra
  refine ⟨encodes_fields (.sigd rd ra), encodes_fields (.clz rd ra), State.checksRa_of_withReg rfl,
    State.checksRa_of_withReg rfl, fun hp ha => ⟨?sigd, ?clz⟩⟩
  case sigd =>
    have hbpd : 1 ≤ s.params.bpd := by
      obtain ⟨-, -, h8, -⟩ := hp
      omega
    exact ⟨_, State.gives_of_oneOperand rfl ha.1 rfl, State.significantDigits_lt hp ha, fun h0 => if_pos h0,
      significantDigits_bounds hbpd⟩
  case clz =>
    obtain ⟨-, hmax, -⟩ := hp
    obtain ⟨-, hwmax, -⟩ := State.bounds_of_good ha
    rw [Reg.fmt_width] at hwmax
    have hle : (s.reg ra).leadingZeros ≤ (s.reg ra).width := Nat.sub_le _ _
    refine ⟨(s.reg ra).leadingZeros, State.gives_of_oneOperand rfl ha.1 ?_, hle, by omega, fun j => Reg.bitOf_leading,
      Reg.bitOf_below_leading⟩
    rw [Reg.leadingZeros_cast]
    rfl

end Sys2Proof.Machine
end

section
/-! PROOFS of the statements of 60_exceptions.md: illegal words (O7), the order of the UNINIT checks (O25), precise faults
(O22), the state FAULT (O9), the resets that leave it (O10), and that it is sticky (O11). -/

namespace Sys2Proof.Machine

variable {s t : State} {i : Instr} {r : RuleEnd}

/-! ### Illegal words (R142) -/

theorem decode_eq_none_of_not_wellFormed {c : Command} (h : (CmdFields.ofBits c).wellFormed = false) :
    decode c = none := by
  rw [← Option.not_isSome_iff_eq_none, decoderAcceptsExactlyTheLegalWords c, h]
  simp

/-- A word decodes to nothing exactly when it matches no row of opcode_table.json. -/
theorem decode_eq_none_iff (c : Command) : decode c = none ↔ ∀ r ∈ opcodeTable, r.holds c = false := by
  constructor
  · intro h r hr
    refine Bool.eq_false_iff.mpr fun hc => ?_
    obtain ⟨i, hi, -⟩ := (OpcodeRow.holds_iff hr c).mp hc
    cases h.symm.trans hi
  · intro h
    refine Option.eq_none_iff_forall_ne_some.mpr fun i hi => ?_
    have hc : i.row.holds c = true := (OpcodeRow.holds_iff i.row_mem c).mpr ⟨i, hi, rfl⟩
    cases hc.symm.trans (h i.row i.row_mem)

/-- The three ways of R142: no row for the opcode, a 1 in a field the row does not use, a condition code above 5. -/
theorem CmdFields.wellFormed_eq_false {f : CmdFields}
    (h : f.uses = none ∨ (∃ u, f.uses = some u ∧ f.unusedZero u = false) ∨ 6 ≤ f.cc.toNat) : f.wellFormed = false := by
  refine Bool.eq_false_iff.mpr fun hw => ?_
  obtain ⟨u, hu, hz, hcc⟩ := f.wellFormed_iff.mp hw
  rcases h with hnone | ⟨v, hv, hfalse⟩ | hcode
  · cases hnone.symm.trans hu
  · cases hv.symm.trans hu
    cases hfalse.symm.trans ((f.unusedZero_iff _).mpr hz)
  · omega

/-- Settles O7: to match no row is to decode to nothing, which the issue of the word answers with E_ILLEGAL. -/
theorem wordMatchingNoRowRaisesIllegal : Obligations.WordMatchingNoRowRaisesIllegal := by
  refine ⟨fun s data rest hr hrun hrow => ?_, fun f hf => ?_⟩
  · have hd : decode (data ++ s.cmdLo) = none := (decode_eq_none_iff _).mpr hrow
    rw [step_writeCmdHi hr]
    exact ⟨_, issue_illegal hrun hd, State.faultEntered_enterFault _ .illegal 0 ⟨rfl, rfl⟩ ⟨rfl, fun _ => rfl⟩
      State.samePort_refl rfl, fun _ => rfl⟩
  · refine (decode_eq_none_iff _).mp (decode_eq_none_of_not_wellFormed ?_)
    rw [CmdFields.ofBits_toBits]
    exact CmdFields.wellFormed_eq_false (hf.imp_right (Or.imp_right And.right))

/-! ### Precise faults (R140, R147, R148) -/

/-- A command performed in READY that ends in FAULT has raised a fault with nothing written, or is a division that has
written Zero. -/
theorem CommandEffect.fault_cases (h : CommandEffect i s r) (hs : s.run = .ready) (hf : r.after.run = .fault) :
    (∃ c info, c ≠ .noFault ∧ (c = .uninit → ∃ p ∈ readsOf i, (s.reg p.2).sign = .uninit) ∧ r = .raise c info s) ∨
      ∃ rd f info, Divides i rd ∧ r = .raise .div0 info (s.writeReg rd f 0) := by
  have not_kept {u : State} (hu : u.run = .fault) (hsame : u.run = s.run) : False :=
    nomatch hs.symm.trans (hsame.symm.trans hu)
  cases h with
  | nothing | write | compare => exact (not_kept hf rfl).elim
  | pack => exact (not_kept hf (s.memWrite_run _ _ _)).elim
  | fault c info hc _ hu => exact .inl ⟨c, info, hc, hu, rfl⟩
  | zeroed rd f info hi => exact .inr ⟨rd, f, info, hi, rfl⟩

/-- Settles O22: a fault is raised in the state before the command, or after the one write of Zero of a division. -/
theorem faultsArePrecise : Obligations.FaultsArePrecise := by
  intro i s t hs h hf
  obtain ⟨r, he, rfl⟩ := exec_cases h
  rcases he.fault_cases hs hf with ⟨c, info, hc, -, rfl⟩ | ⟨rd, f, info, hi, rfl⟩
  · exact ⟨c, info, hc, State.faultEntered_enterFault s c info ⟨rfl, rfl⟩ ⟨rfl, fun _ => rfl⟩ State.samePort_refl rfl,
      .inl fun _ => rfl⟩
  · refine ⟨.div0, info, by simp, State.faultEntered_enterFault _ .div0 info ⟨rfl, rfl⟩ ⟨rfl, fun _ => rfl⟩
      (State.samePort_writeReg rd f 0) rfl, .inr ⟨rfl, rd, hi.dest, ?_, fun j hj => State.reg_writeReg_ne s hj f 0, hi⟩⟩
    rw [RuleEnd.after, State.reg_enterFault, State.reg_writeReg_self, Reg.make_sign, signOf_zero]

/-! ### The order of the UNINIT checks (R143, R149)

A rule checks the registers of a list in order: one lemma per shared check, then one case per command. -/

/-- The rule raises E_UNINIT with nothing written for the first UNINIT register of the list, if there is one. -/
def ChecksInOrder (s : State) (reads : List (OperandField × RegIx)) (r : RuleEnd) : Prop :=
  ∀ f j, reads.find? (fun p => decide ((s.reg p.2).sign = .uninit)) = some (f, j) →
    r = .raise .uninit (uninitInfo f j) s

theorem checksInOrder_nil : ChecksInOrder s [] r := fun _ _ h => nomatch h

theorem checksInOrder_withReg {field : OperandField} {j : RegIx} {reads : List (OperandField × RegIx)}
    {k : Reg → RuleEnd} (hk : ChecksInOrder s reads (k (s.reg j))) :
    ChecksInOrder s ((field, j) :: reads) (withReg s field j k) := by
  intro f j' h
  by_cases hu : (s.reg j).sign = .uninit
  · rw [List.find?_cons_of_pos (by simpa using hu)] at h
    cases h
    exact withReg_uninit hu k
  · rw [List.find?_cons_of_neg (by simpa using hu)] at h
    rw [withReg_readable hu]
    exact hk f j' h

/-- A rule whose last check is that of its second operand. -/
theorem checksInOrder_withOperand2 {o : Operand2} {k : Int → RuleEnd} :
    ChecksInOrder s o.reads (withOperand2 s o k) := by
  cases o with
  | reg rb => exact checksInOrder_withReg (k := fun b => k b.val) checksInOrder_nil
  | imm => exact checksInOrder_nil

/-- Every command checks the registers it reads, in the order RA, RB, RD, before anything else. -/
theorem exec_checksInOrder (i : Instr) (s : State) : ∃ r, exec i s = r.finish ∧ ChecksInOrder s (readsOf i) r := by
  cases i with
  | nop => exact ⟨.done s, rfl, checksInOrder_nil⟩
  | fmtU | fmtS | importU | importS => exact ⟨_, rfl, checksInOrder_nil⟩
  | ldiU | ldiS | mov | castU | castS | exportV | neg | addi | subi | muli | divi | modi | not | rev | range | sigd
  | clz => exact ⟨_, rfl, checksInOrder_withReg checksInOrder_nil⟩
  | cvt | add | sub | mul | div | mod | and | or | xor | cmpEq | cmpNe | cmpLt | cmpLe | cmpGt | cmpGe | cmpmEq | cmpmNe
  | cmpmLt | cmpmLe | cmpmGt | cmpmGe =>
    exact ⟨_, rfl, checksInOrder_withReg (checksInOrder_withReg checksInOrder_nil)⟩
  | shl _ _ rb | shr _ _ rb | tst _ _ rb | bset _ _ rb | bclr _ _ rb =>
    exact ⟨_, rfl, checksInOrder_withReg (checksInOrder_withOperand2 (o := .reg rb))⟩
  | shlImm _ _ imm | shrImm _ _ imm | tstImm _ _ imm | bsetImm _ _ imm | bclrImm _ _ imm =>
    exact ⟨_, rfl, checksInOrder_withReg (checksInOrder_withOperand2 (o := .imm imm))⟩

/-- INFO of E_UNINIT as a number, (f << 4) | r (60_exceptions.md R141). -/
theorem uninitInfo_eq (f : OperandField) (j : RegIx) :
    uninitInfo f j = BitVec.ofNat 32 (f.code.toNat * 16 + j.toNat) := by
  cases f with
  | rd => exact (uninitInfo_rd j).trans (by rw [OperandField.code]; simp)
  | ra => exact uninitInfo_ra j
  | rb => exact uninitInfo_rb j

/-- Settles O25: the order is that of `exec_checksInOrder`, and E_UNINIT is raised by no other check. -/
theorem uninitOperandsFaultInOrder : Obligations.UninitOperandsFaultInOrder := by
  refine ⟨fun i s f j h => ?_, fun i s t hs h hf hc => ?_⟩
  · obtain ⟨r, hr, hchecks⟩ := exec_checksInOrder i s
    have hraise : s.Raises i .uninit (uninitInfo f j) := State.raises_of_raise (hchecks f j h ▸ hr)
    rw [uninitInfo_eq] at hraise
    cases f with
    | rd | ra | rb => exact hraise
  · obtain ⟨r, he, rfl⟩ := exec_cases h
    rcases he.fault_cases hs hf with ⟨c, info, -, hu, rfl⟩ | ⟨rd, f, info, -, rfl⟩
    · exact hu hc
    · cases hc

/-! ### What FAULT ignores (R150) -/

/-- A read of any register but STATUS does not see the run state. -/
theorem State.hostRead_withRun (s : State) (run : RunState) {off : Nat} (h : off ≠ 0x008) :
    ({ s with run := run } : State).hostRead off = s.hostRead off := by
  have hcsr : ({ s with run := run } : State).csrRead off = s.csrRead off := by
    unfold State.csrRead
    split
    case h_3 => exact absurd rfl h
    all_goals rfl
  simp only [State.hostRead, hcsr]
  rfl

theorem State.readData_withRun (s : State) (run : RunState) {addr : Word32} (h : s.offsetOf addr ≠ 0x008) :
    ({ s with run := run } : State).readData addr = s.readData addr :=
  congrArg (if s.rst then 0 else ·) (s.hostRead_withRun run h)

/-- Settles O9: the issue of a word does nothing in FAULT, and no other access looks at the run state. -/
theorem faultStateIgnoresCommandsOnly : Obligations.FaultStateIgnoresCommandsOnly := by
  intro s data rest hf hr
  refine ⟨?cmdHi, ?cmdLo, fun k hk hp => ?pbuf, ?ctrl, fun addr d t haddr h hd => ?read⟩
  case cmdHi =>
    rw [step_writeCmdHi hr]
    exact issue_fault hf
  case cmdLo =>
    rw [step_write hr]
    exact hostWrite_cmdLo data
  case pbuf =>
    rw [step_write hr, toNat_pbufOffset hp hk]
    exact hostWrite_pbuf (s := { s with events := rest }) hk data
  case ctrl =>
    rw [step_write hr]
    exact (hostWrite_ctrl data).trans (apply_ite Host.Outcome.next _ _ _).symm
  case read =>
    have hoff : s.offsetOf addr ≠ 0x008 := fun ho => haddr (State.eq_busAddr_of_offsetOf (off := 0x008) ho)
    have hsame := ({ s with events := rest } : State).readData_withRun .ready hoff
    cases h
    rw [← hd, step_pending, serve_read, ← hsame]
    rfl

/-! ### What leaves FAULT (R151, R171) -/

/-- Asserting `rst`, and deasserting it while it is asserted, is a hardware reset (70_reset_and_hazards.md R170). -/
theorem State.setRst_eq {level : Bool} (h : level = true ∨ s.rst = true) :
    s.setRst level = { s.hardwareReset with rst := level } := if_pos (by simpa using h)

theorem State.setRst_atReset {level : Bool} (h : level = true ∨ s.rst = true) : (s.setRst level).AtReset := by
  rw [State.setRst_eq h]
  exact { s.clear_atReset with }

/-- The issue of a word does nothing in FAULT. -/
theorem IssueEffect.eq_of_fault (h : IssueEffect s t) (hf : s.run = .fault) : t = s := by
  cases h with
  | ignored => rfl
  | illegal hrun | command _ _ hrun => cases hrun.symm.trans hf

/-- An input that takes the core from FAULT to READY is one of the two resets. -/
theorem InputEffect.leaves_fault {e : HostEvent} (h : InputEffect s e t) (hf : s.run = .fault) (ht : t.run = .ready) :
    ((∃ level, e = .rst level) ∨ ∃ data, e = .write (s.busAddr 0x028) data ∧ data.getLsbD 0 = true) ∧
      ∀ j, t.reg j = Reg.uninit := by
  cases h with
  | hardwareReset level => exact ⟨.inl ⟨level, rfl⟩, s.reg_clear⟩
  | softReset addr data _ ho hd =>
    refine ⟨.inr ⟨data, ?_, hd⟩, s.reg_softReset⟩
    rw [State.eq_busAddr_of_offsetOf (off := 0x028) ho]
  | read | nothing | storeWord | storeCmdLo => cases hf.symm.trans ht
  | issue _ _ _ _ _ hi =>
    rw [hi.eq_of_fault hf] at ht
    cases hf.symm.trans ht

/-- Settles O10, by cases on what the step did, and by the state that each reset leaves. -/
theorem onlyResetsLeaveFault : Obligations.OnlyResetsLeaveFault := by
  refine ⟨fun s t hf h ht => ?leaves, fun s data rest hr hd => ?soft, fun s rest => ?hard⟩
  case leaves =>
    rcases step_effect s with ⟨-, h'⟩ | ⟨e, rest, u, he, h', heff⟩
    · cases h.symm.trans h'
      cases hf.symm.trans ht
    · cases h.symm.trans h'
      obtain ⟨hreset, hregs⟩ := heff.leaves_fault hf ht
      refine ⟨⟨rest, ?_⟩, fun j => congrArg Reg.sign (hregs j)⟩
      rcases hreset with ⟨level, rfl⟩ | ⟨data, rfl, hd⟩
      · exact .inl ⟨level, he⟩
      · exact .inr ⟨data, he, hd⟩
  case soft =>
    rw [step_write hr]
    exact ⟨_, (hostWrite_ctrl data).trans (if_pos hd), State.clear_atReset _, fun _ => rfl, rfl, hr, rfl, rfl, rfl⟩
  case hard => exact ⟨_, step_rst true rest, State.setRst_atReset (.inl rfl)⟩

/-! ### Runs in FAULT (R150, R173)

In FAULT a host access that is no reset changes CMD_LO, CMD_HI, PBUF, the read data and the pending inputs only. The
state with these at fixed values stays along a run. -/

/-- The state without what host accesses change in FAULT. -/
def State.frozen (s : State) : State := { s with cmdLo := 0, cmdHi := 0, pbuf := [], rdata := 0, events := [] }

theorem InputEffect.frozen_eq {e : HostEvent} (h : InputEffect s e t) (hf : s.run = .fault)
    (he : e.NoReset s.params.base) : t.frozen = s.frozen := by
  cases h with
  | hardwareReset => exact he.elim
  | read | nothing | storeWord | storeCmdLo => rfl
  | issue _ _ _ _ _ hi =>
    rw [hi.eq_of_fault hf]
    rfl
  | softReset addr data _ ho hd => cases hd.symm.trans (he (State.eq_busAddr_of_offsetOf (off := 0x028) ho))

theorem IssueEffect.events_eq (h : IssueEffect s t) : t.events = s.events := by
  cases h with
  | ignored | illegal => rfl
  | command _ _ _ he => exact he.samePort.events

/-- No input is added to the pending ones by serving one. -/
theorem InputEffect.events_eq {e : HostEvent} (h : InputEffect s e t) : t.events = s.events := by
  cases h with
  | hardwareReset | read | nothing | storeWord | storeCmdLo | softReset => rfl
  | issue _ _ _ _ _ hi => exact hi.events_eq

theorem run_succ {M : Host.Core} {a b : M.State} (h : M.step a = .next b) (n : Nat) : M.run (n + 1) a = M.run n b := by
  rw [Host.Core.run, h]

/-- What holds at the start of a run and is kept by every step holds at its end. -/
theorem run_preserves {P : State → Prop} (hstep : ∀ s t, P s → step s = .next t → P t) (n : Nat) (h0 : P s)
    (h : Host.Core.run core n s = .next t) : P t := by
  induction n generalizing s with
  | zero =>
    cases h
    exact h0
  | succ n ih =>
    obtain ⟨hnext, -⟩ := everyStepAnswersANextState
    obtain ⟨u, hu⟩ := hnext s
    exact ih (hstep s u h0 hu) ((run_succ (M := core) hu n).symm.trans h)

/-- `s` is in FAULT as `s₀` is, and no reset is pending. -/
def State.StuckAs (s₀ s : State) : Prop := s.frozen = s₀.frozen ∧ ∀ e ∈ s.events, e.NoReset s.params.base

/-- A step of a core in FAULT with no reset pending. -/
theorem State.StuckAs.step {s₀ : State} (hf : s₀.run = .fault) (hs : s₀.StuckAs s) (h : step s = .next t) :
    s₀.StuckAs t := by
  obtain ⟨hfrozen, hevents⟩ := hs
  have hrun : s.run = .fault := (congrArg State.run hfrozen).trans hf
  rcases step_effect s with ⟨-, h'⟩ | ⟨e, rest, u, he, h', heff⟩
  · cases h.symm.trans h'
    exact ⟨hfrozen, hevents⟩
  · cases h.symm.trans h'
    rw [he] at hevents
    refine ⟨(heff.frozen_eq hrun (hevents e List.mem_cons_self)).trans hfrozen, ?_⟩
    rw [heff.events_eq, heff.params_eq]
    exact fun e' he' => hevents e' (List.mem_cons_of_mem e he')

/-- Settles O11: every step keeps `State.StuckAs`, and the report, the flags, the registers, PBDESC and CMDCNT stand in
what it holds. -/
theorem faultIsStickyAlongEveryRun : Obligations.FaultIsStickyAlongEveryRun := by
  intro n s t hf _ hevents h
  have hstuck : s.StuckAs t := run_preserves (fun _ _ => State.StuckAs.step hf) n ⟨rfl, hevents⟩ h
  obtain ⟨hfrozen, -⟩ := hstuck
  have kept {α : Type} (f : State → α) : f t.frozen = f s.frozen := congrArg f hfrozen
  exact ⟨⟨kept State.run, kept State.cause, kept State.info, kept State.fcmdLo, kept State.fcmdHi⟩,
    ⟨kept State.eq, kept State.lt⟩, fun j => kept (State.reg · j), kept State.pbdesc, kept State.cmdcnt⟩

end Sys2Proof.Machine
end

section
/-! PROOFS of the statements of 70_reset_and_hazards.md: the hardware reset (O12) and the state after it (O17). -/

namespace Sys2Proof.Machine

variable {s t : State}

/-! ### While `rst` is asserted (R170) -/

/-- No input moves a core in its reset state out of it while `rst` is asserted. -/
theorem InputEffect.atReset {e : HostEvent} (h : InputEffect s e t) (hr : s.rst = true) (hs : s.AtReset) :
    t.AtReset := by
  cases h with
  | hardwareReset level hl => exact State.setRst_eq hl ▸ State.setRst_atReset hl
  | read => exact { hs with }
  | nothing => exact hs
  | storeWord _ _ _ hr' | storeCmdLo _ _ hr' | issue _ _ _ hr' | softReset _ _ hr' => cases hr.symm.trans hr'

/-- Settles O12: both edges of `rst` are a hardware reset, and between them no access gets through. -/
theorem hardwareResetSetsTheTable : Obligations.HardwareResetSetsTheTable := by
  refine ⟨fun s rest level hl => ?edge, fun s rest addr data hr => ?access, fun s t hr hs h => ?held⟩
  case edge =>
    refine ⟨_, step_rst level rest, State.setRst_atReset hl, ?_⟩
    rw [State.setRst_eq (s := { s with events := rest }) hl]
    exact ⟨fun _ => rfl, rfl, rfl, rfl⟩
  case access => exact ⟨step_read_held hr addr rest, step_write_held hr addr data rest⟩
  case held =>
    rcases step_effect s with ⟨-, h'⟩ | ⟨e, rest, u, -, h', heff⟩
    · cases h.symm.trans h'
      exact hs
    · cases h.symm.trans h'
      exact heff.atReset hr { hs with }

/-! ### The state after reset -/

theorem State.reset_atReset : State.reset.AtReset := State.clear_atReset State.reset

theorem Params.default_valid : Params.default.valid := by decide

/-- Nothing has been taken, exported or written after reset. -/
theorem State.reset_inv : State.reset.Inv where
  params := Params.default_valid
  regs i := State.reg_clear State.reset i ▸ Reg.uninit_wf _
  flags := nofun
  report _ := ⟨rfl, rfl, rfl, rfl⟩
  cause := nofun
  pbdesc := by decide
  sorted := .nil
  bound := nofun
  held _ := State.reset_atReset

/-- Settles O17: the reset state is that of a hardware reset, with the default parameters. -/
theorem resetStateIsTheReset : Obligations.ResetStateIsTheReset :=
  ⟨State.reset_atReset, State.reset_inv, rfl, rfl, fun _ => rfl, rfl, rfl, rfl⟩

end Sys2Proof.Machine
end
